-- ==== Sys2Proof/Word.lean ====
section
/-! DEFINITION. The plain value types of the engine: bytes, 32-bit register values, 16-byte blocks and the
32-byte key store (spec/10_state.md section 5, R7, R22, R65). -/

namespace Sys2Proof

/-- One byte of a byte sequence or of system memory (R11, R60). -/
abbrev Byte := BitVec 8

/-- The value of a 32-bit register, bit 0 least significant (R10, R65). -/
abbrev Word := BitVec 32

/-- A 16-byte sequence: the counter, a keystream block, a block of the cipher port (R7, R20). -/
abbrev Block := Vector Byte 16

/-- The 32-byte key store (R22). -/
abbrev KeyStore := Vector Byte 32

end Sys2Proof
end

