-- ==== Sys2Proof/Syntax.lean ====
section
/-! DEFINITION. The command words of spec/30_encoding.md as syntax: one constructor per row of the opcode map
(R98). Every field of the 32-bit word is kept, the reserved bits too, because the engine completes a word with
a nonzero reserved bit in a way of its own (R100). -/

namespace Sys2Proof

/-- A command word, taken apart into its fields (R90 to R93, R98, R99). -/
inductive Instr where
  /-- Format C (R91): LE, KP and CP, and the reserved bits [31:7]. -/
  | construct (le kp cp : Bool) (rsv : BitVec 25)
  /-- Format T (R92): SP, DP, NP and VEC, and the reserved bits [31:8]. -/
  | transform (sp dp np vec : Bool) (rsv : BitVec 24)
  /-- Format R (R93): the reserved bits [31:4]. -/
  | release (rsv : BitVec 28)
  /-- The reserved opcodes 0x0 and 0x4 to 0xF (R99): OP and the other 28 bits. -/
  | reservedOp (op : BitVec 4) (rest : BitVec 28)
  deriving DecidableEq, Repr

end Sys2Proof
end

