-- ==== Sys2Proof/WellFormed.lean ====
section
/-! DEFINITION. Which terms of Instr spell what the opcode map lists (R98): the reserved bits of a defined
opcode are zero (R91 to R93), and the reserved row holds only a reserved opcode (R99). -/

namespace Sys2Proof

/-- OP values 0x0 and 0x4 to 0xF are reserved (R99). -/
def reservedOpcode (op : BitVec 4) : Bool := op == 0 || 4 ≤ op.toNat

/-- The term stands for some 32-bit word: only a reserved opcode stands in the reserved row. The reserved bits
of a defined opcode may hold anything here; the engine reports them (R100). -/
def Instr.encodable : Instr → Bool
  | .construct _ _ _ _ => true
  | .transform _ _ _ _ _ => true
  | .release _ => true
  | .reservedOp op _ => reservedOpcode op

/-- The term spells a row of the opcode map: encodable, and a defined opcode's reserved bits are 0
(R91 to R93, R98). -/
def Instr.wellFormed : Instr → Bool
  | .construct _ _ _ rsv => rsv == 0
  | .transform _ _ _ _ rsv => rsv == 0
  | .release rsv => rsv == 0
  | .reservedOp op _ => reservedOpcode op

end Sys2Proof
end

