-- ==== Sys2Proof/Decode.lean ====
section
/-! DEFINITION. The decoder of a command word and the encoder, both written from spec/30_encoding.md R91 to R93
and R98. The decoder is total: the engine takes every 32-bit word (R103), and reports a reserved opcode or a
reserved bit by the error names RESERVED_OPCODE and RESERVED_BITS (R99, R100). -/

namespace Sys2Proof

/-- The opcode field OP, `w[3:0]` (R90). -/
def opField (w : Word) : BitVec 4 := w.extractLsb' 0 4

/-- Format C (R91). -/
def decodeC (w : Word) : Instr :=
  .construct (w.getLsbD 4) (w.getLsbD 5) (w.getLsbD 6) (w.extractLsb' 7 25)

/-- Format T (R92). -/
def decodeT (w : Word) : Instr :=
  .transform (w.getLsbD 4) (w.getLsbD 5) (w.getLsbD 6) (w.getLsbD 7) (w.extractLsb' 8 24)

/-- The command word's instruction (R98, R102): OP alone selects the format. -/
def decode (w : Word) : Instr :=
  if opField w = 1 then decodeC w
  else if opField w = 2 then decodeT w
  else if opField w = 3 then .release (w.extractLsb' 4 28)
  else .reservedOp (opField w) (w.extractLsb' 4 28)

/-- The command word of an instruction, its fields laid out bit 31 first as R91 to R93 write them. -/
def encode : Instr → Word
  | .construct le kp cp rsv =>
    rsv ++ BitVec.ofBool cp ++ BitVec.ofBool kp ++ BitVec.ofBool le ++ (1 : BitVec 4)
  | .transform sp dp np vec rsv =>
    rsv ++ BitVec.ofBool vec ++ BitVec.ofBool np ++ BitVec.ofBool dp ++ BitVec.ofBool sp ++ (2 : BitVec 4)
  | .release rsv => rsv ++ (3 : BitVec 4)
  | .reservedOp op rest => rest ++ op

/-- The host's view of the decoder: a command is exactly one 32-bit word (R102), so no longer instruction is
read; the bits above `nbits` are 0. -/
def decodeTableWord (nbits w : Nat) : Option Instr :=
  if 32 < nbits then none else some (decode (BitVec.ofNat 32 (w % 2 ^ nbits)))

end Sys2Proof
end

