-- ==== Sys2Proof/Config.lean ====
section
/-! DEFINITION. What the platform or an open point of the spec fixes: the cipher port and the free values.
Both are opaque constants with no body, so that every claim holds for each choice of them. The platform's
parameters ADDR_W, REG_BASE, N_ENGINES and DMA_COHERENT stand in State.plat (assumption 2), for the same reason. -/

namespace Sys2Proof

/-- `BLOCK_BYTES` (R7, R9). -/
def Config.blockBytes : Nat := 16

/-- The external block encryptor `E : KeyBytes × Block16 → Block16`: total, deterministic, stateless, and OPEN
(R163, D2, I6). The spec gives AES only as a conformance choice and leaves its definition outside (R5, R164). -/
opaque Config.blockEncrypt : List Byte → Block → Block

/-- The free bytes of a data race: R79 lets each such byte take any value. Applied to the counter
`State.fresh`, so each use is a fresh choice (assumption 8). -/
opaque Config.freeByte : Nat → Byte

end Sys2Proof
end

