-- ==== Sys2Proof/Machine/Counter.lean ====
section
/-! DEFINITION. The counter as a number and ADVANCE (spec/41_counter.md R140 to R143). -/

namespace Sys2Proof.Machine

/-- Byte `i` of the counter is worth `256 ^ byteWeight le i` (R140). -/
def byteWeight (le : Bool) (i : Nat) : Nat := if le then i else 15 - i

/-- `ctr_int(C, le)` (R140). -/
def ctrInt (ctr : Block) (le : Bool) : Nat :=
  ((List.finRange 16).map fun (i : Fin 16) => ctr[i].toNat * 256 ^ byteWeight le i).sum

/-- `ctr_bytes(v, le)` (R140), for `v` below `2^128`; of a larger `v` its value modulo `2^128`. -/
def ctrBytes (v : Nat) (le : Bool) : Block :=
  Vector.ofFn fun (i : Fin 16) => BitVec.ofNat 8 (v / 256 ^ byteWeight le i)

/-- The carry loop of ADVANCE over the byte indices in the order given: increment a byte modulo 256, and go on
to the next only if it has become 0 (R141, R142). -/
def advanceAlong : List (Fin 16) → Block → Block
  | [], ctr => ctr
  | i :: rest, ctr =>
    let bumped := ctr.set i (ctr[i] + 1)
    if bumped[i] ≠ 0 then bumped else advanceAlong rest bumped

/-- ADVANCE, big-endian: from byte 15 toward byte 0 (R141). -/
def advanceBE (ctr : Block) : Block := advanceAlong (List.finRange 16).reverse ctr

/-- ADVANCE, little-endian: from byte 0 toward byte 15 (R142). -/
def advanceLE (ctr : Block) : Block := advanceAlong (List.finRange 16) ctr

/-- ADVANCE under the context's endianness flag (R141, R142). -/
def advance (ctr : Block) (le : Bool) : Block := if le then advanceLE ctr else advanceBE ctr

end Sys2Proof.Machine
end

