-- ==== Sys2Proof/Machine/State.lean ====
section
/-! DEFINITION. The machine's state as plain data (spec/10_state.md section 5, 20_memory.md R60): the engine's
registers and internal state, system memory, the platform, and what the other agents do next; the reasons a
step can stop; and the state right after reset (R300). -/

namespace Sys2Proof.Machine

/-- The life state of the context slot (R24). -/
inductive Life where
  | none | active | disposed
  deriving DecidableEq, Repr

/-- `st.OPK`: the command in progress (R49). -/
inductive OpKind where
  | idle | constructPending | transformPending
  deriving DecidableEq, Repr

/-- The width of one register-window access; only `w32` has a meaning (R26, R68). -/
inductive AccessWidth where
  | w8 | w16 | w32 | w64
  deriving DecidableEq, Repr

/-- Who makes a system-memory access that is not the engine's: the host (R14), or another bus master, such as
another engine instance (R81, I3), told apart by a number of the model's own; the numbers below `N_ENGINES - 1`
are the other instances' (assumption 10). -/
inductive Master where
  | host
  | other (id : Nat)
  deriving DecidableEq, Repr

/-- `len` bytes from address `base` on. -/
structure Span where
  base : Nat
  len : Nat
  deriving DecidableEq, Repr

/-- One coming step of an agent (R14, R314); the engine's turn is one of them, so a list of events is an
interleaving. -/
inductive Event where
  /-- A host register write: bus address, width and value (R26, R28). -/
  | regWrite (addr : Nat) (width : AccessWidth) (value : Word)
  /-- A host register read: bus address and width (R26). -/
  | regRead (addr : Nat) (width : AccessWidth)
  /-- A system-memory write of the host or of another master (R14, R79, I3). -/
  | memWrite (by_ : Master) (addr : Nat) (bytes : List Byte)
  /-- A system-memory read of the host or of another master (R14, R79, I3). -/
  | memRead (by_ : Master) (addr len : Nat)
  /-- The host's own cache maintenance of a range (R77, R78). -/
  | maintain (addr len : Nat)
  /-- Another engine instance accepts a command that reads and writes these ranges (R81). -/
  | otherBegins (id : Nat) (reads writes : List Span)
  /-- The command another engine instance runs completes (R81). -/
  | otherEnds (id : Nat)
  /-- The engine takes its enabled step, if it has one (R14, R121, R181). -/
  | engineTurn
  /-- The reset event (R300). -/
  | reset
  deriving DecidableEq, Repr

/-- A command that another engine instance runs: the ranges it was handed, and whether it has met a data race
(R79, R81). Nothing else of an instance reaches another. -/
structure OtherCommand where
  id : Nat
  reads : List Span
  writes : List Span
  raced : Bool
  deriving DecidableEq, Repr

/-- The context (R20 to R24). -/
structure Context where
  /-- `st.CTR` (R20). -/
  ctr : Block
  /-- `st.KEY` (R22). -/
  key : KeyStore
  /-- `st.KLEN`: 0, 16, 24 or 32 (R22). -/
  klen : Nat
  /-- `st.LE` (R23). -/
  le : Bool
  /-- `st.LIFE` (R24). -/
  life : Life
  deriving DecidableEq, Repr

/-- The stored bits of STATUS; BUSY, LIFE and LE are derived (R29 to R34). -/
structure StatusBits where
  done : Bool
  err : Bool
  overrun : Bool
  deriving DecidableEq, Repr

/-- The fields of ERRINFO (R36). -/
structure ErrInfo where
  cls : BitVec 4
  sub : BitVec 4
  deriving DecidableEq, Repr

/-- The nine descriptor registers (R39 to R47). -/
structure Descriptors where
  keyAddr : Word
  keyLen : Word
  ctrAddr : Word
  ctrLen : Word
  srcAddr : Word
  srcLen : Word
  dstAddr : Word
  dstCap : Word
  nbytes : Word
  deriving DecidableEq, Repr

/-- The command in progress and the operands latched at its acceptance (R49). -/
structure Command where
  opk : OpKind
  /-- `st.LKA`, `st.LKL`, `st.LCA`, `st.LLE`: latched by CONSTRUCT (R120). -/
  lka : Word
  lkl : Nat
  lca : Word
  lle : Bool
  /-- `st.LSRC`, `st.LDST`, `st.LN`, `st.OFF`, `st.LVEC`: latched by TRANSFORM (R180). -/
  lsrc : Word
  ldst : Word
  ln : Nat
  off : Nat
  lvec : Bool
  deriving DecidableEq, Repr

/-- The platform's parameters (R9, R72, D3, D5, D15, D27). No step changes them. -/
structure Platform where
  /-- `ADDR_W`, 1 to 32. -/
  addrW : Nat
  /-- `REG_BASE`. -/
  regBase : Nat
  /-- `N_ENGINES`, 1 or more: this engine and the other instances, which have the numbers `0` to
  `N_ENGINES - 2` (R81, R282, assumption 10). -/
  nEngines : Nat
  /-- `DMA_COHERENT`. -/
  coherent : Bool
  /-- Address ranges where reads or writes have side effects (R72, I16). -/
  devices : List Span
  deriving DecidableEq, Repr

/-- What one agent's writes another has not been promised to see yet (R77, R78); lists of addresses with no
repeats. -/
structure Visibility where
  /-- Written by the host, not yet made visible to a DMA port that is not coherent (R77). -/
  hostDirty : List Nat
  /-- Written by the engine, its completion not yet observed by the host (R78). -/
  unseen : List Nat
  /-- To be maintained by the host before its own reads see it (R78). -/
  stale : List Nat
  deriving DecidableEq, Repr

/-- System memory (R60): the bytes that differ from what an unlisted address reads as, addresses rising. -/
abbrev Memory := List Host.Cell

/-- The whole state: the engine (R20 to R49), system memory (R60), the platform, and the agents' side. -/
structure State where
  ctx : Context
  status : StatusBits
  errInfo : ErrInfo
  /-- CTRL.IE (R37). -/
  ie : Bool
  /-- BLKCNT (R38). -/
  blkcnt : Word
  desc : Descriptors
  cmd : Command
  mem : Memory
  plat : Platform
  /-- The platform's coming answers to DMA requests, true to admit; an empty list admits (R60, R70). -/
  dmaAnswers : List Bool
  /-- The coming steps of the agents, first first (R14). -/
  events : List Event
  /-- The model's own: the command in progress has met a data race (R79). -/
  raced : Bool
  vis : Visibility
  /-- The commands that other engine instances run now (R81). -/
  others : List OtherCommand
  /-- What the host's last register read returned (R314). -/
  busWord : Word
  /-- What the host's last own memory read returned (R306). -/
  busBytes : List Byte
  /-- The model's own: how many free bytes have been taken (R79). -/
  fresh : Nat
  deriving DecidableEq, Repr

/-- Why a step stops. No command word raises one. -/
inductive Fault where
  /-- Raised by the block step in a state with no ACTIVE context, where R25 says no block step runs: no state
  that meets the machine's invariant is such. Safe. -/
  | blockStepWithoutContext
  /-- Raised by the block step when `st.OFF` is not below `st.LN`, which R49 excludes: no state that meets the
  machine's invariant is such. Safe. -/
  | blockStepPastEnd
  /-- Raised by a DMA request that leaves `[0, 2^ADDR_W)`, which R95 excludes: no state that meets the
  machine's invariant is such. Safe. -/
  | dmaOutsideMemory
  /-- Raised by the host's or another master's own access outside system memory, where no byte exists (R60).
  Safe. -/
  | busOutsideMemory
  deriving DecidableEq, Repr

/-- What the model does not give a meaning to. -/
inductive Refusal where
  /-- An arm of exec whose instruction has no meaning yet; no arm of this model answers it. Safe. -/
  | notModelled (mnemonic : String)
  /-- Raised by a register-window access of another width than 32 bits or at an unaligned offset; R68 says a
  model refuses it. Safe. -/
  | badWindowAccess
  /-- Raised by a register access at a bus address outside the 256-byte window, which is not an interaction
  with the engine (R26, R314). Safe. -/
  | outsideWindow
  /-- Raised by a DMA request admitted to an address with side effects; R72 says a model refuses it. Safe. -/
  | dmaToDevice
  deriving DecidableEq, Repr

/-- The context's reset value (R300), and what RELEASE leaves but for the life state (R240). -/
def Context.zeroed (life : Life) : Context :=
  { ctr := Vector.replicate 16 0, key := Vector.replicate 32 0, klen := 0, le := false, life := life }

/-- The machine right after reset (R300), with no event to come. What R300 does not give (the platform, memory
and the agents' side) is named in assumptions 1 to 3, 5 to 8 and 10. -/
def State.reset : State where
  ctx := Context.zeroed .none
  status := { done := false, err := false, overrun := false }
  errInfo := { cls := 0, sub := 0 }
  ie := false
  blkcnt := 0
  desc :=
    { keyAddr := 0, keyLen := 0, ctrAddr := 0, ctrLen := 0, srcAddr := 0, srcLen := 0, dstAddr := 0,
      dstCap := 0, nbytes := 0 }
  cmd :=
    { opk := .idle, lka := 0, lkl := 0, lca := 0, lle := false, lsrc := 0, ldst := 0, ln := 0, off := 0,
      lvec := false }
  mem := []
  plat := { addrW := 32, regBase := 0, nEngines := 1, coherent := true, devices := [] }
  dmaAnswers := []
  events := []
  raced := false
  vis := { hostDirty := [], unseen := [], stale := [] }
  others := []
  busWord := 0
  busBytes := []
  fresh := 0

end Sys2Proof.Machine
end

