-- ==== Sys2Proof/Machine/Keystream.lean ====
section
/-! DEFINITION. NEXT_BLOCK and XOR_COMBINE (spec/42_keystream.md R160, 43_transform.md R182). -/

namespace Sys2Proof.Machine

/-- The key bytes in use, `st.KEY[0..st.KLEN)` (R22). -/
def keyBytes (ctx : Context) : List Byte := ctx.key.toList.take ctx.klen

/-- The key store a CONSTRUCT fills: the key bytes, then zeros (R121). -/
def keyStoreOf (bytes : List Byte) : KeyStore := Vector.ofFn fun i => bytes.getD i.val 0

/-- The counter a CONSTRUCT loads: byte `i` is sequence byte `i` (R64, R121). -/
def blockOf (bytes : List Byte) : Block := Vector.ofFn fun i => bytes.getD i.val 0

/-- NEXT_BLOCK: the keystream block of the current counter, and the advanced counter (R160). -/
def nextBlock (ctx : Context) : Block × Block :=
  (Config.blockEncrypt (keyBytes ctx) ctx.ctr, advance ctx.ctr ctx.le)

/-- XOR_COMBINE: output byte `i` is input byte `i` XOR keystream byte `i`, for as many bytes as the input has;
the rest of the keystream block is not used (R182, R184). -/
def xorCombine (inp : List Byte) (ks : Block) : List Byte := List.zipWith (· ^^^ ·) inp ks.toList

end Sys2Proof.Machine
end

