-- ==== Sys2Proof/Machine/Flags.lean ====
section
/-! DEFINITION. Every status computation of the spec: the outcome codes of a command (spec/60_exceptions.md
R262 to R267), the STATUS and ERRINFO words (10_state.md R29 to R36) and the interrupt line (R274). -/

namespace Sys2Proof.Machine

/-- The outcomes a command can report, by the names of R263 to R267; `ok` is class 0 (R262). -/
inductive Completion where
  | ok
  | keyAbsent | keyLength | ctrAbsent | ctrLength | keyRange | ctrRange
  | srcAbsent | dstAbsent | nbytesRange | dstCapacity | srcRange | dstRange
  | released | noContext
  | busRead | busWrite
  | contextActive
  | reservedOpcode | reservedBits
  deriving DecidableEq, Repr

/-- CLASS and SUB of each outcome (R262 to R267). -/
def Completion.code : Completion → ErrInfo
  | .ok => { cls := 0, sub := 0 }
  | .keyAbsent => { cls := 1, sub := 1 }
  | .keyLength => { cls := 1, sub := 2 }
  | .ctrAbsent => { cls := 1, sub := 3 }
  | .ctrLength => { cls := 1, sub := 4 }
  | .keyRange => { cls := 1, sub := 5 }
  | .ctrRange => { cls := 1, sub := 6 }
  | .srcAbsent => { cls := 1, sub := 8 }
  | .dstAbsent => { cls := 1, sub := 9 }
  | .nbytesRange => { cls := 1, sub := 10 }
  | .dstCapacity => { cls := 1, sub := 11 }
  | .srcRange => { cls := 1, sub := 12 }
  | .dstRange => { cls := 1, sub := 13 }
  | .released => { cls := 2, sub := 1 }
  | .noContext => { cls := 2, sub := 2 }
  | .busRead => { cls := 3, sub := 1 }
  | .busWrite => { cls := 3, sub := 2 }
  | .contextActive => { cls := 4, sub := 1 }
  | .reservedOpcode => { cls := 5, sub := 1 }
  | .reservedBits => { cls := 5, sub := 2 }

/-- STATUS.BUSY (R29). -/
def busy (s : State) : Bool := s.cmd.opk != .idle

/-- The encoding of the life state in STATUS.LIFE (R24, R33). -/
def lifeCode : Life → BitVec 2
  | .none => 0
  | .active => 1
  | .disposed => 2

/-- The STATUS register as it reads, bits [31:7] zero (R29 to R35). -/
def statusWord (s : State) : Word :=
  (0 : BitVec 25) ++ BitVec.ofBool s.ctx.le ++ lifeCode s.ctx.life ++ BitVec.ofBool s.status.overrun ++
    BitVec.ofBool s.status.err ++ BitVec.ofBool s.status.done ++ BitVec.ofBool (busy s)

/-- The ERRINFO register as it reads: CLASS in [3:0], SUB in [7:4], 0 above (R36). -/
def errInfoWord (e : ErrInfo) : Word := (0 : BitVec 24) ++ e.sub ++ e.cls

/-- The stored STATUS bits after a host write of `v`: write 1 to clear (R35). -/
def statusAfterWrite (b : StatusBits) (v : Word) : StatusBits where
  done := b.done && !v.getLsbD 1
  err := b.err && !v.getLsbD 2
  overrun := b.overrun && !v.getLsbD 3

/-- The interrupt output (R274). -/
def irq (s : State) : Bool := s.ie && s.status.done

end Sys2Proof.Machine
end

