-- ==== Sys2Proof/Machine/Operands.lean ====
section
/-! DEFINITION. The operands of a command at acceptance (spec/30_encoding.md R94 to R97) and the acceptance
checks of CONSTRUCT and TRANSFORM in the spec's order (R120, R180, R271, R272). -/

namespace Sys2Proof.Machine

/-- `2^ADDR_W`: system memory's size (R60). -/
def memSize (p : Platform) : Nat := 2 ^ p.addrW

/-- `sint32(v)` (R12). -/
def sint32 (v : Word) : Int := if v.toNat < 2 ^ 31 then v.toNat else (v.toNat : Int) - 2 ^ 32

/-- TRANSFORM's byte count: the signed NBYTES if NP is 1, SRC_LEN if not (R96). -/
def byteCount (np : Bool) (d : Descriptors) : Int := if np then sint32 d.nbytes else (d.srcLen.toNat : Int)

/-- The key lengths a CONSTRUCT accepts (R8, R120). -/
def keyLengthOk (kl : Nat) : Bool := kl == 16 || kl == 24 || kl == 32

/-- The first error a CONSTRUCT meets at acceptance, in R120's order; none if it passes. -/
def constructError (kp cp : Bool) (s : State) : Option Completion :=
  if s.ctx.life = .active then some .contextActive
  else if kp = false then some .keyAbsent
  else if keyLengthOk s.desc.keyLen.toNat = false then some .keyLength
  else if cp = false then some .ctrAbsent
  else if s.desc.ctrLen.toNat ≠ 16 then some .ctrLength
  else if memSize s.plat < s.desc.keyAddr.toNat + s.desc.keyLen.toNat then some .keyRange
  else if memSize s.plat < s.desc.ctrAddr.toNat + 16 then some .ctrRange
  else none

/-- The first error a TRANSFORM meets at acceptance, in R180's order; none if it passes. -/
def transformError (sp dp np : Bool) (s : State) : Option Completion :=
  if s.ctx.life = .disposed then some .released
  else if s.ctx.life = .none then some .noContext
  else if sp = false then some .srcAbsent
  else if dp = false then some .dstAbsent
  else if byteCount np s.desc < 0 ∨ (s.desc.srcLen.toNat : Int) < byteCount np s.desc then some .nbytesRange
  else if (s.desc.dstCap.toNat : Int) < byteCount np s.desc then some .dstCapacity
  else if memSize s.plat < s.desc.srcAddr.toNat + s.desc.srcLen.toNat then some .srcRange
  else if memSize s.plat < s.desc.dstAddr.toNat + s.desc.dstCap.toNat then some .dstRange
  else none

end Sys2Proof.Machine
end

