-- ==== Sys2Proof/Machine/Memory.lean ====
section
/-! DEFINITION. System memory (spec/20_memory.md R60, R63): reading and writing bytes and byte sequences, the
canonical form of the list, and address ranges. -/

namespace Sys2Proof.Machine

/-- What an address that the list does not hold reads as. DESIGN CHOICE (assumption 1): the spec gives no
power-on contents. -/
def unlistedByte : Byte := 0

/-- The byte at an address (R60). -/
def readByte : Memory → Nat → Byte
  | [], _ => unlistedByte
  | (b, u) :: rest, a => if a = b then u else readByte rest a

/-- The memory with one byte stored; the list keeps its canonical form. -/
def writeByte : Memory → Nat → Byte → Memory
  | [], a, v => if v = unlistedByte then [] else [(a, v)]
  | (b, u) :: rest, a, v =>
    if a < b then (if v = unlistedByte then (b, u) :: rest else (a, v) :: (b, u) :: rest)
    else if a = b then (if v = unlistedByte then rest else (a, v) :: rest)
    else (b, u) :: writeByte rest a v

/-- A sequence of `n` bytes, byte `i` from address `a + i` (R63). -/
def readBytes (m : Memory) (a n : Nat) : List Byte := (List.range n).map fun i => readByte m (a + i)

/-- A byte sequence stored in ascending address order, byte `i` at `a + i` (R63, R75). -/
def writeBytes : Memory → Nat → List Byte → Memory
  | m, _, [] => m
  | m, a, v :: rest => writeBytes (writeByte m a v) (a + 1) rest

/-- The canonical form: addresses strictly rising, and no entry equal to what an unlisted address reads as. -/
def Memory.wf : Memory → Bool
  | [] => true
  | (a, v) :: rest => v != unlistedByte && rest.all (fun c => decide (a < c.1)) && Memory.wf rest

/-- Every listed address exists: it is below `limit` (R60). -/
def Memory.below (limit : Nat) (m : Memory) : Bool := m.all fun c => decide (c.1 < limit)

/-- `a` is one of the `n` addresses from `base` on. -/
def inRange (base n a : Nat) : Bool := decide (base ≤ a) && decide (a < base + n)

/-- The two ranges have an address in common. -/
def overlaps (a n b m : Nat) : Bool :=
  decide (0 < n) && decide (0 < m) && decide (a < b + m) && decide (b < a + n)

/-- The `n` addresses from `base` on. -/
def addresses (base n : Nat) : List Nat := (List.range n).map (base + ·)

/-- The addresses of `l` outside the range. -/
def withoutRange (l : List Nat) (base n : Nat) : List Nat := l.filter fun a => !inRange base n a

/-- The addresses of `l` and of the range, none twice. -/
def withRange (l : List Nat) (base n : Nat) : List Nat := addresses base n ++ withoutRange l base n

end Sys2Proof.Machine
end

