-- ==== Sys2Proof/Machine/Others.lean ====
section
/-! DEFINITION. The running commands of other engine instances (spec/20_memory.md R81): which requests meet the
memory ranges of such a command, and the mark of the commands that have met a race (R79, I3, assumption 10). -/

namespace Sys2Proof.Machine

/-- The `n` addresses from `a` on have one in common with one of the ranges. -/
def meetsAny (ranges : List Span) (a n : Nat) : Bool := ranges.any fun d => overlaps a n d.base d.len

/-- A read of the range meets what the command writes (R79, R81). -/
def metByRead (a n : Nat) (o : OtherCommand) : Bool := meetsAny o.writes a n

/-- A write of the range meets what the command reads or writes (R79, R81). -/
def metByWrite (a n : Nat) (o : OtherCommand) : Bool := meetsAny o.reads a n || meetsAny o.writes a n

/-- The other instances' commands for which `hit` holds are marked as raced. -/
def markOthers (hit : OtherCommand → Bool) (s : State) : State :=
  { s with others := s.others.map fun o => { o with raced := o.raced || hit o } }

/-- The request is the instance's own, whose command this is. -/
def isOwn (who : Master) (o : OtherCommand) : Bool := who == .other o.id

/-- A memory access by `who` races with every other agent's running command that it meets. An instance whose
request meets another's command, or this engine's (`withOurs`), has its own command marked too (R81). -/
def raceOthers (who : Master) (met : OtherCommand → Bool) (withOurs : Bool) (s : State) : State :=
  markOthers (fun o =>
    if isOwn who o then withOurs || s.others.any fun p => !isOwn who p && met p else met o) s

end Sys2Proof.Machine
end

