-- ==== Sys2Proof/Machine/Ops.lean ====
section
/-! DEFINITION. The shared operations over the state: the end of a command (spec/60_exceptions.md R261), the
acceptance and the drop of a command (30_encoding.md R103, R104), reset (R300), data races (R79), and the DMA
requests (20_memory.md R60, R70, R77, R78, R81). -/

namespace Sys2Proof.Machine

/-- Go on from a next value; a fault or a refusal stays. -/
def andThen {α β : Type} (o : Host.Outcome α Fault Refusal) (k : α → Host.Outcome β Fault Refusal) :
    Host.Outcome β Fault Refusal :=
  match o with
  | .next a => k a
  | .fault f => .fault f
  | .refused r => .refused r

/-- `complete(cls, sub)` (R261): the engine's one way of reporting an error or a success. It saves the code in
ERRINFO, sets DONE and ERR and makes the engine idle; nothing is entered and nothing returned from (R276,
R277). The race mark of the command ends with it. -/
def complete (c : Completion) (s : State) : State :=
  { s with
    cmd := { s.cmd with opk := .idle }
    errInfo := c.code
    status := { s.status with err := c.code.cls != 0, done := true }
    raced := false }

/-- The first half of acceptance (R103): DONE, ERR, ERRINFO and BLKCNT are cleared; OVERRUN stays (R32). -/
def beginCommand (s : State) : State :=
  { s with
    status := { s.status with done := false, err := false }
    errInfo := { cls := 0, sub := 0 }
    blkcnt := 0
    raced := false }

/-- `drop(w)` (R104): OVERRUN is set and nothing else changes. -/
def dropCommand (s : State) : State := { s with status := { s.status with overrun := true } }

/-- A CMD write (R103): dropped while BUSY, accepted otherwise. -/
def submit (s : State) (accepted : State → State) : State :=
  if busy s then dropCommand s else accepted (beginCommand s)

/-- Reset (R300, R301): every engine register and all internal state; system memory, the platform and the other
agents' side are unchanged. A command in progress is aborted with no completion. -/
def resetEngine (s : State) : State :=
  { s with
    ctx := State.reset.ctx
    status := State.reset.status
    errInfo := State.reset.errInfo
    ie := State.reset.ie
    blkcnt := State.reset.blkcnt
    desc := State.reset.desc
    cmd := State.reset.cmd
    raced := false }

/-- `n` free bytes, the first of them number `k` (R79). -/
def freeBytes (k n : Nat) : List Byte := (List.range n).map fun i => Config.freeByte (k + i)

/-- A data race on the command in progress (R79): the command is marked, and for a TRANSFORM every byte of its
output range takes any value now; the bytes its later blocks write are free too, and so are the key and the
counter of a marked CONSTRUCT (`transformBlock`, `constructLoad`). -/
def corrupt (s : State) : State :=
  match s.cmd.opk with
  | .idle => s
  | .constructPending => { s with raced := true }
  | .transformPending =>
    { s with
      raced := true
      mem := writeBytes s.mem s.cmd.ldst.toNat (freeBytes s.fresh s.cmd.ln)
      fresh := s.fresh + s.cmd.ln }

/-- A write of `n` bytes at `a` by another agent races with the command in progress (R79, I3). -/
def racesWrite (s : State) (a n : Nat) : Bool :=
  match s.cmd.opk with
  | .idle => false
  | .constructPending => overlaps a n s.cmd.lka.toNat s.cmd.lkl || overlaps a n s.cmd.lca.toNat 16
  | .transformPending =>
    overlaps a n s.cmd.lsrc.toNat s.cmd.ln || overlaps a n s.cmd.ldst.toNat s.cmd.ln

/-- A read of `n` bytes at `a` by another agent races with the command in progress: it touches the output
range (R79). -/
def racesRead (s : State) (a n : Nat) : Bool :=
  match s.cmd.opk with
  | .idle => false
  | .constructPending => false
  | .transformPending => overlaps a n s.cmd.ldst.toNat s.cmd.ln

/-- The state after a request of the engine's own that meets the running commands of other instances for which
`met` holds: with one at least, both sides have met a race (R81). `missed` says that the request is a race
already (R77). -/
def meetOthers (missed : Bool) (met : OtherCommand → Bool) (s : State) : State :=
  if missed || s.others.any met then corrupt (markOthers met s) else s

/-- The platform's answer to the next DMA request (R60, R70). -/
def dmaAdmits (s : State) : Bool := s.dmaAnswers.headD true

/-- The range meets an address with side effects (R72). -/
def touchesDevice (p : Platform) (a n : Nat) : Bool := meetsAny p.devices a n

/-- One DMA request of `n` bytes at `a`: the platform's answer, and the state with that answer taken. -/
def dmaAsk (s : State) (a n : Nat) : Host.Outcome (Bool × State) Fault Refusal :=
  if memSize s.plat < a + n then .fault .dmaOutsideMemory
  else if dmaAdmits s = false then .next (false, { s with dmaAnswers := s.dmaAnswers.tail })
  else if touchesDevice s.plat a n then .refused .dmaToDevice
  else .next (true, { s with dmaAnswers := s.dmaAnswers.tail })

/-- A DMA read of the range may miss a write of the host's (R77, I4). -/
def dmaMisses (s : State) (a n : Nat) : Bool := !s.plat.coherent && s.vis.hostDirty.any (inRange a n)

/-- `MemRead(a, n)` (R13): the bytes, or none where the platform refuses. A read that may miss a host write is a
race (R77), and so is one of a byte that another instance's running command writes (R81). -/
def dmaRead (s : State) (a n : Nat) : Host.Outcome (Option (List Byte) × State) Fault Refusal :=
  andThen (dmaAsk s a n) fun reply =>
    if reply.1 = false then .next (none, reply.2)
    else .next (some (readBytes reply.2.mem a n), meetOthers (dmaMisses reply.2 a n) (metByRead a n) reply.2)

/-- An admitted DMA write (R63): the bytes are stored, and the host has not been promised to see them until it
observes the completion (R78), which then makes them visible whoever wrote the bytes before; an earlier host
write of the same bytes is behind it (R75). How this is kept is the model's choice (assumption 7). -/
def dmaStore (s : State) (a : Nat) (bytes : List Byte) : State :=
  { s with
    mem := writeBytes s.mem a bytes
    vis := { s.vis with
      hostDirty := withoutRange s.vis.hostDirty a bytes.length
      unseen := withRange s.vis.unseen a bytes.length
      stale := withoutRange s.vis.stale a bytes.length } }

/-- `MemWrite(a, n, B)` (R13): whether the platform admitted it; a refused write stores no byte (R70). A write that
another instance's running command reads or writes is a race (R81). -/
def dmaWrite (s : State) (a : Nat) (bytes : List Byte) : Host.Outcome (Bool × State) Fault Refusal :=
  andThen (dmaAsk s a bytes.length) fun reply =>
    if reply.1 = false then .next (false, reply.2)
    else .next (true, meetOthers false (metByWrite a bytes.length) (dmaStore reply.2 a bytes))

end Sys2Proof.Machine
end

