-- ==== Sys2Proof/Machine/Construct.lean ====
section
/-! DEFINITION. CONSTRUCT (spec/40_construct.md): acceptance R120 and the load step R121. -/

namespace Sys2Proof.Machine

/-- A CONSTRUCT that passed its checks: the operands are latched and the engine is BUSY (R120). -/
def latchConstruct (le : Bool) (s : State) : State :=
  { s with cmd := { s.cmd with
      opk := .constructPending
      lka := s.desc.keyAddr
      lkl := s.desc.keyLen.toNat
      lca := s.desc.ctrAddr
      lle := le } }

/-- `CONSTRUCT_accept(w)` (R120). -/
def constructAccept (le kp cp : Bool) (s : State) : State :=
  match constructError kp cp s with
  | some e => complete e s
  | none => latchConstruct le s

/-- CONSTRUCT, the CMD write (R103, R120): the reserved bits are checked before the command's own checks. -/
def execConstruct (le kp cp : Bool) (rsv : BitVec 25) (s : State) : Host.Outcome State Fault Refusal :=
  .next (submit s fun t => if rsv ≠ 0 then complete .reservedBits t else constructAccept le kp cp t)

/-- The loaded context of the load step (R121). -/
def loadContext (key ctr : List Byte) (s : State) : State :=
  { s with ctx :=
      { ctr := blockOf ctr, key := keyStoreOf key, klen := s.cmd.lkl, le := s.cmd.lle, life := .active } }

/-- The load step once both reads are admitted. A raced CONSTRUCT takes free key and counter bytes (R79). -/
def finishLoad (key ctr : List Byte) (s : State) : State :=
  if s.raced then
    complete .ok { loadContext (freeBytes s.fresh s.cmd.lkl) (freeBytes (s.fresh + s.cmd.lkl) 16) s with
      fresh := s.fresh + s.cmd.lkl + 16 }
  else complete .ok (loadContext key ctr s)

/-- `CONSTRUCT_load()` (R121): the key read, then the counter read (R75); a refused read completes with
BUS_ERROR / READ and changes no context state (R122). -/
def constructLoad (s : State) : Host.Outcome State Fault Refusal :=
  andThen (dmaRead s s.cmd.lka.toNat s.cmd.lkl) fun k =>
    match k.1 with
    | none => .next (complete .busRead k.2)
    | some key =>
      andThen (dmaRead k.2 k.2.cmd.lca.toNat 16) fun c =>
        match c.1 with
        | none => .next (complete .busRead c.2)
        | some ctr => .next (finishLoad key ctr c.2)

end Sys2Proof.Machine
end

