-- ==== Sys2Proof/Machine/Release.lean ====
section
/-! DEFINITION. RELEASE (spec/45_release.md R240). -/

namespace Sys2Proof.Machine

/-- Zeroing an ACTIVE context: counter, key, key length and endianness, and the life state DISPOSED (R240,
R243). In any other life state nothing changes (R241). -/
def zeroizeContext (s : State) : State :=
  if s.ctx.life = .active then { s with ctx := Context.zeroed .disposed } else s

/-- RELEASE, the CMD write (R103, R240): it always completes with success once its reserved bits are 0. -/
def execRelease (rsv : BitVec 28) (s : State) : Host.Outcome State Fault Refusal :=
  .next (submit s fun t =>
    if rsv ≠ 0 then complete .reservedBits t else complete .ok (zeroizeContext t))

end Sys2Proof.Machine
end

