-- ==== Sys2Proof/Machine/Reserved.lean ====
section
/-! DEFINITION. The words with a reserved opcode (spec/30_encoding.md R99). -/

namespace Sys2Proof.Machine

/-- A word with a reserved OP, the CMD write (R99, R103): accepted, and completed at once with RESERVED_OPCODE;
no other bit of the word is looked at. -/
def execReservedOp (_op : BitVec 4) (_rest : BitVec 28) (s : State) : Host.Outcome State Fault Refusal :=
  .next (submit s (complete .reservedOpcode))

end Sys2Proof.Machine
end

