-- ==== Sys2Proof/Machine/Transform.lean ====
section
/-! DEFINITION. TRANSFORM (spec/43_transform.md): acceptance R180 and the block step R181. -/

namespace Sys2Proof.Machine

/-- A TRANSFORM of `n > 0` bytes that passed its checks: the operands are latched and the engine is BUSY
(R180). -/
def latchTransform (vec : Bool) (n : Nat) (s : State) : State :=
  { s with cmd := { s.cmd with
      opk := .transformPending
      lsrc := s.desc.srcAddr
      ldst := s.desc.dstAddr
      ln := n
      off := 0
      lvec := vec } }

/-- `TRANSFORM_accept(w)` (R180); a byte count of 0 completes at once (R187). -/
def transformAccept (sp dp np vec : Bool) (s : State) : State :=
  match transformError sp dp np s with
  | some e => complete e s
  | none =>
    if byteCount np s.desc = 0 then complete .ok s else latchTransform vec (byteCount np s.desc).toNat s

/-- TRANSFORM, the CMD write (R103, R180): the reserved bits are checked before the command's own checks. -/
def execTransform (sp dp np vec : Bool) (rsv : BitVec 24) (s : State) : Host.Outcome State Fault Refusal :=
  .next (submit s fun t => if rsv ≠ 0 then complete .reservedBits t else transformAccept sp dp np vec t)

/-- The size of the next block step: 16, or the tail's length (R181). -/
def blockSize (c : Command) : Nat := min Config.blockBytes (c.ln - c.off)

/-- The output bytes of a block step, and the count of free bytes after it: XOR_COMBINE (R182), or free bytes
where the command has met a race (R79). -/
def blockOutput (inp : List Byte) (ks : Block) (s : State) : List Byte × State :=
  if s.raced then (freeBytes s.fresh inp.length, { s with fresh := s.fresh + inp.length })
  else (xorCombine inp ks, s)

/-- The commit of a block step: the counter, BLKCNT and the progress offset (R181, R162). -/
def commitBlock (ctr' : Block) (m : Nat) (s : State) : State :=
  { s with
    ctx := { s.ctx with ctr := ctr' }
    blkcnt := s.blkcnt + 1
    cmd := { s.cmd with off := s.cmd.off + m } }

/-- The end of a block step whose write was admitted: the commit, and the completion after the last block. -/
def finishBlock (ctr' : Block) (m : Nat) (s : State) : State :=
  if s.cmd.off + m = s.cmd.ln then complete .ok (commitBlock ctr' m s) else commitBlock ctr' m s

/-- The write half of the block step, from the admitted input bytes on (R181). -/
def blockWrite (inp : List Byte) (s : State) : Host.Outcome State Fault Refusal :=
  let next := nextBlock s.ctx
  let out := blockOutput inp next.1 s
  andThen (dmaWrite out.2 (out.2.cmd.ldst.toNat + out.2.cmd.off) out.1) fun w =>
    if w.1 = false then .next (complete .busWrite w.2) else .next (finishBlock next.2 inp.length w.2)

/-- `TRANSFORM_block()` (R181): input read, NEXT_BLOCK, XOR_COMBINE, output write, commit. A refused request
completes with BUS_ERROR and nothing of the block commits (R270). -/
def transformBlock (s : State) : Host.Outcome State Fault Refusal :=
  if s.ctx.life ≠ .active then .fault .blockStepWithoutContext
  else if s.cmd.ln ≤ s.cmd.off then .fault .blockStepPastEnd
  else
    andThen (dmaRead s (s.cmd.lsrc.toNat + s.cmd.off) (blockSize s.cmd)) fun r =>
      match r.1 with
      | none => .next (complete .busRead r.2)
      | some inp => blockWrite inp r.2

end Sys2Proof.Machine
end

