-- ==== Sys2Proof/Machine/Dispatch.lean ====
section
/-! DEFINITION. The meaning of each command word: what the host's write of it to CMD does in that one atomic
step (spec/30_encoding.md R103). -/

namespace Sys2Proof.Machine

def exec (i : Instr) (s : State) : Host.Outcome State Fault Refusal :=
  match i with
  | .construct le kp cp rsv => Sys2Proof.Machine.execConstruct le kp cp rsv s
  | .transform sp dp np vec rsv => Sys2Proof.Machine.execTransform sp dp np vec rsv s
  | .release rsv => Sys2Proof.Machine.execRelease rsv s
  | .reservedOp op rest => Sys2Proof.Machine.execReservedOp op rest s

end Sys2Proof.Machine
end

