-- ==== Sys2Proof/Machine/Registers.lean ====
section
/-! DEFINITION. The register window (spec/10_state.md R26 to R48): the offsets, what a read returns and what a
write other than one to CMD does. -/

namespace Sys2Proof.Machine

/-- The registers of the window (R26). -/
inductive Reg where
  | cmd | status | errInfo | ctrl | blkcnt
  | keyAddr | keyLen | ctrAddr | ctrLen | srcAddr | srcLen | dstAddr | dstCap | nbytes
  | reserved
  deriving DecidableEq, Repr

/-- The register at an offset of the window (R26). -/
def regAt : Nat → Reg
  | 0x00 => .cmd
  | 0x04 => .status
  | 0x08 => .errInfo
  | 0x0C => .ctrl
  | 0x10 => .blkcnt
  | 0x20 => .keyAddr
  | 0x24 => .keyLen
  | 0x28 => .ctrAddr
  | 0x2C => .ctrLen
  | 0x30 => .srcAddr
  | 0x34 => .srcLen
  | 0x38 => .dstAddr
  | 0x3C => .dstCap
  | 0x40 => .nbytes
  | _ => .reserved

/-- What a register reads as (R27 to R47). -/
def readReg (s : State) : Reg → Word
  | .cmd => 0
  | .status => statusWord s
  | .errInfo => errInfoWord s.errInfo
  | .ctrl => (0 : BitVec 31) ++ BitVec.ofBool s.ie
  | .blkcnt => s.blkcnt
  | .keyAddr => s.desc.keyAddr
  | .keyLen => s.desc.keyLen
  | .ctrAddr => s.desc.ctrAddr
  | .ctrLen => s.desc.ctrLen
  | .srcAddr => s.desc.srcAddr
  | .srcLen => s.desc.srcLen
  | .dstAddr => s.desc.dstAddr
  | .dstCap => s.desc.dstCap
  | .nbytes => s.desc.nbytes
  | .reserved => 0

/-- What a write of `v` to a register other than CMD does (R27, R35 to R48); a write to CMD submits a command
and is no store (R28, `hostRegWrite`). -/
def writeReg (s : State) (r : Reg) (v : Word) : State :=
  match r with
  | .cmd => s
  | .status => { s with status := statusAfterWrite s.status v }
  | .errInfo => s
  | .ctrl => { s with ie := v.getLsbD 0 }
  | .blkcnt => s
  | .keyAddr => { s with desc := { s.desc with keyAddr := v } }
  | .keyLen => { s with desc := { s.desc with keyLen := v } }
  | .ctrAddr => { s with desc := { s.desc with ctrAddr := v } }
  | .ctrLen => { s with desc := { s.desc with ctrLen := v } }
  | .srcAddr => { s with desc := { s.desc with srcAddr := v } }
  | .srcLen => { s with desc := { s.desc with srcLen := v } }
  | .dstAddr => { s with desc := { s.desc with dstAddr := v } }
  | .dstCap => { s with desc := { s.desc with dstCap := v } }
  | .nbytes => { s with desc := { s.desc with nbytes := v } }
  | .reserved => s

/-- The window's size in bytes (R26). -/
def windowBytes : Nat := 256

/-- The register a bus access names, or why it has no meaning: the access must lie in the window (R26) and be
32 bits wide at an offset that is a multiple of 4 (R68). -/
def windowReg (p : Platform) (addr : Nat) (width : AccessWidth) : Except Refusal Reg :=
  if addr < p.regBase ∨ p.regBase + windowBytes ≤ addr then .error .outsideWindow
  else if width ≠ .w32 ∨ (addr - p.regBase) % 4 ≠ 0 then .error .badWindowAccess
  else .ok (regAt (addr - p.regBase))

end Sys2Proof.Machine
end

