-- ==== Sys2Proof/Machine/Bus.lean ====
section
/-! DEFINITION. The steps of the agents (spec/00_scope.md R14, 70_reset_and_hazards.md R314): the host's register
accesses, the memory accesses of the host and of other masters, cache maintenance, the commands of other
instances (20_memory.md R81), the engine's turn and reset. -/

namespace Sys2Proof.Machine

/-- A host register write (R26, R28): a write to CMD runs the command word, any other stores. -/
def hostRegWrite (addr : Nat) (width : AccessWidth) (v : Word) (s : State) :
    Host.Outcome State Fault Refusal :=
  match windowReg s.plat addr width with
  | .error r => .refused r
  | .ok .cmd => exec (decode v) s
  | .ok r => .next (writeReg s r v)

/-- The host has seen DONE = 1 or BUSY = 0, its acquire point (R78): the engine's writes are visible at once on a
coherent platform, and after the host's own maintenance on any other. -/
def observeStatus (s : State) : State :=
  if s.status.done = false ∧ busy s = true then s
  else if s.plat.coherent then { s with vis := { s.vis with unseen := [] } }
  else { s with vis := { s.vis with
      unseen := []
      stale := s.vis.unseen ++ s.vis.stale.filter (fun a => !s.vis.unseen.contains a) } }

/-- A host register read (R26): the value goes to the host; the engine's state is unchanged (R72). -/
def hostRegRead (addr : Nat) (width : AccessWidth) (s : State) : Host.Outcome State Fault Refusal :=
  match windowReg s.plat addr width with
  | .error r => .refused r
  | .ok .status => .next (observeStatus { s with busWord := readReg s .status })
  | .ok r => .next { s with busWord := readReg s r }

/-- What a memory write by another agent than the engine leaves to be seen: the host's must be made visible to
a DMA port that is not coherent (R77). DESIGN CHOICE (assumption 7), where the spec is silent: another master's
write is nothing the host has been promised to see, and is visible to DMA at once, coherent or not; and a byte
that is hidden from the host stays hidden over the host's own write of it. -/
def visAfterWrite (by_ : Master) (a n : Nat) (s : State) : Visibility :=
  match by_ with
  | .host =>
    if s.plat.coherent then s.vis else { s.vis with hostDirty := withRange s.vis.hostDirty a n }
  | .other _ => { s.vis with stale := withRange s.vis.stale a n }

/-- A memory write by the host or another master (R14); while a command runs, of this engine or of another instance,
a write to its ranges is a race (R79, R81, I3). DESIGN CHOICE (assumption 11): R72 speaks of the engine's DMA only,
and a write of another agent to an address with side effects is stored as one to ordinary memory; and R60 leaves it
to the platform which addresses exist and are accessible, and for another agent's own access all of memory is. -/
def busMemWrite (by_ : Master) (a : Nat) (bytes : List Byte) (s : State) :
    Host.Outcome State Fault Refusal :=
  if memSize s.plat < a + bytes.length then .fault .busOutsideMemory
  else
    let t := raceOthers by_ (metByWrite a bytes.length) (racesWrite s a bytes.length)
      { s with mem := writeBytes s.mem a bytes, vis := visAfterWrite by_ a bytes.length s }
    .next (if racesWrite s a bytes.length then corrupt t else t)

/-- The host has not been promised to see the byte at `a` (R78). -/
def hiddenFromHost (v : Visibility) (a : Nat) : Bool := v.unseen.contains a || v.stale.contains a

/-- What a memory read by the host returns, byte by byte: the byte stored, or a free byte where the read races
(R79), with this engine's command or with another instance's (R81), or the host has not been promised to see the
byte (R78). -/
def hostReadBytes (a n : Nat) (s : State) : List Byte :=
  (List.range n).map fun i =>
    if racesRead s a n || s.others.any (metByRead a n) || hiddenFromHost s.vis (a + i) then
      Config.freeByte (s.fresh + i)
    else readByte s.mem (a + i)

/-- A memory read by the host or another master (R14); while a TRANSFORM runs, of this engine or of another instance,
a read of its output range is a race (R79, R81, I3). What another master reads goes to that master. DESIGN CHOICE
(assumption 11): a read of an address with side effects is one of ordinary memory, and every address of memory exists
and is accessible, as in `busMemWrite`. -/
def busMemRead (by_ : Master) (a n : Nat) (s : State) : Host.Outcome State Fault Refusal :=
  if memSize s.plat < a + n then .fault .busOutsideMemory
  else
    let t := match by_ with
      | .host => { s with busBytes := hostReadBytes a n s, fresh := s.fresh + n }
      | .other _ => s
    let u := raceOthers by_ (metByRead a n) (racesRead s a n) t
    .next (if racesRead s a n then corrupt u else u)

/-- The host's cache maintenance of a range (R77, R78): its earlier writes there are visible to DMA, and its
later reads there see memory. DESIGN CHOICE (assumption 7): R77 asks for it before the CMD write and says nothing of
one made later; while BUSY too it makes the writes visible to the running command's DMA reads that follow it, and
is no race. -/
def maintainRange (a n : Nat) (s : State) : State :=
  { s with vis := { s.vis with
      hostDirty := withoutRange s.vis.hostDirty a n
      stale := withoutRange s.vis.stale a n } }

/-- Another instance accepts a command, where the platform has that instance (R9, R282, assumption 10). One whose
ranges leave memory fails its own checks, and one submitted while the instance is BUSY is dropped (R104, R120,
R180): neither runs. -/
def beginOther (id : Nat) (reads writes : List Span) (s : State) : State :=
  if s.plat.nEngines ≤ id + 1 then s
  else if (reads ++ writes).any (fun d => decide (memSize s.plat < d.base + d.len)) then s
  else if s.others.any (fun o => o.id == id) then s
  else { s with others := { id := id, reads := reads, writes := writes, raced := false } :: s.others }

/-- Every byte of the ranges takes any value (R79), which the host has not been promised to see. -/
def freeRanges : List Span → State → State
  | [], s => s
  | d :: rest, s => freeRanges rest { s with
      mem := writeBytes s.mem d.base (freeBytes s.fresh d.len)
      fresh := s.fresh + d.len
      vis := { s.vis with stale := withRange s.vis.stale d.base d.len } }

/-- Another instance's command completes. Where it has met a race, every byte of its output ranges holds any value
after that (R79, R81). -/
def endOther (id : Nat) (s : State) : State :=
  freeRanges ((s.others.filter fun o => o.id == id && o.raced).flatMap OtherCommand.writes)
    { s with others := s.others.filter fun o => o.id != id }

/-- The engine's enabled step (R14, R121, R181); it has none while idle (R284, R302). -/
def engineStep (s : State) : Host.Outcome State Fault Refusal :=
  match s.cmd.opk with
  | .idle => .next s
  | .constructPending => constructLoad s
  | .transformPending => transformBlock s

/-- One event (R14, R314). -/
def deliver (e : Event) (s : State) : Host.Outcome State Fault Refusal :=
  match e with
  | .regWrite addr width v => hostRegWrite addr width v s
  | .regRead addr width => hostRegRead addr width s
  | .memWrite by_ a bytes => busMemWrite by_ a bytes s
  | .memRead by_ a n => busMemRead by_ a n s
  | .maintain a n => .next (maintainRange a n s)
  | .otherBegins id reads writes => .next (beginOther id reads writes s)
  | .otherEnds id => .next (endOther id s)
  | .engineTurn => engineStep s
  | .reset => .next (resetEngine s)

end Sys2Proof.Machine
end

