-- ==== Sys2Proof/Machine/Step.lean ====
section
/-! DEFINITION. One step of the machine (spec/00_scope.md R14, 70_reset_and_hazards.md R313): the next event of the
other agents, or, where none is left, the engine's own step. -/

namespace Sys2Proof.Machine

/-- One atomic step. With no event left, the engine takes its enabled step (weak fairness, R313), and an idle
engine waits (R302). -/
def step (s : State) : Host.Outcome State Fault Refusal :=
  match s.events with
  | [] => engineStep s
  | e :: rest => deliver e { s with events := rest }

/-- The state whose next step runs the command word `w`: the engine fetches nothing (R84), so the host's write
of the word to CMD is its next event (R28). -/
def State.withFetchWord (s : State) (nbits w : Nat) : State :=
  { s with events :=
      .regWrite s.plat.regBase .w32 (BitVec.ofNat 32 (w % 2 ^ nbits)) :: s.events }

end Sys2Proof.Machine
end

