-- ==== Sys2Proof/Safety.lean ====
section
/-! DEFINITION. The terms the claims are stated in: the machine's invariant (spec/10_state.md R25, R38, R49,
60_exceptions.md R262), the state in which nothing disturbs the engine, and the results of a command as the
spec writes them (43_transform.md R189). -/

namespace Sys2Proof.Machine

/-- R22 and R25: a context that is not ACTIVE is all zero, an ACTIVE one has a key length, and the key store is
zero past it. -/
structure ContextOk (c : Context) : Prop where
  activeKey : c.life = .active → keyLengthOk c.klen = true
  inactiveZero : c.life ≠ .active → c = Context.zeroed c.life
  keyTail : ∀ i : Fin 32, c.klen ≤ i.val → c.key[i] = 0

/-- R30, R31 and R36 while a command is in progress: the outcome of the last one is cleared. -/
def outcomeClear (s : State) : Bool :=
  !s.status.done && !s.status.err && s.errInfo == { cls := 0, sub := 0 }

/-- R49 for a pending CONSTRUCT: what its acceptance checked still holds of the latched operands. -/
structure LoadOk (s : State) : Prop where
  life : s.ctx.life ≠ .active
  keyLength : keyLengthOk s.cmd.lkl = true
  keyRange : s.cmd.lka.toNat + s.cmd.lkl ≤ memSize s.plat
  ctrRange : s.cmd.lca.toNat + 16 ≤ memSize s.plat
  noBlocks : s.blkcnt = 0
  clear : outcomeClear s = true

/-- R38, R49 and R50 for a pending TRANSFORM: every committed block had 16 bytes, and one more byte at least is
left. -/
structure BlocksOk (s : State) : Prop where
  life : s.ctx.life = .active
  left : s.cmd.off < s.cmd.ln
  bound : s.cmd.ln < 2 ^ 32
  blocks : s.cmd.off = 16 * s.blkcnt.toNat
  srcRange : s.cmd.lsrc.toNat + s.cmd.ln ≤ memSize s.plat
  dstRange : s.cmd.ldst.toNat + s.cmd.ln ≤ memSize s.plat
  clear : outcomeClear s = true

/-- The invariant of the machine; every step keeps it. -/
structure MachineInv (s : State) : Prop where
  /-- ADDR_W is 1 to 32, and N_ENGINES is 1 or more (R9). -/
  platform : 1 ≤ s.plat.addrW ∧ s.plat.addrW ≤ 32 ∧ 1 ≤ s.plat.nEngines
  /-- Memory is in canonical form and holds existing addresses only (R60). -/
  memory : Memory.wf s.mem = true ∧ Memory.below (memSize s.plat) s.mem = true
  context : ContextOk s.ctx
  /-- ERRINFO holds a defined class and sub-code (R262, I14). -/
  report : ∃ c : Completion, s.errInfo = c.code
  /-- ERR is never set with class 0 (R31). -/
  errClass : s.status.err = true → s.errInfo.cls ≠ 0
  /-- BLKCNT never wraps (R38). -/
  blocks : s.blkcnt.toNat ≤ 2 ^ 28
  idle : s.cmd.opk = .idle → s.raced = false
  load : s.cmd.opk = .constructPending → LoadOk s
  transform : s.cmd.opk = .transformPending → BlocksOk s
  /-- Another instance's command writes existing addresses only (R81, R95). -/
  others : ∀ o ∈ s.others, ∀ d ∈ o.writes, d.base + d.len ≤ memSize s.plat
  /-- Commands run on instances the platform has, and each instance runs one at a time (R9, R80, R282). -/
  instances : (∀ id ∈ s.others.map OtherCommand.id, id + 1 < s.plat.nEngines) ∧
    (s.others.map OtherCommand.id).Nodup

/-- Nothing disturbs the engine: no other agent moves and no other instance runs a command, the platform admits
every request to ordinary memory, no race has happened and DMA sees every host write (R70, R72, R77, R79, R81). -/
structure Undisturbed (s : State) : Prop where
  noEvents : s.events = []
  admitted : ∀ b ∈ s.dmaAnswers, b = true
  noDevices : s.plat.devices = []
  notRaced : s.raced = false
  seen : s.plat.coherent = true ∨ s.vis.hostDirty = []
  alone : s.others = []

/-- The commands that other instances run have no byte in common with this engine's command, but bytes that both
only read (R81). -/
abbrev OthersApart (s : State) : Prop :=
  ∀ o ∈ s.others,
    (s.cmd.opk = .constructPending →
      metByRead s.cmd.lka.toNat s.cmd.lkl o = false ∧ metByRead s.cmd.lca.toNat 16 o = false) ∧
    (s.cmd.opk = .transformPending →
      metByRead s.cmd.lsrc.toNat s.cmd.ln o = false ∧ metByWrite s.cmd.ldst.toNat s.cmd.ln o = false)

/-- The state after a command that completes at acceptance with this class and sub-code and changes nothing else
(R103, R261, R269); the model's race mark is clear with it (assumption 8). -/
def reportedAtOnce (s : State) (cls sub : BitVec 4) : State :=
  { s with
    status := { done := true, err := cls != 0, overrun := s.status.overrun }
    errInfo := { cls := cls, sub := sub }
    blkcnt := 0
    raced := false }

/-- The state after an acceptance that leaves the command pending, the latched operands apart (R103); the model's
race mark is clear with it (assumption 8). -/
def acceptedPending (s : State) (latched : Command) : State :=
  { s with
    status := { done := false, err := false, overrun := s.status.overrun }
    errInfo := { cls := 0, sub := 0 }
    blkcnt := 0
    raced := false
    cmd := latched }

/-- The state after a command in progress completes with this class and sub-code (R261); the model's race mark is
clear with it (assumption 8). -/
def completedWith (s : State) (cls sub : BitVec 4) : State :=
  { s with
    cmd := { s.cmd with opk := .idle }
    status := { done := true, err := cls != 0, overrun := s.status.overrun }
    errInfo := { cls := cls, sub := sub }
    raced := false }

/-- `ceil(n / 16)`: the block steps of a TRANSFORM of `n` bytes (R183). -/
def blockCount (n : Nat) : Nat := (n + 15) / 16

/-- `KS_{N+1+j}` for the counter a context holds after `N` blocks (R161): the keystream block `j` blocks on. -/
def keystreamBlock (ctx : Context) (j : Nat) : Block :=
  Config.blockEncrypt (keyBytes ctx) (ctrBytes ((ctrInt ctx.ctr ctx.le + j) % 2 ^ 128) ctx.le)

/-- The keystream byte that R189 combines with input byte `p`. -/
def keystreamByte (ctx : Context) (p : Nat) : Byte := (keystreamBlock ctx (p / 16)).toList.getD (p % 16) 0

/-- Memory after the blocks `j`, `j + 1`, ... of a TRANSFORM, `k` of them, each read after the write before it
(R75, R76, R189). -/
def memAfterBlocks (ctx : Context) (src dst n : Nat) : Nat → Nat → Memory → Memory
  | 0, _, m => m
  | k + 1, j, m =>
    memAfterBlocks ctx src dst n k (j + 1)
      (writeBytes m (dst + 16 * j)
        (List.zipWith (· ^^^ ·) (readBytes m (src + 16 * j) (min 16 (n - 16 * j)))
          (keystreamBlock ctx j).toList))

/-- The engine steps a pending command has left when no request is refused (R312). -/
def stepsLeft (s : State) : Nat :=
  match s.cmd.opk with
  | .idle => 0
  | .constructPending => 1
  | .transformPending => blockCount (s.cmd.ln - s.cmd.off)

/-- The two states agree but for the vector-path hint `st.LVEC` (R185). -/
def sameButVec (s t : State) : Prop :=
  { s with cmd := { s.cmd with lvec := false } } = { t with cmd := { t.cmd with lvec := false } }

/-- The two states agree but for the counter and the key (R21). -/
def sameButSecrets (s t : State) : Prop :=
  { s with ctx := { s.ctx with ctr := Vector.replicate 16 0, key := Vector.replicate 32 0 } } =
    { t with ctx := { t.ctx with ctr := Vector.replicate 16 0, key := Vector.replicate 32 0 } }

end Sys2Proof.Machine
end

