-- ==== Sys2Proof/Certificates/Slice0/Obligations.lean ====
section
/-! DEFINITION. The statements about the machine, each from the spec's rules; nothing is proved here. -/

open Sys2Proof Sys2Proof.Machine

/-! ### Encoding -/

/-- R91, R92, R93, R99, R106: the words of the spec's table of spellings, and two reserved ones. -/
def Obligations.SpelledWordsDecodeAsTheSpecSays : Prop :=
  decode 0x00000061 = .construct false true true 0 ∧
  decode 0x00000071 = .construct true true true 0 ∧
  decode 0x00000041 = .construct false false true 0 ∧
  decode 0x00000021 = .construct false true false 0 ∧
  decode 0x00000001 = .construct false false false 0 ∧
  decode 0x00000072 = .transform true true true false 0 ∧
  decode 0x00000032 = .transform true true false false 0 ∧
  decode 0x000000F2 = .transform true true true true 0 ∧
  decode 0x000000B2 = .transform true true false true 0 ∧
  decode 0x00000052 = .transform true false true false 0 ∧
  decode 0x00000062 = .transform false true true false 0 ∧
  decode 0x00000042 = .transform false false true false 0 ∧
  decode 0x00000003 = .release 0 ∧
  decode 0x00000000 = .reservedOp 0 0 ∧
  decode 0x00000004 = .reservedOp 4 0 ∧
  decode 0xFFFFFFFF = .reservedOp 15 0xFFFFFFF

/-- R90 to R93, R98, R99: every instruction that stands for a word is read back from it, and every word is the
word of the instruction it decodes to. -/
def Obligations.DecodeAndEncodeAreInverse : Prop :=
  (∀ i : Instr, i.encodable = true → decode (encode i) = i) ∧
  (∀ w : Word, (decode w).encodable = true ∧ encode (decode w) = w)

/-- R98: the match and mask columns say which words spell a command, no two rows match one word, and a word no
row matches is illegal: an idle engine reports ILLEGAL_COMMAND. -/
def Obligations.OpcodeMapRowsMatchAndAreDisjoint : Prop :=
  ∀ w : Word,
    (w &&& 0xFFFFFF8F = 0x00000001 ↔ ∃ le kp cp, decode w = .construct le kp cp 0) ∧
    (w &&& 0xFFFFFF0F = 0x00000002 ↔ ∃ sp dp np vec, decode w = .transform sp dp np vec 0) ∧
    (w &&& 0xFFFFFFFF = 0x00000003 ↔ decode w = .release 0) ∧
    ¬(w &&& 0xFFFFFF8F = 0x00000001 ∧ w &&& 0xFFFFFF0F = 0x00000002) ∧
    ¬(w &&& 0xFFFFFF8F = 0x00000001 ∧ w &&& 0xFFFFFFFF = 0x00000003) ∧
    ¬(w &&& 0xFFFFFF0F = 0x00000002 ∧ w &&& 0xFFFFFFFF = 0x00000003) ∧
    (w &&& 0xFFFFFF8F ≠ 0x00000001 → w &&& 0xFFFFFF0F ≠ 0x00000002 → w &&& 0xFFFFFFFF ≠ 0x00000003 →
      ∀ s : State, s.cmd.opk = .idle → ∃ t, exec (decode w) s = .next t ∧ t.errInfo.cls = 5)

/-! ### Acceptance -/

/-- R28, R84, R103: the host's write of a word to CMD runs the decoded word, in that step, with the write taken
from the coming events; and `withFetchWord`, the model's own, places such a write (assumption 5). -/
def Obligations.WriteToCmdRunsTheDecodedWord : Prop :=
  (∀ (s : State) (w : Word) (rest : List Event),
    s.events = .regWrite s.plat.regBase .w32 w :: rest →
    step s = exec (decode w) { s with events := rest }) ∧
  (∀ (s : State) (w : Word), step (s.withFetchWord 32 w.toNat) = exec (decode w) s)

/-- R104: a word written while BUSY is dropped, whatever it is: OVERRUN is set and nothing else changes. -/
def Obligations.BusyEngineDropsEveryWord : Prop :=
  ∀ (i : Instr) (s : State), s.cmd.opk ≠ .idle →
    exec i s = .next { s with status := { s.status with overrun := true } }

/-- R99: a reserved OP completes at once with ILLEGAL_COMMAND / RESERVED_OPCODE, whatever the other bits are. -/
def Obligations.ReservedOpcodeCompletesAtOnce : Prop :=
  ∀ (op : BitVec 4) (rest : BitVec 28) (s : State), (op = 0 ∨ 4 ≤ op.toNat) → s.cmd.opk = .idle →
    exec (decode (rest ++ op)) s = .next (reportedAtOnce s 5 1) ∧
    exec (.reservedOp op rest) s = .next (reportedAtOnce s 5 1)

/-- R100: a word with a defined OP and a nonzero reserved bit completes at once with ILLEGAL_COMMAND /
RESERVED_BITS, before any check of the command's own; where the OP is reserved, RESERVED_OPCODE comes first. -/
def Obligations.ReservedBitsCompleteAtOnce : Prop :=
  ∀ (w : Word) (s : State), s.cmd.opk = .idle →
    (w.extractLsb' 0 4 = 1 → w.extractLsb' 7 25 ≠ 0 → exec (decode w) s = .next (reportedAtOnce s 5 2)) ∧
    (w.extractLsb' 0 4 = 2 → w.extractLsb' 8 24 ≠ 0 → exec (decode w) s = .next (reportedAtOnce s 5 2)) ∧
    (w.extractLsb' 0 4 = 3 → w.extractLsb' 4 28 ≠ 0 → exec (decode w) s = .next (reportedAtOnce s 5 2)) ∧
    (w.extractLsb' 0 4 = 0 ∨ 4 ≤ (w.extractLsb' 0 4).toNat →
      exec (decode w) s = .next (reportedAtOnce s 5 1))

/-- R103, R244, R245, R269: what a command word leaves unchanged, for every word: memory, the descriptor
registers, CTRL, the platform and the other agents' side; the context but for RELEASE; the latched operands
but for the command that latches them; and OVERRUN but for a drop. How the other agents' side is held is the model's
(assumptions 3, 5 to 8 and 10). -/
def Obligations.CommandWordsFrame : Prop :=
  ∀ (i : Instr) (s t : State), exec i s = .next t →
    t.mem = s.mem ∧ t.desc = s.desc ∧ t.ie = s.ie ∧ t.plat = s.plat ∧ t.dmaAnswers = s.dmaAnswers ∧
    t.events = s.events ∧ t.vis = s.vis ∧ t.others = s.others ∧ t.busWord = s.busWord ∧
    t.busBytes = s.busBytes ∧
    t.fresh = s.fresh ∧
    ((∀ rsv, i ≠ .release rsv) → t.ctx = s.ctx) ∧
    (t.cmd.opk = s.cmd.opk → t.cmd = s.cmd) ∧
    (s.cmd.opk = .idle → t.status.overrun = s.status.overrun)

/-! ### CONSTRUCT -/

/-- R120: CONSTRUCT's acceptance for every word that spells it: its checks in the spec's order, the codes of
each, and what a pass latches. -/
def Obligations.ConstructAcceptanceChecksInOrder : Prop :=
  ∀ (w : Word) (s : State), w &&& 0xFFFFFF8F = 0x00000001 → s.cmd.opk = .idle →
    decode w = .construct (w.getLsbD 4) (w.getLsbD 5) (w.getLsbD 6) 0 ∧
    exec (decode w) s = .next (
      if s.ctx.life = .active then reportedAtOnce s 4 1
      else if w.getLsbD 5 = false then reportedAtOnce s 1 1
      else if ¬(s.desc.keyLen.toNat = 16 ∨ s.desc.keyLen.toNat = 24 ∨ s.desc.keyLen.toNat = 32) then
        reportedAtOnce s 1 2
      else if w.getLsbD 6 = false then reportedAtOnce s 1 3
      else if s.desc.ctrLen.toNat ≠ 16 then reportedAtOnce s 1 4
      else if s.desc.keyAddr.toNat + s.desc.keyLen.toNat > 2 ^ s.plat.addrW then reportedAtOnce s 1 5
      else if s.desc.ctrAddr.toNat + 16 > 2 ^ s.plat.addrW then reportedAtOnce s 1 6
      else acceptedPending s { s.cmd with
        opk := .constructPending, lka := s.desc.keyAddr, lkl := s.desc.keyLen.toNat,
        lca := s.desc.ctrAddr, lle := w.getLsbD 4 })

/-- R120, R121, R126, R128: from NONE and from DISPOSED, a CONSTRUCT whose checks pass is accepted, and the next
engine step makes an ACTIVE context of the key and counter bytes in memory, with no block generated. -/
def Obligations.ConstructMakesAnActiveContext : Prop :=
  ∀ (le : Bool) (s : State), Undisturbed s → s.cmd.opk = .idle → s.ctx.life ≠ .active →
    (s.desc.keyLen.toNat = 16 ∨ s.desc.keyLen.toNat = 24 ∨ s.desc.keyLen.toNat = 32) →
    s.desc.ctrLen.toNat = 16 →
    s.desc.keyAddr.toNat + s.desc.keyLen.toNat ≤ 2 ^ s.plat.addrW →
    s.desc.ctrAddr.toNat + 16 ≤ 2 ^ s.plat.addrW →
    ∃ t u, exec (.construct le true true 0) s = .next t ∧ busy t = true ∧ step t = .next u ∧
      u.ctx = {
        ctr := Vector.ofFn fun i => readByte s.mem (s.desc.ctrAddr.toNat + i.val)
        key := Vector.ofFn fun i =>
          if i.val < s.desc.keyLen.toNat then readByte s.mem (s.desc.keyAddr.toNat + i.val) else 0
        klen := s.desc.keyLen.toNat
        le := le
        life := .active } ∧
      u.status = { done := true, err := false, overrun := s.status.overrun } ∧
      u.errInfo = { cls := 0, sub := 0 } ∧ u.blkcnt = 0 ∧ u.cmd.opk = .idle ∧
      u.mem = s.mem ∧ u.desc = s.desc ∧ u.ie = s.ie

/-- R121: the load step, for either answer of the platform to each of its two reads: the key read first, a
refusal ends it with BUS_ERROR / READ, and only both reads admitted load the context. Other instances' commands may
run beside it on other bytes (R81). The list of the platform's answers is the model's (assumption 3). -/
def Obligations.LoadStepFollowsThePlatformsAnswers : Prop :=
  ∀ s : State, s.cmd.opk = .constructPending → s.plat.devices = [] → s.raced = false → OthersApart s →
    (s.plat.coherent = true ∨ s.vis.hostDirty = []) →
    s.cmd.lkl ≤ 32 →
    s.cmd.lka.toNat + s.cmd.lkl ≤ 2 ^ s.plat.addrW → s.cmd.lca.toNat + 16 ≤ 2 ^ s.plat.addrW →
    engineStep s = .next (
      if s.dmaAnswers.headD true = false then
        completedWith { s with dmaAnswers := s.dmaAnswers.drop 1 } 3 1
      else if (s.dmaAnswers.drop 1).headD true = false then
        completedWith { s with dmaAnswers := s.dmaAnswers.drop 2 } 3 1
      else completedWith { s with
        dmaAnswers := s.dmaAnswers.drop 2
        ctx := {
          ctr := Vector.ofFn fun i => readByte s.mem (s.cmd.lca.toNat + i.val)
          key := Vector.ofFn fun i =>
            if i.val < s.cmd.lkl then readByte s.mem (s.cmd.lka.toNat + i.val) else 0
          klen := s.cmd.lkl
          le := s.cmd.lle
          life := .active } } 0 0)

/-- R122: a CONSTRUCT that ends in an error, at acceptance or at its load step, leaves the context, memory, the
descriptor registers and CTRL as they were, and BLKCNT 0. -/
def Obligations.FailedConstructKeepsTheContext : Prop :=
  (∀ (le kp cp : Bool) (rsv : BitVec 25) (s t : State), s.cmd.opk = .idle →
    exec (.construct le kp cp rsv) s = .next t → t.status.err = true →
    t.ctx = s.ctx ∧ t.mem = s.mem ∧ t.desc = s.desc ∧ t.ie = s.ie ∧ t.cmd = s.cmd ∧ t.blkcnt = 0) ∧
  (∀ s t : State, MachineInv s → s.cmd.opk = .constructPending → engineStep s = .next t →
    t.status.err = true → t.ctx = s.ctx ∧ t.mem = s.mem ∧ t.desc = s.desc ∧ t.ie = s.ie ∧ t.blkcnt = 0)

/-! ### TRANSFORM -/

/-- R180: TRANSFORM's acceptance for every word that spells it: its checks in the spec's order, the codes of
each, the empty transform, and what a pass latches. -/
def Obligations.TransformAcceptanceChecksInOrder : Prop :=
  ∀ (w : Word) (s : State) (n : Int), w &&& 0xFFFFFF0F = 0x00000002 → s.cmd.opk = .idle →
    n = (if w.getLsbD 6 then s.desc.nbytes.toInt else (s.desc.srcLen.toNat : Int)) →
    decode w = .transform (w.getLsbD 4) (w.getLsbD 5) (w.getLsbD 6) (w.getLsbD 7) 0 ∧
    exec (decode w) s = .next (
      if s.ctx.life = .disposed then reportedAtOnce s 2 1
      else if s.ctx.life = .none then reportedAtOnce s 2 2
      else if w.getLsbD 4 = false then reportedAtOnce s 1 8
      else if w.getLsbD 5 = false then reportedAtOnce s 1 9
      else if n < 0 ∨ n > s.desc.srcLen.toNat then reportedAtOnce s 1 10
      else if (s.desc.dstCap.toNat : Int) < n then reportedAtOnce s 1 11
      else if s.desc.srcAddr.toNat + s.desc.srcLen.toNat > 2 ^ s.plat.addrW then reportedAtOnce s 1 12
      else if s.desc.dstAddr.toNat + s.desc.dstCap.toNat > 2 ^ s.plat.addrW then reportedAtOnce s 1 13
      else if n = 0 then reportedAtOnce s 0 0
      else acceptedPending s { s.cmd with
        opk := .transformPending, lsrc := s.desc.srcAddr, ldst := s.desc.dstAddr, ln := n.toNat,
        off := 0, lvec := w.getLsbD 7 })

/-- R187: a TRANSFORM of 0 bytes that passes every check completes at acceptance with success; nothing but the
report changes, so no request is made, no block generated and the counter stands. -/
def Obligations.EmptyTransformCompletesAtAcceptance : Prop :=
  ∀ (np vec : Bool) (s : State), s.cmd.opk = .idle → s.ctx.life = .active →
    (if np then s.desc.nbytes.toInt else (s.desc.srcLen.toNat : Int)) = 0 →
    s.desc.srcAddr.toNat + s.desc.srcLen.toNat ≤ 2 ^ s.plat.addrW →
    s.desc.dstAddr.toNat + s.desc.dstCap.toNat ≤ 2 ^ s.plat.addrW →
    exec (.transform true true np vec 0) s = .next (reportedAtOnce s 0 0)

/-- R264, R242: a TRANSFORM with no ACTIVE context fails with DISPOSED_STATE, RELEASED or NO_CONTEXT, whatever
its arguments are, and ERRINFO then reads 0x12 or 0x22. -/
def Obligations.TransformWithoutContextFails : Prop :=
  ∀ (sp dp np vec : Bool) (s : State), s.cmd.opk = .idle →
    (s.ctx.life = .disposed → exec (.transform sp dp np vec 0) s = .next (reportedAtOnce s 2 1)) ∧
    (s.ctx.life = .none → exec (.transform sp dp np vec 0) s = .next (reportedAtOnce s 2 2)) ∧
    readReg (reportedAtOnce s 2 1) .errInfo = 0x00000012 ∧
    readReg (reportedAtOnce s 2 2) .errInfo = 0x00000022

/-- R181: the block step, for either answer of the platform to its read and to its write: a refused request ends
the command and commits nothing of the block; otherwise the input XOR the keystream of the old counter is
written, the counter advances, and the last block completes the command. Other instances' commands may run beside it
on other bytes (R81). That the written bytes are behind the host's earlier writes and hidden from the host until it
observes the completion is kept in the model's own visibility lists (assumption 7); the list of the platform's answers
is the model's too (assumption 3). -/
def Obligations.BlockStepFollowsThePlatformsAnswers : Prop :=
  ∀ (s : State) (m : Nat) (out : List Byte), s.cmd.opk = .transformPending → s.ctx.life = .active →
    s.plat.devices = [] → s.raced = false → OthersApart s → (s.plat.coherent = true ∨ s.vis.hostDirty = []) →
    s.cmd.off < s.cmd.ln →
    s.cmd.lsrc.toNat + s.cmd.ln ≤ 2 ^ s.plat.addrW → s.cmd.ldst.toNat + s.cmd.ln ≤ 2 ^ s.plat.addrW →
    m = min 16 (s.cmd.ln - s.cmd.off) →
    out = List.zipWith (· ^^^ ·) (readBytes s.mem (s.cmd.lsrc.toNat + s.cmd.off) m)
      (Config.blockEncrypt (s.ctx.key.toList.take s.ctx.klen) s.ctx.ctr).toList →
    engineStep s = .next (
      if s.dmaAnswers.headD true = false then
        completedWith { s with dmaAnswers := s.dmaAnswers.drop 1 } 3 1
      else if (s.dmaAnswers.drop 1).headD true = false then
        completedWith { s with dmaAnswers := s.dmaAnswers.drop 2 } 3 2
      else
        let u := { s with
          dmaAnswers := s.dmaAnswers.drop 2
          ctx := { s.ctx with ctr := advance s.ctx.ctr s.ctx.le }
          blkcnt := s.blkcnt + 1
          cmd := { s.cmd with off := s.cmd.off + m }
          mem := writeBytes s.mem (s.cmd.ldst.toNat + s.cmd.off) out
          vis := { s.vis with
            hostDirty := withoutRange s.vis.hostDirty (s.cmd.ldst.toNat + s.cmd.off) m
            unseen := withRange s.vis.unseen (s.cmd.ldst.toNat + s.cmd.off) m
            stale := withoutRange s.vis.stale (s.cmd.ldst.toNat + s.cmd.off) m } }
        if s.cmd.off + m = s.cmd.ln then completedWith u 0 0 else u)

/-- R161, R183, R188, R189: a TRANSFORM of `n > 0` bytes, from its CMD write to its completion, over disjoint or
identical ranges: `ceil(n/16)` engine steps, each output byte its input byte XOR the context's keystream, no
other byte changed, the counter advanced by `ceil(n/16)`. -/
def Obligations.TransformRunsToInputXorKeystream : Prop :=
  ∀ (np vec : Bool) (s : State) (n : Nat), MachineInv s → Undisturbed s → s.cmd.opk = .idle →
    s.ctx.life = .active → 0 < n →
    (if np then s.desc.nbytes.toInt else (s.desc.srcLen.toNat : Int)) = n →
    n ≤ s.desc.srcLen.toNat → n ≤ s.desc.dstCap.toNat →
    s.desc.srcAddr.toNat + s.desc.srcLen.toNat ≤ 2 ^ s.plat.addrW →
    s.desc.dstAddr.toNat + s.desc.dstCap.toNat ≤ 2 ^ s.plat.addrW →
    (s.desc.srcAddr = s.desc.dstAddr ∨ s.desc.srcAddr.toNat + n ≤ s.desc.dstAddr.toNat ∨
      s.desc.dstAddr.toNat + n ≤ s.desc.srcAddr.toNat) →
    ∃ t u, exec (.transform true true np vec 0) s = .next t ∧ busy t = true ∧
      Host.Core.run Sys2Proof.core (blockCount n) t = .next u ∧
      (∀ p, p < n → readByte u.mem (s.desc.dstAddr.toNat + p) =
        readByte s.mem (s.desc.srcAddr.toNat + p) ^^^ keystreamByte s.ctx p) ∧
      (∀ a, a < s.desc.dstAddr.toNat ∨ s.desc.dstAddr.toNat + n ≤ a → readByte u.mem a = readByte s.mem a) ∧
      u.ctx = { s.ctx with
        ctr := ctrBytes ((ctrInt s.ctx.ctr s.ctx.le + blockCount n) % 2 ^ 128) s.ctx.le } ∧
      u.blkcnt.toNat = blockCount n ∧
      u.status = { done := true, err := false, overrun := s.status.overrun } ∧
      u.errInfo = { cls := 0, sub := 0 } ∧ u.cmd.opk = .idle ∧ u.desc = s.desc ∧ u.ie = s.ie

/-- R75, R76, R189: for input and output ranges that overlap in any way, memory after an undisturbed TRANSFORM is
what its blocks leave one after another, each reading after the write before it. -/
def Obligations.TransformMemoryIsItsBlocksInOrder : Prop :=
  ∀ s : State, MachineInv s → Undisturbed s → s.cmd.opk = .transformPending → s.cmd.off = 0 →
    ∃ t, Host.Core.run Sys2Proof.core (blockCount s.cmd.ln) s = .next t ∧
      t.mem = memAfterBlocks s.ctx s.cmd.lsrc.toNat s.cmd.ldst.toNat s.cmd.ln (blockCount s.cmd.ln) 0 s.mem ∧
      t.ctx.ctr = ctrBytes ((ctrInt s.ctx.ctr s.ctx.le + blockCount s.cmd.ln) % 2 ^ 128) s.ctx.le ∧
      t.cmd.opk = .idle ∧ t.status.done = true ∧ t.status.err = false

/-- R188, R314: no engine step, raced or not, changes a byte outside the output range of the TRANSFORM in
progress; the load step changes none. -/
def Obligations.EngineWritesOnlyTheOutputRange : Prop :=
  ∀ s t : State, MachineInv s → engineStep s = .next t → ∀ a,
    (s.cmd.opk = .transformPending → a < s.cmd.ldst.toNat ∨ s.cmd.ldst.toNat + s.cmd.ln ≤ a) →
    readByte t.mem a = readByte s.mem a

/-- R48, R49, R245: what no engine step changes: the descriptor registers, CTRL, OVERRUN, the latched operands,
the platform and the coming events, what the host has read, and other instances' commands but for the mark of a
race. -/
def Obligations.EngineStepFrame : Prop :=
  ∀ s t : State, engineStep s = .next t →
    t.desc = s.desc ∧ t.ie = s.ie ∧ t.status.overrun = s.status.overrun ∧ t.plat = s.plat ∧
    t.events = s.events ∧ t.busWord = s.busWord ∧ t.busBytes = s.busBytes ∧
    { t.cmd with opk := s.cmd.opk, off := s.cmd.off } = s.cmd ∧
    t.others.map (fun o => { o with raced := false }) = s.others.map (fun o => { o with raced := false })

/-- R81: an engine step beside other instances' commands that have no byte in common with this engine's command,
but bytes that both only read, does what it does alone, and leaves those commands as they were; and the acceptance
or the completion of another instance's command changes nothing of this engine, and of memory at most what a raced
command writes (R79). R9, R282: fewer than `N_ENGINES` other instances run a command, and one begins to run exactly
where the platform has the instance, the instance is not BUSY and the ranges lie in memory. How an instance's command
is held, and the instance's number, are the model's (assumption 10). -/
def Obligations.InstancesOnDisjointRangesDoNotInteract : Prop :=
  (∀ s : State, OthersApart s → (s.cmd.opk = .transformPending → s.cmd.off < s.cmd.ln) →
    match engineStep s, engineStep { s with others := [] } with
    | .next t, .next u => t = { u with others := s.others }
    | .fault f, .fault g => f = g
    | .refused p, .refused q => p = q
    | _, _ => False) ∧
  (∀ (s : State) (e : Event) (id : Nat) (rest : List Event),
    (e = .otherEnds id ∨ ∃ reads writes, e = .otherBegins id reads writes) → s.events = e :: rest →
    ∃ t, step s = .next t ∧
      { t with mem := s.mem, fresh := s.fresh, vis := s.vis, others := s.others } = { s with events := rest } ∧
      (Memory.wf s.mem = true → ∀ b,
        (∀ o ∈ s.others, o.id = id → o.raced = true → metByRead b 1 o = false) →
        readByte t.mem b = readByte s.mem b)) ∧
  (∀ s : State, MachineInv s → s.others.length < s.plat.nEngines) ∧
  (∀ (s : State) (id : Nat) (reads writes : List Span) (rest : List Event),
    s.events = .otherBegins id reads writes :: rest →
    step s = .next { s with
      events := rest
      others :=
        if id + 1 < s.plat.nEngines ∧ (∀ o ∈ s.others, o.id ≠ id) ∧
            (∀ d ∈ reads ++ writes, d.base + d.len ≤ 2 ^ s.plat.addrW) then
          { id := id, reads := reads, writes := writes, raced := false } :: s.others
        else s.others })

/-- R3, R186: a TRANSFORM in place, and the same TRANSFORM again from the key, counter and byte order the first one
started from, leave every byte of memory as it was. -/
def Obligations.TransformTwiceRestoresTheInput : Prop :=
  ∀ (np vec : Bool) (s : State) (n : Nat), MachineInv s → Undisturbed s → s.cmd.opk = .idle →
    s.ctx.life = .active → 0 < n →
    (if np then s.desc.nbytes.toInt else (s.desc.srcLen.toNat : Int)) = n →
    n ≤ s.desc.srcLen.toNat → n ≤ s.desc.dstCap.toNat →
    s.desc.srcAddr.toNat + s.desc.srcLen.toNat ≤ 2 ^ s.plat.addrW →
    s.desc.dstAddr.toNat + s.desc.dstCap.toNat ≤ 2 ^ s.plat.addrW →
    s.desc.srcAddr = s.desc.dstAddr →
    ∃ t u v w, exec (.transform true true np vec 0) s = .next t ∧
      Host.Core.run Sys2Proof.core (blockCount n) t = .next u ∧
      exec (.transform true true np vec 0) { u with ctx := s.ctx } = .next v ∧
      Host.Core.run Sys2Proof.core (blockCount n) v = .next w ∧
      (∀ a, readByte w.mem a = readByte s.mem a) ∧ w.ctx = u.ctx

/-- R185, R191: two machines that differ only in the vector-path hint go on alike, and the hint of a TRANSFORM
word changes nothing else. -/
def Obligations.VectorHintIsUnobservable : Prop :=
  (∀ s t : State, sameButVec s t →
    match step s, step t with
    | .next s', .next t' => sameButVec s' t'
    | .fault f, .fault g => f = g
    | .refused p, .refused q => p = q
    | _, _ => False) ∧
  (∀ (sp dp np : Bool) (rsv : BitVec 24) (s : State),
    ∃ t u, exec (.transform sp dp np false rsv) s = .next t ∧
      exec (.transform sp dp np true rsv) s = .next u ∧ sameButVec t u)

/-! ### RELEASE -/

/-- R240: RELEASE, the word 0x00000003, zeroes an ACTIVE context and marks it DISPOSED, changes no context in
another life state, and always reports success. -/
def Obligations.ReleaseZeroizesAndSucceeds : Prop :=
  decode 0x00000003 = .release 0 ∧
  ∀ s : State, s.cmd.opk = .idle →
    exec (.release 0) s = .next { reportedAtOnce s 0 0 with
      ctx :=
        if s.ctx.life = .active then
          { ctr := Vector.replicate 16 0, key := Vector.replicate 32 0, klen := 0, le := false,
            life := .disposed }
        else s.ctx }

/-- R241, R242: a second RELEASE changes nothing the first one left, raises the interrupt if enabled, and after
RELEASE of a context a TRANSFORM fails with RELEASED. -/
def Obligations.ReleaseTwiceIsReleaseOnce : Prop :=
  ∀ s : State, s.cmd.opk = .idle →
    ∃ t, exec (.release 0) s = .next t ∧ exec (.release 0) t = .next t ∧ irq t = t.ie ∧
      (s.ctx.life = .active → ∀ sp dp np vec,
        exec (.transform sp dp np vec 0) t = .next (reportedAtOnce t 2 1))

/-! ### Counter and keystream -/

/-- R144: ADVANCE is increment modulo `2^128` of the counter's number, in both byte orders. -/
def Obligations.AdvanceIncrementsModulo : Prop :=
  ∀ (ctr : Block) (le : Bool), advance ctr le = ctrBytes ((ctrInt ctr le + 1) % 2 ^ 128) le

/-- R145: after `k` advances the counter's number is `k` more, and the counter returns after exactly `2^128`
advances and not before. -/
def Obligations.AdvanceReturnsAfterAllValues : Prop :=
  ∀ (ctr : Block) (le : Bool),
    (∀ k, (fun b => advance b le)^[k] ctr = ctrBytes ((ctrInt ctr le + k) % 2 ^ 128) le) ∧
    (fun b => advance b le)^[2 ^ 128] ctr = ctr ∧
    (∀ k, 0 < k → k < 2 ^ 128 → (fun b => advance b le)^[k] ctr ≠ ctr)

/-- R140: `ctr_bytes` is the inverse of `ctr_int` on the numbers below `2^128`, and unique. -/
def Obligations.CounterNumberAndBytesAreInverse : Prop :=
  ∀ le : Bool,
    (∀ ctr : Block, ctrInt ctr le < 2 ^ 128 ∧ ctrBytes (ctrInt ctr le) le = ctr) ∧
    (∀ v, v < 2 ^ 128 → ctrInt (ctrBytes v le) le = v)

/-- R143, R147: from `C0` the two byte orders give the same second counter exactly when `C0 = ff^16`, where both
wrap to `00^16`; and there the third counters differ. -/
def Obligations.ByteOrdersAgreeOnlyAtTheWrap : Prop :=
  (∀ ctr : Block, advanceBE ctr = advanceLE ctr ↔ ctr = Vector.replicate 16 0xFF) ∧
  advanceBE (Vector.replicate 16 0xFF) = Vector.replicate 16 0 ∧
  advanceLE (Vector.replicate 16 0xFF) = Vector.replicate 16 0 ∧
  advanceBE (Vector.replicate 16 0) ≠ advanceLE (Vector.replicate 16 0)

/-- R160, R161, R165: the keystream block after `k` advances is `E` of the initial counter plus `k`; no two of
the first `2^128` are computed from one counter value, and block `k + 2^128` is block `k` again. -/
def Obligations.KeystreamBlocksUseSuccessiveCounters : Prop :=
  ∀ ctx : Context,
    (∀ k, (nextBlock { ctx with ctr := (fun b => advance b ctx.le)^[k] ctx.ctr }).1 =
      Config.blockEncrypt (ctx.key.toList.take ctx.klen)
        (ctrBytes ((ctrInt ctx.ctr ctx.le + k) % 2 ^ 128) ctx.le)) ∧
    (∀ j k, j < k → k < j + 2 ^ 128 →
      ctrBytes ((ctrInt ctx.ctr ctx.le + j) % 2 ^ 128) ctx.le ≠
        ctrBytes ((ctrInt ctx.ctr ctx.le + k) % 2 ^ 128) ctx.le) ∧
    (∀ k, keystreamBlock ctx (k + 2 ^ 128) = keystreamBlock ctx k)

/-- R182, R186: XOR_COMBINE gives as many bytes as it is given, each the input byte XOR the keystream byte of the
same place, and doing it twice gives the input back. -/
def Obligations.XorCombineIsBytewiseAndUndoesItself : Prop :=
  ∀ (inp : List Byte) (ks : Block), inp.length ≤ 16 →
    (xorCombine inp ks).length = inp.length ∧
    (∀ i, i < inp.length → (xorCombine inp ks).getD i 0 = inp.getD i 0 ^^^ ks.toList.getD i 0) ∧
    xorCombine (xorCombine inp ks) ks = inp

/-! ### Registers -/

/-- R35: a host write of `v` to STATUS clears DONE, ERR and OVERRUN where `v` has a 1 in bits 1, 2 and 3, and
changes nothing else, while BUSY too. -/
def Obligations.StatusWriteClearsTheBitsWrittenAsOne : Prop :=
  ∀ (s : State) (v : Word) (rest : List Event),
    s.events = .regWrite (s.plat.regBase + 0x04) .w32 v :: rest →
    step s = .next { s with
      events := rest
      status := {
        done := if v.getLsbD 1 then false else s.status.done
        err := if v.getLsbD 2 then false else s.status.err
        overrun := if v.getLsbD 3 then false else s.status.overrun } }

/-- R29 to R36: where each bit of STATUS and ERRINFO reads from, and that all other bits read 0. -/
def Obligations.StatusAndErrInfoLayout : Prop :=
  ∀ s : State,
    (readReg s .status).getLsbD 0 = busy s ∧
    (readReg s .status).getLsbD 1 = s.status.done ∧
    (readReg s .status).getLsbD 2 = s.status.err ∧
    (readReg s .status).getLsbD 3 = s.status.overrun ∧
    ((readReg s .status).extractLsb' 4 2 =
      match s.ctx.life with | .none => 0 | .active => 1 | .disposed => 2) ∧
    (readReg s .status).getLsbD 6 = s.ctx.le ∧
    (∀ i, 7 ≤ i → (readReg s .status).getLsbD i = false) ∧
    (readReg s .errInfo).toNat = s.errInfo.cls.toNat + 16 * s.errInfo.sub.toNat

/-- R37: a write to CTRL keeps bit 0 and nothing else, while BUSY too, and reads back as that bit. -/
def Obligations.CtrlKeepsOnlyTheInterruptEnable : Prop :=
  ∀ (s : State) (v : Word) (rest : List Event),
    s.events = .regWrite (s.plat.regBase + 0x0C) .w32 v :: rest →
    ∃ t, step s = .next t ∧ t = { s with events := rest, ie := v.getLsbD 0 } ∧ readReg t .ctrl = v &&& 1

/-- R39 to R48: each descriptor register holds the value last written, and a write to one changes no other
register and nothing else of the machine, while BUSY too. -/
def Obligations.DescriptorRegistersStoreWhatIsWritten : Prop :=
  ∀ (off : Nat) (r : Reg),
    (off, r) ∈ [(0x20, Reg.keyAddr), (0x24, Reg.keyLen), (0x28, Reg.ctrAddr), (0x2C, Reg.ctrLen),
      (0x30, Reg.srcAddr), (0x34, Reg.srcLen), (0x38, Reg.dstAddr), (0x3C, Reg.dstCap),
      (0x40, Reg.nbytes)] →
    ∀ (s : State) (v : Word) (rest : List Event),
      s.events = .regWrite (s.plat.regBase + off) .w32 v :: rest →
      ∃ t, step s = .next t ∧ readReg t r = v ∧ (∀ r', r' ≠ r → readReg t r' = readReg s r') ∧
        { t with desc := s.desc } = { s with events := rest }

/-- R27, R36, R38: a write to ERRINFO, BLKCNT or a reserved offset has no effect, and a reserved offset and CMD
read as 0. -/
def Obligations.ReservedAndReadOnlyOffsets : Prop :=
  ∀ (s : State) (off : Nat) (rest : List Event),
    (∀ v : Word,
      (off = 0x08 ∨ off = 0x10 ∨ off = 0x14 ∨ off = 0x18 ∨ off = 0x1C ∨
        (0x44 ≤ off ∧ off ≤ 0xFC ∧ off % 4 = 0)) →
      s.events = .regWrite (s.plat.regBase + off) .w32 v :: rest →
      step s = .next { s with events := rest }) ∧
    ((off = 0x00 ∨ off = 0x14 ∨ off = 0x18 ∨ off = 0x1C ∨ (0x44 ≤ off ∧ off ≤ 0xFC ∧ off % 4 = 0)) →
      s.events = .regRead (s.plat.regBase + off) .w32 :: rest →
      step s = .next { s with events := rest, busWord := 0 })

/-- R26, R29 to R48, R72: what a read at each offset of the window returns, and that it changes nothing of the
engine or of memory. What the host has observed is kept in the model's own visibility lists (assumption 7). -/
def Obligations.RegisterReadsHaveNoSideEffect : Prop :=
  ∀ (s : State) (off : Nat) (rest : List Event), off ≤ 0xFC → off % 4 = 0 →
    s.events = .regRead (s.plat.regBase + off) .w32 :: rest →
    ∃ t, step s = .next t ∧
      t.busWord = (
        if off = 0x04 then BitVec.ofNat 32 (
          (if s.cmd.opk = .idle then 0 else 1) + (if s.status.done then 2 else 0) +
          (if s.status.err then 4 else 0) + (if s.status.overrun then 8 else 0) +
          (match s.ctx.life with | .none => 0 | .active => 16 | .disposed => 32) + (if s.ctx.le then 64 else 0))
        else if off = 0x08 then BitVec.ofNat 32 (s.errInfo.cls.toNat + 16 * s.errInfo.sub.toNat)
        else if off = 0x0C then (if s.ie then 1 else 0)
        else if off = 0x10 then s.blkcnt
        else if off = 0x20 then s.desc.keyAddr
        else if off = 0x24 then s.desc.keyLen
        else if off = 0x28 then s.desc.ctrAddr
        else if off = 0x2C then s.desc.ctrLen
        else if off = 0x30 then s.desc.srcAddr
        else if off = 0x34 then s.desc.srcLen
        else if off = 0x38 then s.desc.dstAddr
        else if off = 0x3C then s.desc.dstCap
        else if off = 0x40 then s.desc.nbytes
        else 0) ∧
      { t with busWord := s.busWord, vis := s.vis } = { s with events := rest }

/-- R68: the model refuses a register-window access of another width or at an unaligned offset. -/
def Obligations.MisfitWindowAccessIsRefused : Prop :=
  ∀ (s : State) (off : Nat) (width : AccessWidth) (rest : List Event), off < 256 →
    (width ≠ .w32 ∨ off % 4 ≠ 0) →
    (∀ v, s.events = .regWrite (s.plat.regBase + off) width v :: rest → step s = .refused .badWindowAccess) ∧
    (s.events = .regRead (s.plat.regBase + off) width :: rest → step s = .refused .badWindowAccess)

/-- R21, R283: machines that differ only in the counter and the key read alike at every register and at the
interrupt line, and a register read keeps them so. -/
def Obligations.RegistersRevealNeitherCounterNorKey : Prop :=
  ∀ s t : State, sameButSecrets s t →
    (∀ r, readReg s r = readReg t r) ∧ irq s = irq t ∧
    (∀ addr width,
      match hostRegRead addr width s, hostRegRead addr width t with
      | .next s', .next t' => s'.busWord = t'.busWord ∧ sameButSecrets s' t'
      | .refused p, .refused q => p = q
      | _, _ => False)

/-! ### Completion, interrupt and reset -/

/-- R262 to R267: the ERRINFO value that each named outcome reads as. -/
def Obligations.ErrInfoValuesOfTheNamedOutcomes : Prop :=
  errInfoWord Completion.ok.code = 0x00 ∧
  errInfoWord Completion.keyAbsent.code = 0x11 ∧ errInfoWord Completion.keyLength.code = 0x21 ∧
  errInfoWord Completion.ctrAbsent.code = 0x31 ∧ errInfoWord Completion.ctrLength.code = 0x41 ∧
  errInfoWord Completion.keyRange.code = 0x51 ∧ errInfoWord Completion.ctrRange.code = 0x61 ∧
  errInfoWord Completion.srcAbsent.code = 0x81 ∧ errInfoWord Completion.dstAbsent.code = 0x91 ∧
  errInfoWord Completion.nbytesRange.code = 0xA1 ∧ errInfoWord Completion.dstCapacity.code = 0xB1 ∧
  errInfoWord Completion.srcRange.code = 0xC1 ∧ errInfoWord Completion.dstRange.code = 0xD1 ∧
  errInfoWord Completion.released.code = 0x12 ∧ errInfoWord Completion.noContext.code = 0x22 ∧
  errInfoWord Completion.busRead.code = 0x13 ∧ errInfoWord Completion.busWrite.code = 0x23 ∧
  errInfoWord Completion.contextActive.code = 0x14 ∧
  errInfoWord Completion.reservedOpcode.code = 0x15 ∧ errInfoWord Completion.reservedBits.code = 0x25

/-- R274, R275: the line is IE and DONE; a STATUS write of DONE, a CTRL write of IE = 0 (DONE stays), the
acceptance of a command that stays pending, and reset each clear it; OVERRUN does not raise it. -/
def Obligations.InterruptFollowsEnableAndDone : Prop :=
  ∀ s : State,
    irq s = (s.ie && s.status.done) ∧
    irq { s with status := { s.status with overrun := true } } = irq s ∧
    (∀ v rest t, s.events = .regWrite (s.plat.regBase + 0x04) .w32 v :: rest → v.getLsbD 1 = true →
      step s = .next t → irq t = false) ∧
    (∀ v rest t, s.events = .regWrite (s.plat.regBase + 0x0C) .w32 v :: rest → v.getLsbD 0 = false →
      step s = .next t → irq t = false ∧ t.status = s.status) ∧
    (∀ i t, s.cmd.opk = .idle → exec i s = .next t → t.cmd.opk ≠ .idle → irq t = false) ∧
    (∀ rest t, s.events = .reset :: rest → step s = .next t → irq t = false)

/-- R300, R301: the reset event sets every engine register and all internal state to the table's values from any
state, a command in progress too, with no completion; memory stays. That the reset event stands in a list of coming
events, and that the list, the platform's coming answers and other instances' commands (R81, R282) stay over it, are
the model's choices (assumptions 3, 5 and 10). -/
def Obligations.ResetEventSetsEveryEngineField : Prop :=
  ∀ (s : State) (rest : List Event), s.events = .reset :: rest →
    ∃ t, step s = .next t ∧
      t.ctx = {
        ctr := Vector.replicate 16 0, key := Vector.replicate 32 0, klen := 0, le := false, life := .none } ∧
      t.cmd = {
        opk := .idle, lka := 0, lkl := 0, lca := 0, lle := false, lsrc := 0, ldst := 0, ln := 0, off := 0,
        lvec := false } ∧
      t.status = { done := false, err := false, overrun := false } ∧
      t.errInfo = { cls := 0, sub := 0 } ∧ t.ie = false ∧ t.blkcnt = 0 ∧
      t.desc = {
        keyAddr := 0, keyLen := 0, ctrAddr := 0, ctrLen := 0, srcAddr := 0, srcLen := 0, dstAddr := 0,
        dstCap := 0, nbytes := 0 } ∧
      readReg t .status = 0 ∧ readReg t .errInfo = 0 ∧ readReg t .ctrl = 0 ∧ irq t = false ∧
      t.mem = s.mem ∧ t.plat = s.plat ∧ t.dmaAnswers = s.dmaAnswers ∧ t.others = s.others ∧ t.events = rest

/-- R300: the registers of the machine right after reset read 0, and no command is in progress. -/
def Obligations.RegistersReadZeroAfterReset : Prop :=
  (∀ r, readReg State.reset r = 0) ∧ busy State.reset = false ∧ irq State.reset = false ∧
    State.reset.ctx.life = .none

/-- R284, R302: an idle engine with no event to come waits, and its turn changes nothing. That the next agent to
move stands in a list of events is the model's choice (assumption 5). -/
def Obligations.IdleEngineWaits : Prop :=
  ∀ s : State, s.cmd.opk = .idle →
    engineStep s = .next s ∧ (s.events = [] → step s = .next s)

/-! ### The whole machine -/

/-- R25, R49, R300: the machine right after reset meets the invariant. -/
def Obligations.ResetMeetsTheInvariant : Prop := MachineInv State.reset

/-- R9, R22, R25, R38, R49, R60, R80, R262, R282: every step, of whatever agent, keeps the invariant. How another
instance's command is held is the model's (assumption 10). -/
def Obligations.EveryStepKeepsTheInvariant : Prop :=
  ∀ s t : State, MachineInv s → step s = .next t → MachineInv t

/-- R25, R95, R163, R190: in a state that meets the invariant the engine never faults, and refuses only a DMA
transfer to a device; with no device on the platform it always has a next state. -/
def Obligations.EngineNeverStopsUnderTheInvariant : Prop :=
  ∀ s : State, MachineInv s →
    (∀ f, engineStep s ≠ .fault f) ∧ (∀ r, engineStep s = .refused r → r = .dmaToDevice) ∧
    (s.plat.devices = [] → ∃ t, engineStep s = .next t) ∧
    (∀ f, step s = .fault f → f = .busOutsideMemory)

/-- R24: the only changes of the life state: a load step to ACTIVE, a RELEASE word from ACTIVE to DISPOSED, and
reset to NONE. -/
def Obligations.LifeStateTransitions : Prop :=
  ∀ s t : State, step s = .next t →
    t.ctx.life = s.ctx.life ∨
    (s.cmd.opk = .constructPending ∧ t.ctx.life = .active) ∨
    (s.ctx.life = .active ∧ t.ctx.life = .disposed ∧
      ∃ addr width w, s.events.head? = some (.regWrite addr width w) ∧ decode w = .release 0) ∨
    (t.ctx.life = .none ∧ s.events.head? = some .reset)

/-- R22, R23: while a context is ACTIVE, no step changes its key, key length or endianness. -/
def Obligations.ActiveKeyAndEndiannessAreFixed : Prop :=
  ∀ s t : State, MachineInv s → step s = .next t → s.ctx.life = .active → t.ctx.life = .active →
    t.ctx.key = s.ctx.key ∧ t.ctx.klen = s.ctx.klen ∧ t.ctx.le = s.ctx.le

/-- R38, R146: while a context is ACTIVE, its counter moves only by one ADVANCE of a committed block step, which
adds 1 to BLKCNT; any other step leaves BLKCNT or clears it. -/
def Obligations.CounterMovesOnlyByAdvance : Prop :=
  ∀ s t : State, MachineInv s → step s = .next t → s.ctx.life = .active → t.ctx.life = .active →
    (t.ctx.ctr = s.ctx.ctr ∧ (t.blkcnt = s.blkcnt ∨ t.blkcnt = 0)) ∨
    (s.cmd.opk = .transformPending ∧ t.ctx.ctr = advance s.ctx.ctr s.ctx.le ∧
      t.blkcnt.toNat = s.blkcnt.toNat + 1)

/-- R9, R37, R48: no step changes the platform's parameters, and only a host register write or reset changes a
descriptor register or CTRL. -/
def Obligations.OnlyTheHostChangesDescriptors : Prop :=
  ∀ s t : State, step s = .next t →
    t.plat = s.plat ∧
    ((∀ addr width v, s.events.head? ≠ some (.regWrite addr width v)) → s.events.head? ≠ some .reset →
      t.desc = s.desc ∧ t.ie = s.ie)

/-- R260, R312, R313: with no other agent moving and no device on the platform, every accepted command completes,
whatever the platform answers and whether or not it has met a race, within the steps of R312. That a machine with
no event to come runs the engine is the model's reading of R313 (assumption 5). -/
def Obligations.EveryAcceptedCommandCompletes : Prop :=
  ∀ s : State, MachineInv s → s.cmd.opk ≠ .idle → s.events = [] → s.plat.devices = [] →
    ∃ k t, 0 < k ∧ k ≤ stepsLeft s ∧ Host.Core.run Sys2Proof.core k s = .next t ∧
      t.cmd.opk = .idle ∧ t.status.done = true

/-! ### Memory, races and the other agents -/

/-- R79, R190: what memory holds, whether a race was met and which free bytes come next decide nothing of an
engine step's control: progress, BLKCNT, the report and, for a block step, the context. The race mark and the free
bytes are the model's (assumption 8). -/
def Obligations.ControlFlowIsIndependentOfData : Prop :=
  ∀ (s : State) (m : Memory) (f : Nat) (r : Bool),
    match engineStep s, engineStep { s with mem := m, fresh := f, raced := r } with
    | .next t, .next u =>
      t.cmd = u.cmd ∧ t.blkcnt = u.blkcnt ∧ t.status = u.status ∧ t.errInfo = u.errInfo ∧
        t.dmaAnswers = u.dmaAnswers ∧ t.ctx.life = u.ctx.life ∧ t.ctx.klen = u.ctx.klen ∧
        t.ctx.le = u.ctx.le ∧ (s.cmd.opk = .transformPending → t.ctx = u.ctx)
    | .fault a, .fault b => a = b
    | .refused a, .refused b => a = b
    | _, _ => False

/-- R79, R81: a request of the engine's own to a byte that another instance's running command writes, or a write to
one that it reads, is a race of both commands, whenever the other instance's own request was or will be: each is
marked. The marks, and that an instance holds its ranges from its acceptance to its completion, are the model's
(assumptions 8 and 10). -/
def Obligations.RequestsOfTwoInstancesToOneByteRace : Prop :=
  ∀ (s : State) (a : Nat) (o : OtherCommand) (d : Span), s.cmd.opk ≠ .idle → s.plat.devices = [] →
    s.dmaAnswers.headD true = true → o ∈ s.others →
    (∀ n, a + n ≤ 2 ^ s.plat.addrW → d ∈ o.writes → overlaps a n d.base d.len = true →
      ∃ t, dmaRead s a n = .next (some (readBytes s.mem a n), t) ∧ t.raced = true ∧
        { o with raced := true } ∈ t.others) ∧
    (∀ bytes, a + bytes.length ≤ 2 ^ s.plat.addrW → d ∈ o.reads ++ o.writes →
      overlaps a bytes.length d.base d.len = true →
      ∃ t, dmaWrite s a bytes = .next (true, t) ∧ t.raced = true ∧ { o with raced := true } ∈ t.others)

/-- R79, R81: a write of the host, or of another master, to a range of the command in progress is a race: the command
is marked and goes on; of memory only the written range and the output range of a TRANSFORM may change, and no
register does. The race mark and the moment the output range becomes free are the model's (assumption 8), and so is
that every address of memory is accessible to the writer (assumption 11). -/
def Obligations.RacingHostWriteMarksTheCommand : Prop :=
  ∀ (s : State) (who : Master) (a : Nat) (bytes : List Byte) (rest : List Event),
    Memory.wf s.mem = true → s.events = .memWrite who a bytes :: rest →
    a + bytes.length ≤ 2 ^ s.plat.addrW →
    (s.cmd.opk = .constructPending →
      overlaps a bytes.length s.cmd.lka.toNat s.cmd.lkl = true ∨
        overlaps a bytes.length s.cmd.lca.toNat 16 = true) →
    (s.cmd.opk = .transformPending →
      overlaps a bytes.length s.cmd.lsrc.toNat s.cmd.ln = true ∨
        overlaps a bytes.length s.cmd.ldst.toNat s.cmd.ln = true) →
    s.cmd.opk ≠ .idle →
    ∃ t, step s = .next t ∧ t.raced = true ∧ t.ctx = s.ctx ∧ t.cmd = s.cmd ∧ t.status = s.status ∧
      t.errInfo = s.errInfo ∧ t.blkcnt = s.blkcnt ∧ t.desc = s.desc ∧ t.ie = s.ie ∧
      (∀ b, inRange a bytes.length b = false →
        (s.cmd.opk = .transformPending → inRange s.cmd.ldst.toNat s.cmd.ln b = false) →
        readByte t.mem b = readByte s.mem b)

/-- R14, R60, R63: while the engine is idle, the host reads back the bytes it wrote where nothing is hidden from
it and no other instance's command writes (R81), and every other byte of memory stays. What is hidden from the host
is the model's (assumption 7), and so is that every address of memory is accessible to it (assumption 11). -/
def Obligations.HostReadsBackWhatItWrote : Prop :=
  ∀ (s : State) (a : Nat) (bytes : List Byte) (rest : List Event),
    Memory.wf s.mem = true → s.cmd.opk = .idle →
    s.events = .memWrite .host a bytes :: .memRead .host a bytes.length :: rest →
    a + bytes.length ≤ 2 ^ s.plat.addrW →
    (∀ b, inRange a bytes.length b = true → b ∉ s.vis.unseen ∧ b ∉ s.vis.stale) →
    (∀ o ∈ s.others, metByRead a bytes.length o = false) →
    ∃ t, Host.Core.run Sys2Proof.core 2 s = .next t ∧ t.busBytes = bytes ∧
      (∀ b, inRange a bytes.length b = false → readByte t.mem b = readByte s.mem b)

/-- R78, R308: on a coherent platform a host that has read STATUS with BUSY = 0 sees what DMA wrote, whoever wrote
those bytes before; on any other it does so after its own maintenance of the range. Which bytes are hidden before
that is the model's (assumption 7), and so is that every address of memory is accessible to it (assumption 11). -/
def Obligations.ObservedCompletionMakesOutputVisible : Prop :=
  ∀ (s : State) (a n : Nat) (rest : List Event), s.cmd.opk = .idle → a + n ≤ 2 ^ s.plat.addrW →
    (∀ o ∈ s.others, metByRead a n o = false) →
    (∀ (r : State) (bytes : List Byte), Memory.wf r.mem = true → s = dmaStore r a bytes → n = bytes.length →
      s.plat.coherent = true →
      s.events = .regRead (s.plat.regBase + 0x04) .w32 :: .memRead .host a n :: rest →
      ∃ t, Host.Core.run Sys2Proof.core 2 s = .next t ∧ t.busBytes = bytes) ∧
    (s.plat.coherent = true → (∀ b, inRange a n b = true → b ∉ s.vis.stale) →
      s.events = .regRead (s.plat.regBase + 0x04) .w32 :: .memRead .host a n :: rest →
      ∃ t, Host.Core.run Sys2Proof.core 2 s = .next t ∧ t.busBytes = readBytes s.mem a n) ∧
    (s.events = .regRead (s.plat.regBase + 0x04) .w32 :: .maintain a n :: .memRead .host a n :: rest →
      ∃ t, Host.Core.run Sys2Proof.core 3 s = .next t ∧ t.busBytes = readBytes s.mem a n)

/-- R77: where DMA is not coherent, an admitted DMA read of a byte the host has not made visible is a race for
the command in progress. The second clause is the model's choice (assumption 7), for R77 asks for maintenance before
the CMD write and is silent on a late one: after maintenance of the range that the host makes only while BUSY, the
read is no race, where no other instance's command writes (R81). The bytes held dirty are the model's too
(assumption 7), and so is the list of the platform's answers (assumption 3). -/
def Obligations.DmaReadOfUnflushedByteIsARace : Prop :=
  ∀ (s : State) (a n b : Nat), s.cmd.opk ≠ .idle → s.plat.coherent = false → s.plat.devices = [] →
    a + n ≤ 2 ^ s.plat.addrW → s.dmaAnswers.headD true = true → inRange a n b = true →
    b ∈ s.vis.hostDirty →
    (∃ t, dmaRead s a n = .next (some (readBytes s.mem a n), t) ∧ t.raced = true) ∧
    ((∀ o ∈ s.others, metByRead a n o = false) → dmaRead (maintainRange a n s) a n =
      .next (some (readBytes s.mem a n), { maintainRange a n s with dmaAnswers := s.dmaAnswers.tail }))

/-- R72: a DMA request, read or write, that the platform admits to an address with side effects is refused by the
model; one that the platform refuses is not. The list of the platform's answers is the model's (assumption 3). -/
def Obligations.DmaToDeviceIsRefused : Prop :=
  ∀ (s : State) (a : Nat) (d : Span), d ∈ s.plat.devices →
    (∀ n, a + n ≤ 2 ^ s.plat.addrW → overlaps a n d.base d.len = true →
      (s.dmaAnswers.headD true = true → dmaRead s a n = .refused .dmaToDevice) ∧
      (s.dmaAnswers.headD true = false →
        dmaRead s a n = .next (none, { s with dmaAnswers := s.dmaAnswers.tail }))) ∧
    (∀ bytes, a + bytes.length ≤ 2 ^ s.plat.addrW → overlaps a bytes.length d.base d.len = true →
      (s.dmaAnswers.headD true = true → dmaWrite s a bytes = .refused .dmaToDevice) ∧
      (s.dmaAnswers.headD true = false →
        dmaWrite s a bytes = .next (false, { s with dmaAnswers := s.dmaAnswers.tail })))

/-- R60: an access of the host's or another master's own outside `[0, 2^ADDR_W)`, where no byte exists, faults. The
fault is the model's choice (assumption 11). -/
def Obligations.AccessOutsideMemoryFaults : Prop :=
  ∀ (s : State) (who : Master) (a : Nat) (rest : List Event),
    (∀ bytes, 2 ^ s.plat.addrW < a + bytes.length → s.events = .memWrite who a bytes :: rest →
      step s = .fault .busOutsideMemory) ∧
    (∀ n, 2 ^ s.plat.addrW < a + n → s.events = .memRead who a n :: rest →
      step s = .fault .busOutsideMemory)
end

