-- ==== Sys2Proof/Laws/Counter.lean ====
section
/-! SUPPORT. The counter as digits: the number of a list of byte indices, least significant first, and what the
carry loop does to it (spec/41_counter.md R140 to R143). -/

namespace Sys2Proof.Machine

/-- The number that the counter's bytes at these indices write in base 256, least significant first. -/
def digitsValue : List (Fin 16) → Block → Nat
  | [], _ => 0
  | i :: rest, v => v[i].toNat + 256 * digitsValue rest v

/-- The byte indices from the least significant on (R140). -/
def significance (le : Bool) : List (Fin 16) :=
  if le then List.finRange 16 else (List.finRange 16).reverse

theorem significance_nodup (le : Bool) : (significance le).Nodup := by cases le <;> decide

theorem mem_significance (le : Bool) (i : Fin 16) : i ∈ significance le := by cases le <;> simp [significance]

@[simp] theorem significance_length (le : Bool) : (significance le).length = 16 := by cases le <;> rfl

/-- The index at place `j` has the weight `256 ^ j` (R140). -/
theorem byteWeight_significance (le : Bool) (j : Nat) (h : j < (significance le).length) :
    byteWeight le (significance le)[j].val = j := by
  rw [significance_length] at h
  cases le
  · have : ∀ k : Fin 16, byteWeight false ((significance false)[k.val]'(by simp)).val = k.val := by decide
    exact this ⟨j, h⟩
  · have : ∀ k : Fin 16, byteWeight true ((significance true)[k.val]'(by simp)).val = k.val := by decide
    exact this ⟨j, h⟩

/-- A weighted sum of bytes over a list of indices whose weights rise by one is a digit string. -/
theorem sum_weights (w : Fin 16 → Nat) (v : Block) (is : List (Fin 16)) (k : Nat)
    (h : ∀ j (hj : j < is.length), w is[j] = k + j) :
    (is.map fun i => v[i].toNat * 256 ^ w i).sum = 256 ^ k * digitsValue is v := by
  induction is generalizing k with
  | nil => rfl
  | cons i is ih =>
    have h0 := h 0 (Nat.succ_pos _)
    have hrest := ih (k + 1) fun j hj => by
      have := h (j + 1) (Nat.succ_lt_succ hj)
      simp only [List.getElem_cons_succ] at this
      omega
    simp only [List.getElem_cons_zero] at h0
    rw [List.map_cons, List.sum_cons, hrest, h0, digitsValue, Nat.add_zero, pow_succ]
    ring

/-- The counter's number is its digit string (R140). -/
theorem ctrInt_eq_digitsValue (v : Block) (le : Bool) : ctrInt v le = digitsValue (significance le) v := by
  have key : ctrInt v le =
      ((significance le).map fun i : Fin 16 => v[i].toNat * 256 ^ byteWeight le i).sum := by
    cases le
    · rw [significance, if_neg (by simp), List.map_reverse, List.sum_reverse]; rfl
    · rfl
  rw [key, sum_weights _ _ _ 0 fun j hj => by rw [byteWeight_significance, Nat.zero_add], pow_zero, one_mul]

theorem digitsValue_congr (is : List (Fin 16)) (v w : Block) (h : ∀ i ∈ is, v[i] = w[i]) :
    digitsValue is v = digitsValue is w := by
  induction is with
  | nil => rfl
  | cons i is ih =>
    simp only [digitsValue]
    rw [h i (by simp), ih fun j hj => h j (by simp [hj])]

theorem digitsValue_lt (is : List (Fin 16)) (v : Block) : digitsValue is v < 256 ^ is.length := by
  induction is with
  | nil => simp [digitsValue]
  | cons i is ih =>
    have := v[i].isLt
    simp only [digitsValue, List.length_cons, pow_succ]
    omega

/-- Equal digit strings have equal digits. -/
theorem digitsValue_inj (is : List (Fin 16)) (v w : Block) (h : digitsValue is v = digitsValue is w) :
    ∀ i ∈ is, v[i] = w[i] := by
  induction is with
  | nil => simp
  | cons i is ih =>
    have h1 := v[i].isLt
    have h2 := w[i].isLt
    simp only [digitsValue] at h
    intro j hj
    rcases List.mem_cons.mp hj with rfl | hj
    · apply BitVec.eq_of_toNat_eq; omega
    · exact ih (by omega) j hj

/-- The digits of `n` write `n` modulo the size of the string. -/
theorem digitsValue_of_digits (is : List (Fin 16)) (n : Nat) (v : Block)
    (h : ∀ j (hj : j < is.length), v[is[j]] = BitVec.ofNat 8 (n / 256 ^ j)) :
    digitsValue is v = n % 256 ^ is.length := by
  induction is generalizing n with
  | nil => simp [digitsValue, Nat.mod_one]
  | cons i is ih =>
    have h0 := h 0 (by simp)
    simp only [List.getElem_cons_zero, pow_zero, Nat.div_one] at h0
    have hrest := ih (n / 256) fun j hj => by
      have := h (j + 1) (by simp; omega)
      simp only [List.getElem_cons_succ] at this
      rw [this, pow_succ', Nat.div_div_eq_div_mul]
    simp only [digitsValue, hrest, h0, BitVec.toNat_ofNat, List.length_cons]
    show n % 256 + 256 * _ = _
    rw [pow_succ' 256 is.length, Nat.mod_mul]

theorem set_other (v : Block) (i j : Fin 16) (b : Byte) (h : j ≠ i) : (v.set i b)[j] = v[j] := by
  have : i.val ≠ j.val := fun e => h (Fin.ext e.symm)
  simp [this]

theorem set_same (v : Block) (i : Fin 16) (b : Byte) : (v.set i b)[i] = b := by simp

/-- The carry loop adds one to the digit string, modulo its size, and changes no other byte (R141, R142). -/
theorem advanceAlong_value (is : List (Fin 16)) (v : Block) (h : is.Nodup) :
    digitsValue is (advanceAlong is v) = (digitsValue is v + 1) % 256 ^ is.length ∧
      ∀ j, j ∉ is → (advanceAlong is v)[j] = v[j] := by
  induction is generalizing v with
  | nil => simp [digitsValue, advanceAlong]
  | cons i is ih =>
    have hi := (List.nodup_cons.mp h).1
    have hn := (List.nodup_cons.mp h).2
    have hv := v[i].isLt
    have hlt := digitsValue_lt is v
    have hset : digitsValue is (v.set i (v[i] + 1)) = digitsValue is v :=
      digitsValue_congr _ _ _ fun j hj => set_other _ _ _ _ (fun e => hi (e ▸ hj))
    have hadd : (v[i] + 1).toNat = (v[i].toNat + 1) % 256 := by simp [BitVec.toNat_add]
    unfold advanceAlong
    simp only [set_same]
    split
    · next hne =>
      have hsmall : v[i].toNat + 1 < 256 := by
        by_contra hc
        apply hne
        apply BitVec.eq_of_toNat_eq
        rw [hadd, show v[i].toNat = 255 by omega]; rfl
      refine ⟨?_, fun j hj => set_other _ _ _ _ fun e => hj (by simp [e])⟩
      simp only [digitsValue, set_same, hset, List.length_cons, pow_succ, hadd]
      rw [Nat.mod_eq_of_lt hsmall, Nat.mod_eq_of_lt (by omega)]; omega
    · next he =>
      have he : (v[i] + 1).toNat = 0 := by simpa using congrArg BitVec.toNat (not_not.mp he)
      have h255 : v[i].toNat = 255 := by omega
      obtain ⟨h1, h2⟩ := ih (v.set i (v[i] + 1)) hn
      refine ⟨?_, fun j hj => ?_⟩
      · simp only [digitsValue]
        rw [h1, h2 i hi, set_same, he, hset, h255, List.length_cons, pow_succ,
          show 255 + 256 * digitsValue is v + 1 = (digitsValue is v + 1) * 256 by ring, Nat.mul_mod_mul_right]
        ring
      · rw [h2 j (fun e => hj (by simp [e])), set_other _ _ _ _ fun e => hj (by simp [e])]

/-- ADVANCE is the carry loop from the least significant byte on (R141, R142). -/
theorem advance_eq_along (v : Block) (le : Bool) : advance v le = advanceAlong (significance le) v := by
  cases le <;> rfl

end Sys2Proof.Machine
end

