-- ==== Sys2Proof/Laws/Memory.lean ====
section
/-! SUPPORT. The laws of system memory: a read after a write, and the canonical form every memory operation
keeps. -/

namespace Sys2Proof.Machine

@[simp] theorem readByte_nil (a : Nat) : readByte [] a = unlistedByte := rfl

theorem readByte_cons (b : Nat) (u : Byte) (rest : Memory) (a : Nat) :
    readByte ((b, u) :: rest) a = if a = b then u else readByte rest a := rfl

/-- In a list whose addresses all lie above `a`, address `a` is not listed. -/
theorem readByte_of_all_above (m : Memory) (a : Nat) (h : m.all (fun c => decide (a < c.1)) = true) :
    readByte m a = unlistedByte := by
  induction m with
  | nil => rfl
  | cons c rest ih =>
    obtain ⟨b, u⟩ := c
    simp only [List.all_cons, Bool.and_eq_true, decide_eq_true_eq] at h
    rw [readByte_cons, if_neg (by omega), ih h.2]

/-- The canonical form of a list with a first entry. -/
theorem Memory.wf_cons (a : Nat) (v : Byte) (rest : Memory) :
    Memory.wf ((a, v) :: rest) = true ↔
      v ≠ unlistedByte ∧ rest.all (fun c => decide (a < c.1)) = true ∧ Memory.wf rest = true := by
  simp [Memory.wf, and_assoc]

/-- A read after a write: the byte written at its address, and every other byte as before (R60). -/
theorem readByte_writeByte (m : Memory) (h : Memory.wf m = true) (a : Nat) (v : Byte) (b : Nat) :
    readByte (writeByte m a v) b = if b = a then v else readByte m b := by
  induction m with
  | nil =>
    unfold writeByte
    split <;> simp_all [readByte_cons]
  | cons c rest ih =>
    obtain ⟨k, u⟩ := c
    obtain ⟨-, hall, hrest⟩ := (Memory.wf_cons k u rest).mp h
    unfold writeByte
    split
    · next hlt =>
      split
      · next hv =>
        have habove : ((k, u) :: rest).all (fun c => decide (a < c.1)) = true := by
          simp only [List.all_cons, Bool.and_eq_true, decide_eq_true_eq, List.all_eq_true] at hall ⊢
          exact ⟨hlt, fun c hc => lt_trans hlt (hall c hc)⟩
        split
        · next hb => rw [hb, readByte_of_all_above _ _ habove, hv]
        · rfl
      · exact readByte_cons a v _ b
    · split
      · next hak =>
        subst hak
        split
        · next hv =>
          rw [readByte_cons]
          split
          · next hb => rw [hb, readByte_of_all_above rest a hall, hv]
          · rfl
        · rw [readByte_cons, readByte_cons]
          split <;> rfl
      · rw [readByte_cons, readByte_cons, ih hrest]
        split <;> split <;> first | rfl | omega

/-- A write lists no address but its own and those listed before. -/
theorem writeByte_all (p : Nat → Bool) (m : Memory) (a : Nat) (v : Byte) (ha : p a = true)
    (h : m.all (fun c => p c.1) = true) : (writeByte m a v).all (fun c => p c.1) = true := by
  induction m with
  | nil => unfold writeByte; split <;> simp [ha]
  | cons c rest ih =>
    obtain ⟨k, u⟩ := c
    simp only [List.all_cons, Bool.and_eq_true] at h
    unfold writeByte
    split_ifs <;> simp [List.all_cons, ha, h.1, h.2, ih h.2]

/-- A write keeps the canonical form. -/
theorem writeByte_wf (m : Memory) (a : Nat) (v : Byte) (h : Memory.wf m = true) :
    Memory.wf (writeByte m a v) = true := by
  induction m with
  | nil => unfold writeByte; split <;> simp_all [Memory.wf]
  | cons c rest ih =>
    obtain ⟨k, u⟩ := c
    obtain ⟨hu, hall, hrest⟩ := (Memory.wf_cons k u rest).mp h
    unfold writeByte
    split
    · next hlt =>
      split
      · exact h
      · next hv =>
        refine (Memory.wf_cons _ _ _).mpr ⟨hv, ?_, h⟩
        simp only [List.all_cons, Bool.and_eq_true, decide_eq_true_eq, List.all_eq_true] at hall ⊢
        exact ⟨hlt, fun c hc => lt_trans hlt (hall c hc)⟩
    · split
      · next hak =>
        split
        · exact hrest
        · next hv => exact (Memory.wf_cons _ _ _).mpr ⟨hv, hak ▸ hall, hrest⟩
      · exact (Memory.wf_cons _ _ _).mpr
          ⟨hu, writeByte_all (fun b => decide (k < b)) rest a v (by simp; omega) hall, ih hrest⟩

/-- A sequence write keeps the canonical form. -/
theorem writeBytes_wf (bytes : List Byte) (m : Memory) (a : Nat) (h : Memory.wf m = true) :
    Memory.wf (writeBytes m a bytes) = true := by
  induction bytes generalizing m a with
  | nil => exact h
  | cons v rest ih => exact ih _ _ (writeByte_wf m a v h)

/-- A sequence write below `limit` lists no address at or above it. -/
theorem writeBytes_below (limit : Nat) (bytes : List Byte) (m : Memory) (a : Nat)
    (ha : a + bytes.length ≤ limit) (h : Memory.below limit m = true) :
    Memory.below limit (writeBytes m a bytes) = true := by
  induction bytes generalizing m a with
  | nil => exact h
  | cons v rest ih =>
    simp only [List.length_cons] at ha
    exact ih _ _ (by omega)
      (writeByte_all (fun b => decide (b < limit)) m a v (by simp; omega) h)

/-- A read after a sequence write: sequence byte `b - a` inside the range, and every other byte as before
(R63). -/
theorem readByte_writeBytes (bytes : List Byte) (m : Memory) (h : Memory.wf m = true) (a b : Nat) :
    readByte (writeBytes m a bytes) b =
      if a ≤ b ∧ b < a + bytes.length then bytes.getD (b - a) 0 else readByte m b := by
  induction bytes generalizing m a with
  | nil => rw [writeBytes, if_neg (by simp)]
  | cons v rest ih =>
    rw [writeBytes, ih _ (writeByte_wf m a v h), readByte_writeByte m h]
    simp only [List.length_cons]
    by_cases hb : b = a
    · subst hb
      simp
    · by_cases hin : a + 1 ≤ b ∧ b < a + 1 + rest.length
      · rw [if_pos hin, if_pos (by omega), show b - a = (b - (a + 1)) + 1 by omega, List.getD_cons_succ]
      · rw [if_neg hin, if_neg hb, if_neg (by omega)]

/-- A byte outside the stored range reads as before. -/
theorem readByte_writeBytes_outside (bytes : List Byte) (m : Memory) (h : Memory.wf m = true) (a b : Nat)
    (hb : inRange a bytes.length b = false) :
    readByte (writeBytes m a bytes) b = readByte m b := by
  rw [readByte_writeBytes bytes m h, if_neg]
  simpa [inRange] using hb

@[simp] theorem readBytes_length (m : Memory) (a n : Nat) : (readBytes m a n).length = n := by
  simp [readBytes]

/-- Byte `i` of a sequence read (R63). -/
theorem readBytes_getD (m : Memory) (a n i : Nat) (h : i < n) (d : Byte) :
    (readBytes m a n).getD i d = readByte m (a + i) := by
  simp [readBytes, List.getD_eq_getElem?_getD, h]

end Sys2Proof.Machine
end

