-- ==== Sys2Proof/Laws/State.lean ====
section
/-! SUPPORT. What each named update of the state does to each field: one lemma per field and update, so that no
later proof unfolds a record update. -/

namespace Sys2Proof.Machine

@[simp] theorem complete_ctx (c : Completion) (s : State) : (complete c s).ctx = s.ctx := rfl
@[simp] theorem complete_status (c : Completion) (s : State) :
    (complete c s).status = { s.status with err := c.code.cls != 0, done := true } := rfl
@[simp] theorem complete_errInfo (c : Completion) (s : State) : (complete c s).errInfo = c.code := rfl
@[simp] theorem complete_ie (c : Completion) (s : State) : (complete c s).ie = s.ie := rfl
@[simp] theorem complete_blkcnt (c : Completion) (s : State) : (complete c s).blkcnt = s.blkcnt := rfl
@[simp] theorem complete_desc (c : Completion) (s : State) : (complete c s).desc = s.desc := rfl
@[simp] theorem complete_cmd (c : Completion) (s : State) :
    (complete c s).cmd = { s.cmd with opk := .idle } := rfl
@[simp] theorem complete_mem (c : Completion) (s : State) : (complete c s).mem = s.mem := rfl
@[simp] theorem complete_plat (c : Completion) (s : State) : (complete c s).plat = s.plat := rfl
@[simp] theorem complete_dmaAnswers (c : Completion) (s : State) :
    (complete c s).dmaAnswers = s.dmaAnswers := rfl
@[simp] theorem complete_events (c : Completion) (s : State) : (complete c s).events = s.events := rfl
@[simp] theorem complete_raced (c : Completion) (s : State) : (complete c s).raced = false := rfl
@[simp] theorem complete_vis (c : Completion) (s : State) : (complete c s).vis = s.vis := rfl
@[simp] theorem complete_busWord (c : Completion) (s : State) : (complete c s).busWord = s.busWord := rfl
@[simp] theorem complete_busBytes (c : Completion) (s : State) : (complete c s).busBytes = s.busBytes := rfl
@[simp] theorem complete_fresh (c : Completion) (s : State) : (complete c s).fresh = s.fresh := rfl
@[simp] theorem complete_others (c : Completion) (s : State) : (complete c s).others = s.others := rfl

@[simp] theorem beginCommand_ctx (s : State) : (beginCommand s).ctx = s.ctx := rfl
@[simp] theorem beginCommand_status (s : State) :
    (beginCommand s).status = { s.status with done := false, err := false } := rfl
@[simp] theorem beginCommand_errInfo (s : State) : (beginCommand s).errInfo = { cls := 0, sub := 0 } := rfl
@[simp] theorem beginCommand_ie (s : State) : (beginCommand s).ie = s.ie := rfl
@[simp] theorem beginCommand_blkcnt (s : State) : (beginCommand s).blkcnt = 0 := rfl
@[simp] theorem beginCommand_desc (s : State) : (beginCommand s).desc = s.desc := rfl
@[simp] theorem beginCommand_cmd (s : State) : (beginCommand s).cmd = s.cmd := rfl
@[simp] theorem beginCommand_mem (s : State) : (beginCommand s).mem = s.mem := rfl
@[simp] theorem beginCommand_plat (s : State) : (beginCommand s).plat = s.plat := rfl
@[simp] theorem beginCommand_dmaAnswers (s : State) : (beginCommand s).dmaAnswers = s.dmaAnswers := rfl
@[simp] theorem beginCommand_events (s : State) : (beginCommand s).events = s.events := rfl
@[simp] theorem beginCommand_raced (s : State) : (beginCommand s).raced = false := rfl
@[simp] theorem beginCommand_vis (s : State) : (beginCommand s).vis = s.vis := rfl
@[simp] theorem beginCommand_busWord (s : State) : (beginCommand s).busWord = s.busWord := rfl
@[simp] theorem beginCommand_busBytes (s : State) : (beginCommand s).busBytes = s.busBytes := rfl
@[simp] theorem beginCommand_fresh (s : State) : (beginCommand s).fresh = s.fresh := rfl
@[simp] theorem beginCommand_others (s : State) : (beginCommand s).others = s.others := rfl

@[simp] theorem dropCommand_ctx (s : State) : (dropCommand s).ctx = s.ctx := rfl
@[simp] theorem dropCommand_status (s : State) :
    (dropCommand s).status = { s.status with overrun := true } := rfl
@[simp] theorem dropCommand_errInfo (s : State) : (dropCommand s).errInfo = s.errInfo := rfl
@[simp] theorem dropCommand_ie (s : State) : (dropCommand s).ie = s.ie := rfl
@[simp] theorem dropCommand_blkcnt (s : State) : (dropCommand s).blkcnt = s.blkcnt := rfl
@[simp] theorem dropCommand_desc (s : State) : (dropCommand s).desc = s.desc := rfl
@[simp] theorem dropCommand_cmd (s : State) : (dropCommand s).cmd = s.cmd := rfl
@[simp] theorem dropCommand_mem (s : State) : (dropCommand s).mem = s.mem := rfl
@[simp] theorem dropCommand_plat (s : State) : (dropCommand s).plat = s.plat := rfl
@[simp] theorem dropCommand_dmaAnswers (s : State) : (dropCommand s).dmaAnswers = s.dmaAnswers := rfl
@[simp] theorem dropCommand_events (s : State) : (dropCommand s).events = s.events := rfl
@[simp] theorem dropCommand_raced (s : State) : (dropCommand s).raced = s.raced := rfl
@[simp] theorem dropCommand_vis (s : State) : (dropCommand s).vis = s.vis := rfl
@[simp] theorem dropCommand_busWord (s : State) : (dropCommand s).busWord = s.busWord := rfl
@[simp] theorem dropCommand_busBytes (s : State) : (dropCommand s).busBytes = s.busBytes := rfl
@[simp] theorem dropCommand_fresh (s : State) : (dropCommand s).fresh = s.fresh := rfl
@[simp] theorem dropCommand_others (s : State) : (dropCommand s).others = s.others := rfl

@[simp] theorem resetEngine_ctx (s : State) : (resetEngine s).ctx = State.reset.ctx := rfl
@[simp] theorem resetEngine_status (s : State) : (resetEngine s).status = State.reset.status := rfl
@[simp] theorem resetEngine_errInfo (s : State) : (resetEngine s).errInfo = State.reset.errInfo := rfl
@[simp] theorem resetEngine_ie (s : State) : (resetEngine s).ie = State.reset.ie := rfl
@[simp] theorem resetEngine_blkcnt (s : State) : (resetEngine s).blkcnt = State.reset.blkcnt := rfl
@[simp] theorem resetEngine_desc (s : State) : (resetEngine s).desc = State.reset.desc := rfl
@[simp] theorem resetEngine_cmd (s : State) : (resetEngine s).cmd = State.reset.cmd := rfl
@[simp] theorem resetEngine_mem (s : State) : (resetEngine s).mem = s.mem := rfl
@[simp] theorem resetEngine_plat (s : State) : (resetEngine s).plat = s.plat := rfl
@[simp] theorem resetEngine_dmaAnswers (s : State) : (resetEngine s).dmaAnswers = s.dmaAnswers := rfl
@[simp] theorem resetEngine_events (s : State) : (resetEngine s).events = s.events := rfl
@[simp] theorem resetEngine_raced (s : State) : (resetEngine s).raced = false := rfl
@[simp] theorem resetEngine_vis (s : State) : (resetEngine s).vis = s.vis := rfl
@[simp] theorem resetEngine_busWord (s : State) : (resetEngine s).busWord = s.busWord := rfl
@[simp] theorem resetEngine_busBytes (s : State) : (resetEngine s).busBytes = s.busBytes := rfl
@[simp] theorem resetEngine_fresh (s : State) : (resetEngine s).fresh = s.fresh := rfl
@[simp] theorem resetEngine_others (s : State) : (resetEngine s).others = s.others := rfl

@[simp] theorem dmaStore_ctx (s : State) (a : Nat) (bytes : List Byte) : (dmaStore s a bytes).ctx = s.ctx := rfl
@[simp] theorem dmaStore_status (s : State) (a : Nat) (bytes : List Byte) :
    (dmaStore s a bytes).status = s.status := rfl
@[simp] theorem dmaStore_errInfo (s : State) (a : Nat) (bytes : List Byte) :
    (dmaStore s a bytes).errInfo = s.errInfo := rfl
@[simp] theorem dmaStore_ie (s : State) (a : Nat) (bytes : List Byte) : (dmaStore s a bytes).ie = s.ie := rfl
@[simp] theorem dmaStore_blkcnt (s : State) (a : Nat) (bytes : List Byte) :
    (dmaStore s a bytes).blkcnt = s.blkcnt := rfl
@[simp] theorem dmaStore_desc (s : State) (a : Nat) (bytes : List Byte) :
    (dmaStore s a bytes).desc = s.desc := rfl
@[simp] theorem dmaStore_cmd (s : State) (a : Nat) (bytes : List Byte) : (dmaStore s a bytes).cmd = s.cmd := rfl
@[simp] theorem dmaStore_mem (s : State) (a : Nat) (bytes : List Byte) :
    (dmaStore s a bytes).mem = writeBytes s.mem a bytes := rfl
@[simp] theorem dmaStore_plat (s : State) (a : Nat) (bytes : List Byte) :
    (dmaStore s a bytes).plat = s.plat := rfl
@[simp] theorem dmaStore_dmaAnswers (s : State) (a : Nat) (bytes : List Byte) :
    (dmaStore s a bytes).dmaAnswers = s.dmaAnswers := rfl
@[simp] theorem dmaStore_events (s : State) (a : Nat) (bytes : List Byte) :
    (dmaStore s a bytes).events = s.events := rfl
@[simp] theorem dmaStore_raced (s : State) (a : Nat) (bytes : List Byte) :
    (dmaStore s a bytes).raced = s.raced := rfl
@[simp] theorem dmaStore_vis (s : State) (a : Nat) (bytes : List Byte) :
    (dmaStore s a bytes).vis =
      { s.vis with
        hostDirty := withoutRange s.vis.hostDirty a bytes.length
        unseen := withRange s.vis.unseen a bytes.length
        stale := withoutRange s.vis.stale a bytes.length } := rfl
@[simp] theorem dmaStore_busWord (s : State) (a : Nat) (bytes : List Byte) :
    (dmaStore s a bytes).busWord = s.busWord := rfl
@[simp] theorem dmaStore_busBytes (s : State) (a : Nat) (bytes : List Byte) :
    (dmaStore s a bytes).busBytes = s.busBytes := rfl
@[simp] theorem dmaStore_fresh (s : State) (a : Nat) (bytes : List Byte) :
    (dmaStore s a bytes).fresh = s.fresh := rfl
@[simp] theorem dmaStore_others (s : State) (a : Nat) (bytes : List Byte) :
    (dmaStore s a bytes).others = s.others := rfl

@[simp] theorem latchConstruct_ctx (le : Bool) (s : State) : (latchConstruct le s).ctx = s.ctx := rfl
@[simp] theorem latchConstruct_status (le : Bool) (s : State) : (latchConstruct le s).status = s.status := rfl
@[simp] theorem latchConstruct_errInfo (le : Bool) (s : State) :
    (latchConstruct le s).errInfo = s.errInfo := rfl
@[simp] theorem latchConstruct_ie (le : Bool) (s : State) : (latchConstruct le s).ie = s.ie := rfl
@[simp] theorem latchConstruct_blkcnt (le : Bool) (s : State) : (latchConstruct le s).blkcnt = s.blkcnt := rfl
@[simp] theorem latchConstruct_desc (le : Bool) (s : State) : (latchConstruct le s).desc = s.desc := rfl
@[simp] theorem latchConstruct_cmd (le : Bool) (s : State) :
    (latchConstruct le s).cmd =
      { s.cmd with
        opk := .constructPending, lka := s.desc.keyAddr, lkl := s.desc.keyLen.toNat, lca := s.desc.ctrAddr,
        lle := le } := rfl
@[simp] theorem latchConstruct_mem (le : Bool) (s : State) : (latchConstruct le s).mem = s.mem := rfl
@[simp] theorem latchConstruct_plat (le : Bool) (s : State) : (latchConstruct le s).plat = s.plat := rfl
@[simp] theorem latchConstruct_dmaAnswers (le : Bool) (s : State) :
    (latchConstruct le s).dmaAnswers = s.dmaAnswers := rfl
@[simp] theorem latchConstruct_events (le : Bool) (s : State) : (latchConstruct le s).events = s.events := rfl
@[simp] theorem latchConstruct_raced (le : Bool) (s : State) : (latchConstruct le s).raced = s.raced := rfl
@[simp] theorem latchConstruct_vis (le : Bool) (s : State) : (latchConstruct le s).vis = s.vis := rfl
@[simp] theorem latchConstruct_busWord (le : Bool) (s : State) :
    (latchConstruct le s).busWord = s.busWord := rfl
@[simp] theorem latchConstruct_busBytes (le : Bool) (s : State) :
    (latchConstruct le s).busBytes = s.busBytes := rfl
@[simp] theorem latchConstruct_fresh (le : Bool) (s : State) : (latchConstruct le s).fresh = s.fresh := rfl
@[simp] theorem latchConstruct_others (le : Bool) (s : State) : (latchConstruct le s).others = s.others := rfl

@[simp] theorem loadContext_ctx (key ctr : List Byte) (s : State) :
    (loadContext key ctr s).ctx =
      { ctr := blockOf ctr, key := keyStoreOf key, klen := s.cmd.lkl, le := s.cmd.lle, life := .active } := rfl
@[simp] theorem loadContext_status (key ctr : List Byte) (s : State) :
    (loadContext key ctr s).status = s.status := rfl
@[simp] theorem loadContext_errInfo (key ctr : List Byte) (s : State) :
    (loadContext key ctr s).errInfo = s.errInfo := rfl
@[simp] theorem loadContext_ie (key ctr : List Byte) (s : State) : (loadContext key ctr s).ie = s.ie := rfl
@[simp] theorem loadContext_blkcnt (key ctr : List Byte) (s : State) :
    (loadContext key ctr s).blkcnt = s.blkcnt := rfl
@[simp] theorem loadContext_desc (key ctr : List Byte) (s : State) :
    (loadContext key ctr s).desc = s.desc := rfl
@[simp] theorem loadContext_cmd (key ctr : List Byte) (s : State) : (loadContext key ctr s).cmd = s.cmd := rfl
@[simp] theorem loadContext_mem (key ctr : List Byte) (s : State) : (loadContext key ctr s).mem = s.mem := rfl
@[simp] theorem loadContext_plat (key ctr : List Byte) (s : State) :
    (loadContext key ctr s).plat = s.plat := rfl
@[simp] theorem loadContext_dmaAnswers (key ctr : List Byte) (s : State) :
    (loadContext key ctr s).dmaAnswers = s.dmaAnswers := rfl
@[simp] theorem loadContext_events (key ctr : List Byte) (s : State) :
    (loadContext key ctr s).events = s.events := rfl
@[simp] theorem loadContext_raced (key ctr : List Byte) (s : State) :
    (loadContext key ctr s).raced = s.raced := rfl
@[simp] theorem loadContext_vis (key ctr : List Byte) (s : State) : (loadContext key ctr s).vis = s.vis := rfl
@[simp] theorem loadContext_busWord (key ctr : List Byte) (s : State) :
    (loadContext key ctr s).busWord = s.busWord := rfl
@[simp] theorem loadContext_busBytes (key ctr : List Byte) (s : State) :
    (loadContext key ctr s).busBytes = s.busBytes := rfl
@[simp] theorem loadContext_fresh (key ctr : List Byte) (s : State) :
    (loadContext key ctr s).fresh = s.fresh := rfl
@[simp] theorem loadContext_others (key ctr : List Byte) (s : State) :
    (loadContext key ctr s).others = s.others := rfl

@[simp] theorem latchTransform_ctx (vec : Bool) (n : Nat) (s : State) :
    (latchTransform vec n s).ctx = s.ctx := rfl
@[simp] theorem latchTransform_status (vec : Bool) (n : Nat) (s : State) :
    (latchTransform vec n s).status = s.status := rfl
@[simp] theorem latchTransform_errInfo (vec : Bool) (n : Nat) (s : State) :
    (latchTransform vec n s).errInfo = s.errInfo := rfl
@[simp] theorem latchTransform_ie (vec : Bool) (n : Nat) (s : State) : (latchTransform vec n s).ie = s.ie := rfl
@[simp] theorem latchTransform_blkcnt (vec : Bool) (n : Nat) (s : State) :
    (latchTransform vec n s).blkcnt = s.blkcnt := rfl
@[simp] theorem latchTransform_desc (vec : Bool) (n : Nat) (s : State) :
    (latchTransform vec n s).desc = s.desc := rfl
@[simp] theorem latchTransform_cmd (vec : Bool) (n : Nat) (s : State) :
    (latchTransform vec n s).cmd =
      { s.cmd with
        opk := .transformPending, lsrc := s.desc.srcAddr, ldst := s.desc.dstAddr, ln := n, off := 0,
        lvec := vec } := rfl
@[simp] theorem latchTransform_mem (vec : Bool) (n : Nat) (s : State) :
    (latchTransform vec n s).mem = s.mem := rfl
@[simp] theorem latchTransform_plat (vec : Bool) (n : Nat) (s : State) :
    (latchTransform vec n s).plat = s.plat := rfl
@[simp] theorem latchTransform_dmaAnswers (vec : Bool) (n : Nat) (s : State) :
    (latchTransform vec n s).dmaAnswers = s.dmaAnswers := rfl
@[simp] theorem latchTransform_events (vec : Bool) (n : Nat) (s : State) :
    (latchTransform vec n s).events = s.events := rfl
@[simp] theorem latchTransform_raced (vec : Bool) (n : Nat) (s : State) :
    (latchTransform vec n s).raced = s.raced := rfl
@[simp] theorem latchTransform_vis (vec : Bool) (n : Nat) (s : State) :
    (latchTransform vec n s).vis = s.vis := rfl
@[simp] theorem latchTransform_busWord (vec : Bool) (n : Nat) (s : State) :
    (latchTransform vec n s).busWord = s.busWord := rfl
@[simp] theorem latchTransform_busBytes (vec : Bool) (n : Nat) (s : State) :
    (latchTransform vec n s).busBytes = s.busBytes := rfl
@[simp] theorem latchTransform_fresh (vec : Bool) (n : Nat) (s : State) :
    (latchTransform vec n s).fresh = s.fresh := rfl
@[simp] theorem latchTransform_others (vec : Bool) (n : Nat) (s : State) :
    (latchTransform vec n s).others = s.others := rfl

@[simp] theorem commitBlock_ctx (ctr' : Block) (m : Nat) (s : State) :
    (commitBlock ctr' m s).ctx = { s.ctx with ctr := ctr' } := rfl
@[simp] theorem commitBlock_status (ctr' : Block) (m : Nat) (s : State) :
    (commitBlock ctr' m s).status = s.status := rfl
@[simp] theorem commitBlock_errInfo (ctr' : Block) (m : Nat) (s : State) :
    (commitBlock ctr' m s).errInfo = s.errInfo := rfl
@[simp] theorem commitBlock_ie (ctr' : Block) (m : Nat) (s : State) : (commitBlock ctr' m s).ie = s.ie := rfl
@[simp] theorem commitBlock_blkcnt (ctr' : Block) (m : Nat) (s : State) :
    (commitBlock ctr' m s).blkcnt = s.blkcnt + 1 := rfl
@[simp] theorem commitBlock_desc (ctr' : Block) (m : Nat) (s : State) :
    (commitBlock ctr' m s).desc = s.desc := rfl
@[simp] theorem commitBlock_cmd (ctr' : Block) (m : Nat) (s : State) :
    (commitBlock ctr' m s).cmd = { s.cmd with off := s.cmd.off + m } := rfl
@[simp] theorem commitBlock_mem (ctr' : Block) (m : Nat) (s : State) : (commitBlock ctr' m s).mem = s.mem := rfl
@[simp] theorem commitBlock_plat (ctr' : Block) (m : Nat) (s : State) :
    (commitBlock ctr' m s).plat = s.plat := rfl
@[simp] theorem commitBlock_dmaAnswers (ctr' : Block) (m : Nat) (s : State) :
    (commitBlock ctr' m s).dmaAnswers = s.dmaAnswers := rfl
@[simp] theorem commitBlock_events (ctr' : Block) (m : Nat) (s : State) :
    (commitBlock ctr' m s).events = s.events := rfl
@[simp] theorem commitBlock_raced (ctr' : Block) (m : Nat) (s : State) :
    (commitBlock ctr' m s).raced = s.raced := rfl
@[simp] theorem commitBlock_vis (ctr' : Block) (m : Nat) (s : State) : (commitBlock ctr' m s).vis = s.vis := rfl
@[simp] theorem commitBlock_busWord (ctr' : Block) (m : Nat) (s : State) :
    (commitBlock ctr' m s).busWord = s.busWord := rfl
@[simp] theorem commitBlock_busBytes (ctr' : Block) (m : Nat) (s : State) :
    (commitBlock ctr' m s).busBytes = s.busBytes := rfl
@[simp] theorem commitBlock_fresh (ctr' : Block) (m : Nat) (s : State) :
    (commitBlock ctr' m s).fresh = s.fresh := rfl
@[simp] theorem commitBlock_others (ctr' : Block) (m : Nat) (s : State) :
    (commitBlock ctr' m s).others = s.others := rfl

@[simp] theorem maintainRange_ctx (a n : Nat) (s : State) : (maintainRange a n s).ctx = s.ctx := rfl
@[simp] theorem maintainRange_status (a n : Nat) (s : State) : (maintainRange a n s).status = s.status := rfl
@[simp] theorem maintainRange_errInfo (a n : Nat) (s : State) : (maintainRange a n s).errInfo = s.errInfo := rfl
@[simp] theorem maintainRange_ie (a n : Nat) (s : State) : (maintainRange a n s).ie = s.ie := rfl
@[simp] theorem maintainRange_blkcnt (a n : Nat) (s : State) : (maintainRange a n s).blkcnt = s.blkcnt := rfl
@[simp] theorem maintainRange_desc (a n : Nat) (s : State) : (maintainRange a n s).desc = s.desc := rfl
@[simp] theorem maintainRange_cmd (a n : Nat) (s : State) : (maintainRange a n s).cmd = s.cmd := rfl
@[simp] theorem maintainRange_mem (a n : Nat) (s : State) : (maintainRange a n s).mem = s.mem := rfl
@[simp] theorem maintainRange_plat (a n : Nat) (s : State) : (maintainRange a n s).plat = s.plat := rfl
@[simp] theorem maintainRange_dmaAnswers (a n : Nat) (s : State) :
    (maintainRange a n s).dmaAnswers = s.dmaAnswers := rfl
@[simp] theorem maintainRange_events (a n : Nat) (s : State) : (maintainRange a n s).events = s.events := rfl
@[simp] theorem maintainRange_raced (a n : Nat) (s : State) : (maintainRange a n s).raced = s.raced := rfl
@[simp] theorem maintainRange_vis (a n : Nat) (s : State) :
    (maintainRange a n s).vis =
      { s.vis with hostDirty := withoutRange s.vis.hostDirty a n, stale := withoutRange s.vis.stale a n } := rfl
@[simp] theorem maintainRange_busWord (a n : Nat) (s : State) : (maintainRange a n s).busWord = s.busWord := rfl
@[simp] theorem maintainRange_busBytes (a n : Nat) (s : State) :
    (maintainRange a n s).busBytes = s.busBytes := rfl
@[simp] theorem maintainRange_fresh (a n : Nat) (s : State) : (maintainRange a n s).fresh = s.fresh := rfl
@[simp] theorem maintainRange_others (a n : Nat) (s : State) : (maintainRange a n s).others = s.others := rfl

@[simp] theorem markOthers_ctx (hit : OtherCommand → Bool) (s : State) : (markOthers hit s).ctx = s.ctx := rfl
@[simp] theorem markOthers_status (hit : OtherCommand → Bool) (s : State) :
    (markOthers hit s).status = s.status := rfl
@[simp] theorem markOthers_errInfo (hit : OtherCommand → Bool) (s : State) :
    (markOthers hit s).errInfo = s.errInfo := rfl
@[simp] theorem markOthers_ie (hit : OtherCommand → Bool) (s : State) : (markOthers hit s).ie = s.ie := rfl
@[simp] theorem markOthers_blkcnt (hit : OtherCommand → Bool) (s : State) :
    (markOthers hit s).blkcnt = s.blkcnt := rfl
@[simp] theorem markOthers_desc (hit : OtherCommand → Bool) (s : State) : (markOthers hit s).desc = s.desc := rfl
@[simp] theorem markOthers_cmd (hit : OtherCommand → Bool) (s : State) : (markOthers hit s).cmd = s.cmd := rfl
@[simp] theorem markOthers_mem (hit : OtherCommand → Bool) (s : State) : (markOthers hit s).mem = s.mem := rfl
@[simp] theorem markOthers_plat (hit : OtherCommand → Bool) (s : State) : (markOthers hit s).plat = s.plat := rfl
@[simp] theorem markOthers_dmaAnswers (hit : OtherCommand → Bool) (s : State) :
    (markOthers hit s).dmaAnswers = s.dmaAnswers := rfl
@[simp] theorem markOthers_events (hit : OtherCommand → Bool) (s : State) :
    (markOthers hit s).events = s.events := rfl
@[simp] theorem markOthers_raced (hit : OtherCommand → Bool) (s : State) : (markOthers hit s).raced = s.raced := rfl
@[simp] theorem markOthers_vis (hit : OtherCommand → Bool) (s : State) : (markOthers hit s).vis = s.vis := rfl
@[simp] theorem markOthers_busWord (hit : OtherCommand → Bool) (s : State) :
    (markOthers hit s).busWord = s.busWord := rfl
@[simp] theorem markOthers_busBytes (hit : OtherCommand → Bool) (s : State) :
    (markOthers hit s).busBytes = s.busBytes := rfl
@[simp] theorem markOthers_fresh (hit : OtherCommand → Bool) (s : State) : (markOthers hit s).fresh = s.fresh := rfl
@[simp] theorem markOthers_others (hit : OtherCommand → Bool) (s : State) :
    (markOthers hit s).others = s.others.map fun o => { o with raced := o.raced || hit o } := rfl

@[simp] theorem raceOthers_ctx (who : Master) (met : OtherCommand → Bool) (ours : Bool) (s : State) :
    (raceOthers who met ours s).ctx = s.ctx := rfl
@[simp] theorem raceOthers_status (who : Master) (met : OtherCommand → Bool) (ours : Bool) (s : State) :
    (raceOthers who met ours s).status = s.status := rfl
@[simp] theorem raceOthers_errInfo (who : Master) (met : OtherCommand → Bool) (ours : Bool) (s : State) :
    (raceOthers who met ours s).errInfo = s.errInfo := rfl
@[simp] theorem raceOthers_ie (who : Master) (met : OtherCommand → Bool) (ours : Bool) (s : State) :
    (raceOthers who met ours s).ie = s.ie := rfl
@[simp] theorem raceOthers_blkcnt (who : Master) (met : OtherCommand → Bool) (ours : Bool) (s : State) :
    (raceOthers who met ours s).blkcnt = s.blkcnt := rfl
@[simp] theorem raceOthers_desc (who : Master) (met : OtherCommand → Bool) (ours : Bool) (s : State) :
    (raceOthers who met ours s).desc = s.desc := rfl
@[simp] theorem raceOthers_cmd (who : Master) (met : OtherCommand → Bool) (ours : Bool) (s : State) :
    (raceOthers who met ours s).cmd = s.cmd := rfl
@[simp] theorem raceOthers_mem (who : Master) (met : OtherCommand → Bool) (ours : Bool) (s : State) :
    (raceOthers who met ours s).mem = s.mem := rfl
@[simp] theorem raceOthers_plat (who : Master) (met : OtherCommand → Bool) (ours : Bool) (s : State) :
    (raceOthers who met ours s).plat = s.plat := rfl
@[simp] theorem raceOthers_dmaAnswers (who : Master) (met : OtherCommand → Bool) (ours : Bool) (s : State) :
    (raceOthers who met ours s).dmaAnswers = s.dmaAnswers := rfl
@[simp] theorem raceOthers_events (who : Master) (met : OtherCommand → Bool) (ours : Bool) (s : State) :
    (raceOthers who met ours s).events = s.events := rfl
@[simp] theorem raceOthers_raced (who : Master) (met : OtherCommand → Bool) (ours : Bool) (s : State) :
    (raceOthers who met ours s).raced = s.raced := rfl
@[simp] theorem raceOthers_vis (who : Master) (met : OtherCommand → Bool) (ours : Bool) (s : State) :
    (raceOthers who met ours s).vis = s.vis := rfl
@[simp] theorem raceOthers_busWord (who : Master) (met : OtherCommand → Bool) (ours : Bool) (s : State) :
    (raceOthers who met ours s).busWord = s.busWord := rfl
@[simp] theorem raceOthers_busBytes (who : Master) (met : OtherCommand → Bool) (ours : Bool) (s : State) :
    (raceOthers who met ours s).busBytes = s.busBytes := rfl
@[simp] theorem raceOthers_fresh (who : Master) (met : OtherCommand → Bool) (ours : Bool) (s : State) :
    (raceOthers who met ours s).fresh = s.fresh := rfl

end Sys2Proof.Machine
end

