-- ==== Sys2Proof/Laws/Ops.lean ====
section
/-! SUPPORT. What each shared operation can do: one lemma per operation, which later proofs cite instead of
unfolding it. -/

namespace Sys2Proof.Machine

variable {α β : Type}

/-- A sequence of two operations answers a next value only if both do. -/
theorem andThen_next {o : Host.Outcome α Fault Refusal} {k : α → Host.Outcome β Fault Refusal} {b : β} :
    andThen o k = .next b ↔ ∃ a, o = .next a ∧ k a = .next b := by
  cases o <;> simp [andThen]

/-- A sequence of two operations faults only if one of them does. -/
theorem andThen_fault {o : Host.Outcome α Fault Refusal} {k : α → Host.Outcome β Fault Refusal} {f : Fault} :
    andThen o k = .fault f ↔ o = .fault f ∨ ∃ a, o = .next a ∧ k a = .fault f := by
  cases o <;> simp [andThen]

@[simp] theorem andThen_of_next (a : α) (k : α → Host.Outcome β Fault Refusal) :
    andThen (.next a) k = k a := rfl

@[simp] theorem busy_eq_false (s : State) : busy s = false ↔ s.cmd.opk = .idle := by
  simp [busy]

theorem submit_idle {s : State} (h : s.cmd.opk = .idle) (accepted : State → State) :
    submit s accepted = accepted (beginCommand s) := by
  simp [submit, busy, h]

theorem submit_busy {s : State} (h : s.cmd.opk ≠ .idle) (accepted : State → State) :
    submit s accepted = dropCommand s := by
  simp [submit, busy, h]

/-- The bytes of a run of free values. -/
@[simp] theorem freeBytes_length (k n : Nat) : (freeBytes k n).length = n := by simp [freeBytes]

/-- All that a data race changes: the race mark, the free counter, and the output range of a pending TRANSFORM
(R79). -/
theorem corrupt_cases (s : State) :
    (s.cmd.opk = .idle ∧ corrupt s = s) ∨
    (s.cmd.opk = .constructPending ∧ corrupt s = { s with raced := true }) ∨
    (s.cmd.opk = .transformPending ∧ corrupt s =
      { s with
        raced := true
        mem := writeBytes s.mem s.cmd.ldst.toNat (freeBytes s.fresh s.cmd.ln)
        fresh := s.fresh + s.cmd.ln }) := by
  unfold corrupt
  cases h : s.cmd.opk <;> simp

@[simp] theorem corrupt_ctx (s : State) : (corrupt s).ctx = s.ctx := by unfold corrupt; split <;> rfl
@[simp] theorem corrupt_status (s : State) : (corrupt s).status = s.status := by unfold corrupt; split <;> rfl
@[simp] theorem corrupt_errInfo (s : State) : (corrupt s).errInfo = s.errInfo := by
  unfold corrupt; split <;> rfl
@[simp] theorem corrupt_ie (s : State) : (corrupt s).ie = s.ie := by unfold corrupt; split <;> rfl
@[simp] theorem corrupt_blkcnt (s : State) : (corrupt s).blkcnt = s.blkcnt := by unfold corrupt; split <;> rfl
@[simp] theorem corrupt_desc (s : State) : (corrupt s).desc = s.desc := by unfold corrupt; split <;> rfl
@[simp] theorem corrupt_cmd (s : State) : (corrupt s).cmd = s.cmd := by unfold corrupt; split <;> rfl
@[simp] theorem corrupt_plat (s : State) : (corrupt s).plat = s.plat := by unfold corrupt; split <;> rfl
@[simp] theorem corrupt_dmaAnswers (s : State) : (corrupt s).dmaAnswers = s.dmaAnswers := by
  unfold corrupt; split <;> rfl
@[simp] theorem corrupt_events (s : State) : (corrupt s).events = s.events := by unfold corrupt; split <;> rfl
@[simp] theorem corrupt_vis (s : State) : (corrupt s).vis = s.vis := by unfold corrupt; split <;> rfl
@[simp] theorem corrupt_busWord (s : State) : (corrupt s).busWord = s.busWord := by
  unfold corrupt; split <;> rfl
@[simp] theorem corrupt_busBytes (s : State) : (corrupt s).busBytes = s.busBytes := by
  unfold corrupt; split <;> rfl

@[simp] theorem corrupt_others (s : State) : (corrupt s).others = s.others := by unfold corrupt; split <;> rfl

/-- A data race keeps memory's canonical form. -/
theorem corrupt_mem_wf (s : State) (h : Memory.wf s.mem = true) : Memory.wf (corrupt s).mem = true := by
  rcases corrupt_cases s with ⟨-, e⟩ | ⟨-, e⟩ | ⟨-, e⟩ <;> rw [e]
  · exact h
  · exact h
  · exact writeBytes_wf _ _ _ h

/-- A data race touches no byte outside the output range of a pending TRANSFORM (R79). -/
theorem corrupt_mem_outside (s : State) (h : Memory.wf s.mem = true) (a : Nat)
    (ha : s.cmd.opk = .transformPending → inRange s.cmd.ldst.toNat s.cmd.ln a = false) :
    readByte (corrupt s).mem a = readByte s.mem a := by
  rcases corrupt_cases s with ⟨-, e⟩ | ⟨-, e⟩ | ⟨hk, e⟩ <;> rw [e]
  exact readByte_writeBytes_outside _ _ h _ _ (by rw [freeBytes_length]; exact ha hk)

/-- All that a request can do beside its own effect: nothing, or what a race does, with the other side's commands
marked (R77, R81). -/
theorem meetOthers_cases (missed : Bool) (met : OtherCommand → Bool) (s : State) :
    meetOthers missed met s = s ∨ meetOthers missed met s = corrupt (markOthers met s) := by
  unfold meetOthers
  split
  · exact .inr rfl
  · exact .inl rfl

@[simp] theorem meetOthers_ctx (missed : Bool) (met : OtherCommand → Bool) (s : State) :
    (meetOthers missed met s).ctx = s.ctx := by
  rcases meetOthers_cases missed met s with e | e <;> simp [e]
@[simp] theorem meetOthers_status (missed : Bool) (met : OtherCommand → Bool) (s : State) :
    (meetOthers missed met s).status = s.status := by
  rcases meetOthers_cases missed met s with e | e <;> simp [e]
@[simp] theorem meetOthers_errInfo (missed : Bool) (met : OtherCommand → Bool) (s : State) :
    (meetOthers missed met s).errInfo = s.errInfo := by
  rcases meetOthers_cases missed met s with e | e <;> simp [e]
@[simp] theorem meetOthers_ie (missed : Bool) (met : OtherCommand → Bool) (s : State) :
    (meetOthers missed met s).ie = s.ie := by
  rcases meetOthers_cases missed met s with e | e <;> simp [e]
@[simp] theorem meetOthers_blkcnt (missed : Bool) (met : OtherCommand → Bool) (s : State) :
    (meetOthers missed met s).blkcnt = s.blkcnt := by
  rcases meetOthers_cases missed met s with e | e <;> simp [e]
@[simp] theorem meetOthers_desc (missed : Bool) (met : OtherCommand → Bool) (s : State) :
    (meetOthers missed met s).desc = s.desc := by
  rcases meetOthers_cases missed met s with e | e <;> simp [e]
@[simp] theorem meetOthers_cmd (missed : Bool) (met : OtherCommand → Bool) (s : State) :
    (meetOthers missed met s).cmd = s.cmd := by
  rcases meetOthers_cases missed met s with e | e <;> simp [e]
@[simp] theorem meetOthers_plat (missed : Bool) (met : OtherCommand → Bool) (s : State) :
    (meetOthers missed met s).plat = s.plat := by
  rcases meetOthers_cases missed met s with e | e <;> simp [e]
@[simp] theorem meetOthers_dmaAnswers (missed : Bool) (met : OtherCommand → Bool) (s : State) :
    (meetOthers missed met s).dmaAnswers = s.dmaAnswers := by
  rcases meetOthers_cases missed met s with e | e <;> simp [e]
@[simp] theorem meetOthers_events (missed : Bool) (met : OtherCommand → Bool) (s : State) :
    (meetOthers missed met s).events = s.events := by
  rcases meetOthers_cases missed met s with e | e <;> simp [e]
@[simp] theorem meetOthers_vis (missed : Bool) (met : OtherCommand → Bool) (s : State) :
    (meetOthers missed met s).vis = s.vis := by
  rcases meetOthers_cases missed met s with e | e <;> simp [e]
@[simp] theorem meetOthers_busWord (missed : Bool) (met : OtherCommand → Bool) (s : State) :
    (meetOthers missed met s).busWord = s.busWord := by
  rcases meetOthers_cases missed met s with e | e <;> simp [e]
@[simp] theorem meetOthers_busBytes (missed : Bool) (met : OtherCommand → Bool) (s : State) :
    (meetOthers missed met s).busBytes = s.busBytes := by
  rcases meetOthers_cases missed met s with e | e <;> simp [e]

/-- A request that meets no other command and misses nothing changes nothing beside its own effect. -/
theorem meetOthers_of_apart {met : OtherCommand → Bool} {s : State} (h : ∀ o ∈ s.others, met o = false) :
    meetOthers false met s = s := by
  have : s.others.any met = false := by simpa using h
  simp [meetOthers, this]

/-- A request that is a race marks the command in progress. -/
theorem meetOthers_raced {missed : Bool} {met : OtherCommand → Bool} {s : State} (hk : s.cmd.opk ≠ .idle)
    (h : missed = true ∨ ∃ o ∈ s.others, met o = true) : (meetOthers missed met s).raced = true := by
  have : (missed || s.others.any met) = true := by simpa using h
  rw [meetOthers, if_pos this]
  rcases corrupt_cases (markOthers met s) with ⟨h, -⟩ | ⟨-, e⟩ | ⟨-, e⟩
  · exact absurd h hk
  · rw [e]
  · rw [e]

/-- Each other command is as it was, or marked where the request meets it. -/
theorem meetOthers_others (missed : Bool) (met : OtherCommand → Bool) (s : State) :
    (meetOthers missed met s).others = s.others.map fun o => { o with raced := o.raced || met o } := by
  unfold meetOthers
  split
  · simp
  · next h =>
    have hn : ∀ o ∈ s.others, met o = false := by
      intro o ho
      cases hm : met o
      · rfl
      · exact absurd (by rw [List.any_eq_true.mpr ⟨o, ho, hm⟩, Bool.or_true]) h
    exact (List.map_id'' (fun o => rfl) s.others).symm.trans
      (List.map_congr_left fun o ho => by rw [hn o ho, Bool.or_false])

/-- A race of a request keeps memory's canonical form. -/
theorem meetOthers_mem_wf (missed : Bool) (met : OtherCommand → Bool) {s : State} (h : Memory.wf s.mem = true) :
    Memory.wf (meetOthers missed met s).mem = true := by
  rcases meetOthers_cases missed met s with e | e <;> rw [e]
  · exact h
  · exact corrupt_mem_wf (markOthers met s) h

/-- A race of a request touches no byte outside the output range of a pending TRANSFORM (R79). -/
theorem meetOthers_mem_outside (missed : Bool) (met : OtherCommand → Bool) (s : State)
    (h : Memory.wf s.mem = true) (a : Nat)
    (ha : s.cmd.opk = .transformPending → inRange s.cmd.ldst.toNat s.cmd.ln a = false) :
    readByte (meetOthers missed met s).mem a = readByte s.mem a := by
  rcases meetOthers_cases missed met s with e | e <;> rw [e]
  exact corrupt_mem_outside (markOthers met s) h a ha

/-- The state after one DMA answer was taken and nothing else happened. -/
def tookAnswer (s : State) : State := { s with dmaAnswers := s.dmaAnswers.tail }

@[simp] theorem tookAnswer_ctx (s : State) : (tookAnswer s).ctx = s.ctx := rfl
@[simp] theorem tookAnswer_status (s : State) : (tookAnswer s).status = s.status := rfl
@[simp] theorem tookAnswer_errInfo (s : State) : (tookAnswer s).errInfo = s.errInfo := rfl
@[simp] theorem tookAnswer_ie (s : State) : (tookAnswer s).ie = s.ie := rfl
@[simp] theorem tookAnswer_blkcnt (s : State) : (tookAnswer s).blkcnt = s.blkcnt := rfl
@[simp] theorem tookAnswer_desc (s : State) : (tookAnswer s).desc = s.desc := rfl
@[simp] theorem tookAnswer_cmd (s : State) : (tookAnswer s).cmd = s.cmd := rfl
@[simp] theorem tookAnswer_mem (s : State) : (tookAnswer s).mem = s.mem := rfl
@[simp] theorem tookAnswer_plat (s : State) : (tookAnswer s).plat = s.plat := rfl
@[simp] theorem tookAnswer_events (s : State) : (tookAnswer s).events = s.events := rfl
@[simp] theorem tookAnswer_raced (s : State) : (tookAnswer s).raced = s.raced := rfl
@[simp] theorem tookAnswer_vis (s : State) : (tookAnswer s).vis = s.vis := rfl
@[simp] theorem tookAnswer_busWord (s : State) : (tookAnswer s).busWord = s.busWord := rfl
@[simp] theorem tookAnswer_busBytes (s : State) : (tookAnswer s).busBytes = s.busBytes := rfl
@[simp] theorem tookAnswer_fresh (s : State) : (tookAnswer s).fresh = s.fresh := rfl
@[simp] theorem tookAnswer_dmaAnswers (s : State) : (tookAnswer s).dmaAnswers = s.dmaAnswers.tail := rfl
@[simp] theorem tookAnswer_others (s : State) : (tookAnswer s).others = s.others := rfl

/-- The state after an admitted DMA read (R77, R81). -/
def afterRead (s : State) (a n : Nat) : State :=
  meetOthers (dmaMisses s a n) (metByRead a n) (tookAnswer s)

/-- The state after an admitted DMA write (R63, R81). -/
def afterWrite (s : State) (a : Nat) (bytes : List Byte) : State :=
  meetOthers false (metByWrite a bytes.length) (dmaStore (tookAnswer s) a bytes)

/-- Without a range with side effects, no request meets one (R72). -/
theorem touchesDevice_of_none {p : Platform} (h : p.devices = []) (a n : Nat) : touchesDevice p a n = false := by
  rw [touchesDevice, h]
  rfl

/-- Every way a DMA request can end (R60, R70, R72): outside memory, refused, at a device, or admitted. -/
theorem dmaAsk_cases (s : State) (a n : Nat) :
    (memSize s.plat < a + n ∧ dmaAsk s a n = .fault .dmaOutsideMemory) ∨
    (a + n ≤ memSize s.plat ∧ dmaAdmits s = false ∧
      dmaAsk s a n = .next (false, tookAnswer s)) ∨
    (a + n ≤ memSize s.plat ∧ dmaAdmits s = true ∧ touchesDevice s.plat a n = true ∧
      dmaAsk s a n = .refused .dmaToDevice) ∨
    (a + n ≤ memSize s.plat ∧ dmaAdmits s = true ∧ touchesDevice s.plat a n = false ∧
      dmaAsk s a n = .next (true, tookAnswer s)) := by
  unfold dmaAsk
  by_cases h1 : memSize s.plat < a + n
  · simp [h1]
  · have h1' := Nat.not_lt.mp h1
    cases h2 : dmaAdmits s <;> cases h3 : touchesDevice s.plat a n <;> simp [h1, h1', tookAnswer]

/-- Every way a DMA read can end (R70, R77). -/
theorem dmaRead_cases (s : State) (a n : Nat) :
    (memSize s.plat < a + n ∧ dmaRead s a n = .fault .dmaOutsideMemory) ∨
    (a + n ≤ memSize s.plat ∧ dmaAdmits s = false ∧
      dmaRead s a n = .next (none, tookAnswer s)) ∨
    (a + n ≤ memSize s.plat ∧ dmaAdmits s = true ∧ touchesDevice s.plat a n = true ∧
      dmaRead s a n = .refused .dmaToDevice) ∨
    (a + n ≤ memSize s.plat ∧ dmaAdmits s = true ∧ touchesDevice s.plat a n = false ∧
      dmaRead s a n = .next (some (readBytes s.mem a n), afterRead s a n)) := by
  unfold dmaRead
  rcases dmaAsk_cases s a n with ⟨h, e⟩ | ⟨h1, h2, e⟩ | ⟨h1, h2, h3, e⟩ | ⟨h1, h2, h3, e⟩ <;> rw [e]
  · exact .inl ⟨h, rfl⟩
  · exact .inr (.inl ⟨h1, h2, rfl⟩)
  · exact .inr (.inr (.inl ⟨h1, h2, h3, rfl⟩))
  · exact .inr (.inr (.inr ⟨h1, h2, h3, rfl⟩))

/-- Every way a DMA write can end (R70). -/
theorem dmaWrite_cases (s : State) (a : Nat) (bytes : List Byte) :
    (memSize s.plat < a + bytes.length ∧ dmaWrite s a bytes = .fault .dmaOutsideMemory) ∨
    (a + bytes.length ≤ memSize s.plat ∧ dmaAdmits s = false ∧
      dmaWrite s a bytes = .next (false, tookAnswer s)) ∨
    (a + bytes.length ≤ memSize s.plat ∧ dmaAdmits s = true ∧ touchesDevice s.plat a bytes.length = true ∧
      dmaWrite s a bytes = .refused .dmaToDevice) ∨
    (a + bytes.length ≤ memSize s.plat ∧ dmaAdmits s = true ∧ touchesDevice s.plat a bytes.length = false ∧
      dmaWrite s a bytes =
        .next (true, afterWrite s a bytes)) := by
  unfold dmaWrite
  rcases dmaAsk_cases s a bytes.length with ⟨h, e⟩ | ⟨h1, h2, e⟩ | ⟨h1, h2, h3, e⟩ | ⟨h1, h2, h3, e⟩ <;> rw [e]
  · exact .inl ⟨h, rfl⟩
  · exact .inr (.inl ⟨h1, h2, rfl⟩)
  · exact .inr (.inr (.inl ⟨h1, h2, h3, rfl⟩))
  · exact .inr (.inr (.inr ⟨h1, h2, h3, rfl⟩))

/-- A DMA read changes nothing but the platform's answers and, where it is a race, what a race changes. -/
theorem afterRead_cases (s : State) (a n : Nat) :
    afterRead s a n = tookAnswer s ∨ afterRead s a n = corrupt (markOthers (metByRead a n) (tookAnswer s)) :=
  meetOthers_cases _ _ _

@[simp] theorem afterRead_ctx (s : State) (a n : Nat) : (afterRead s a n).ctx = s.ctx :=
  meetOthers_ctx _ _ _
@[simp] theorem afterRead_status (s : State) (a n : Nat) : (afterRead s a n).status = s.status :=
  meetOthers_status _ _ _
@[simp] theorem afterRead_errInfo (s : State) (a n : Nat) : (afterRead s a n).errInfo = s.errInfo :=
  meetOthers_errInfo _ _ _
@[simp] theorem afterRead_ie (s : State) (a n : Nat) : (afterRead s a n).ie = s.ie :=
  meetOthers_ie _ _ _
@[simp] theorem afterRead_blkcnt (s : State) (a n : Nat) : (afterRead s a n).blkcnt = s.blkcnt :=
  meetOthers_blkcnt _ _ _
@[simp] theorem afterRead_desc (s : State) (a n : Nat) : (afterRead s a n).desc = s.desc :=
  meetOthers_desc _ _ _
@[simp] theorem afterRead_cmd (s : State) (a n : Nat) : (afterRead s a n).cmd = s.cmd :=
  meetOthers_cmd _ _ _
@[simp] theorem afterRead_plat (s : State) (a n : Nat) : (afterRead s a n).plat = s.plat :=
  meetOthers_plat _ _ _
@[simp] theorem afterRead_events (s : State) (a n : Nat) : (afterRead s a n).events = s.events :=
  meetOthers_events _ _ _
@[simp] theorem afterRead_vis (s : State) (a n : Nat) : (afterRead s a n).vis = s.vis :=
  meetOthers_vis _ _ _
@[simp] theorem afterRead_busWord (s : State) (a n : Nat) : (afterRead s a n).busWord = s.busWord :=
  meetOthers_busWord _ _ _
@[simp] theorem afterRead_busBytes (s : State) (a n : Nat) : (afterRead s a n).busBytes = s.busBytes :=
  meetOthers_busBytes _ _ _
@[simp] theorem afterRead_dmaAnswers (s : State) (a n : Nat) :
    (afterRead s a n).dmaAnswers = s.dmaAnswers.tail :=
  meetOthers_dmaAnswers _ _ _
@[simp] theorem afterRead_others (s : State) (a n : Nat) :
    (afterRead s a n).others = s.others.map fun o => { o with raced := o.raced || metByRead a n o } :=
  meetOthers_others _ _ _

/-- A DMA read that misses nothing and meets no other command leaves only its answer behind. -/
theorem afterRead_of_seen (s : State) (a n : Nat) (h : dmaMisses s a n = false)
    (ho : ∀ o ∈ s.others, metByRead a n o = false) : afterRead s a n = tookAnswer s := by
  rw [afterRead, h]
  exact meetOthers_of_apart ho

/-- A DMA read keeps memory's canonical form. -/
theorem afterRead_mem_wf (s : State) (a n : Nat) (h : Memory.wf s.mem = true) :
    Memory.wf (afterRead s a n).mem = true :=
  meetOthers_mem_wf _ _ h

/-- A DMA write stores its bytes and, where it is a race, does what a race does. -/
theorem afterWrite_cases (s : State) (a : Nat) (bytes : List Byte) :
    afterWrite s a bytes = dmaStore (tookAnswer s) a bytes ∨
    afterWrite s a bytes =
      corrupt (markOthers (metByWrite a bytes.length) (dmaStore (tookAnswer s) a bytes)) :=
  meetOthers_cases _ _ _

@[simp] theorem afterWrite_ctx (s : State) (a : Nat) (bytes : List Byte) :
    (afterWrite s a bytes).ctx = s.ctx :=
  meetOthers_ctx _ _ _
@[simp] theorem afterWrite_status (s : State) (a : Nat) (bytes : List Byte) :
    (afterWrite s a bytes).status = s.status :=
  meetOthers_status _ _ _
@[simp] theorem afterWrite_errInfo (s : State) (a : Nat) (bytes : List Byte) :
    (afterWrite s a bytes).errInfo = s.errInfo :=
  meetOthers_errInfo _ _ _
@[simp] theorem afterWrite_ie (s : State) (a : Nat) (bytes : List Byte) :
    (afterWrite s a bytes).ie = s.ie :=
  meetOthers_ie _ _ _
@[simp] theorem afterWrite_blkcnt (s : State) (a : Nat) (bytes : List Byte) :
    (afterWrite s a bytes).blkcnt = s.blkcnt :=
  meetOthers_blkcnt _ _ _
@[simp] theorem afterWrite_desc (s : State) (a : Nat) (bytes : List Byte) :
    (afterWrite s a bytes).desc = s.desc :=
  meetOthers_desc _ _ _
@[simp] theorem afterWrite_cmd (s : State) (a : Nat) (bytes : List Byte) :
    (afterWrite s a bytes).cmd = s.cmd :=
  meetOthers_cmd _ _ _
@[simp] theorem afterWrite_plat (s : State) (a : Nat) (bytes : List Byte) :
    (afterWrite s a bytes).plat = s.plat :=
  meetOthers_plat _ _ _
@[simp] theorem afterWrite_events (s : State) (a : Nat) (bytes : List Byte) :
    (afterWrite s a bytes).events = s.events :=
  meetOthers_events _ _ _
@[simp] theorem afterWrite_busWord (s : State) (a : Nat) (bytes : List Byte) :
    (afterWrite s a bytes).busWord = s.busWord :=
  meetOthers_busWord _ _ _
@[simp] theorem afterWrite_busBytes (s : State) (a : Nat) (bytes : List Byte) :
    (afterWrite s a bytes).busBytes = s.busBytes :=
  meetOthers_busBytes _ _ _
@[simp] theorem afterWrite_dmaAnswers (s : State) (a : Nat) (bytes : List Byte) :
    (afterWrite s a bytes).dmaAnswers = s.dmaAnswers.tail :=
  meetOthers_dmaAnswers _ _ _
@[simp] theorem afterWrite_others (s : State) (a : Nat) (bytes : List Byte) :
    (afterWrite s a bytes).others =
      s.others.map fun o => { o with raced := o.raced || metByWrite a bytes.length o } :=
  meetOthers_others _ _ _

/-- A DMA write that meets no other command leaves only its answer and its bytes behind. -/
theorem afterWrite_of_apart (s : State) (a : Nat) (bytes : List Byte)
    (ho : ∀ o ∈ s.others, metByWrite a bytes.length o = false) :
    afterWrite s a bytes = dmaStore (tookAnswer s) a bytes :=
  meetOthers_of_apart ho

/-- A DMA write keeps memory's canonical form. -/
theorem afterWrite_mem_wf (s : State) (a : Nat) (bytes : List Byte) (h : Memory.wf s.mem = true) :
    Memory.wf (afterWrite s a bytes).mem = true :=
  meetOthers_mem_wf _ _ (writeBytes_wf _ _ _ h)

/-- DMA sees every host write where the platform is coherent or nothing is dirty (R77). -/
theorem dmaMisses_of_seen (s : State) (a n : Nat) (h : s.plat.coherent = true ∨ s.vis.hostDirty = []) :
    dmaMisses s a n = false := by
  rcases h with h | h <;> simp [dmaMisses, h]

/-- ERRINFO holds class 0 exactly after a success (R31, R262). -/
theorem Completion.cls_eq_zero (c : Completion) : c.code.cls = 0 ↔ c = .ok := by cases c <;> decide

end Sys2Proof.Machine
end

