-- ==== Sys2Proof/Laws/Engine.lean ====
section
/-! SUPPORT. What an engine step can do: one lemma for the CONSTRUCT load step and one for the TRANSFORM block
step, saying every outcome (spec/40_construct.md R121, 43_transform.md R181). -/

namespace Sys2Proof.Machine

/-- Every next state of the load step: the key read refused, the counter read refused, or the context loaded
(R121). -/
theorem constructLoad_next {s t : State} (h : constructLoad s = .next t) :
    t = complete .busRead (tookAnswer s) ∨
    t = complete .busRead (tookAnswer (afterRead s s.cmd.lka.toNat s.cmd.lkl)) ∨
    t = finishLoad (readBytes s.mem s.cmd.lka.toNat s.cmd.lkl)
      (readBytes (afterRead s s.cmd.lka.toNat s.cmd.lkl).mem s.cmd.lca.toNat 16)
      (afterRead (afterRead s s.cmd.lka.toNat s.cmd.lkl) s.cmd.lca.toNat 16) := by
  obtain ⟨⟨k, s1⟩, hk, hrest⟩ := andThen_next.mp h
  rcases dmaRead_cases s s.cmd.lka.toNat s.cmd.lkl with
    ⟨-, e⟩ | ⟨-, -, e⟩ | ⟨-, -, -, e⟩ | ⟨-, -, -, e⟩ <;> rw [e] at hk <;> cases hk
  · cases hrest
    exact .inl rfl
  · obtain ⟨⟨c, s2⟩, hc, hrest⟩ := andThen_next.mp hrest
    simp only [afterRead_cmd] at hc
    rcases dmaRead_cases (afterRead s s.cmd.lka.toNat s.cmd.lkl) s.cmd.lca.toNat 16 with
      ⟨-, e⟩ | ⟨-, -, e⟩ | ⟨-, -, -, e⟩ | ⟨-, -, -, e⟩ <;> rw [e] at hc <;> cases hc
    · cases hrest
      exact .inr (.inl rfl)
    · cases hrest
      exact .inr (.inr rfl)

/-- The state in which the block step's output is written: after the input read, and after the free bytes of a
raced command were taken. -/
def beforeWrite (s : State) : State :=
  (blockOutput (readBytes s.mem (s.cmd.lsrc.toNat + s.cmd.off) (blockSize s.cmd)) (nextBlock s.ctx).1
    (afterRead s (s.cmd.lsrc.toNat + s.cmd.off) (blockSize s.cmd))).2

/-- The output bytes of the block step. -/
def blockBytesOut (s : State) : List Byte :=
  (blockOutput (readBytes s.mem (s.cmd.lsrc.toNat + s.cmd.off) (blockSize s.cmd)) (nextBlock s.ctx).1
    (afterRead s (s.cmd.lsrc.toNat + s.cmd.off) (blockSize s.cmd))).1

theorem blockOutput_length (inp : List Byte) (ks : Block) (s : State) (h : inp.length ≤ 16) :
    (blockOutput inp ks s).1.length = inp.length := by
  unfold blockOutput
  split <;> simp [xorCombine, h]

theorem blockSize_le (c : Command) : blockSize c ≤ 16 := Nat.min_le_left _ _

@[simp] theorem blockBytesOut_length (s : State) : (blockBytesOut s).length = blockSize s.cmd := by
  rw [blockBytesOut, blockOutput_length _ _ _ (by rw [readBytes_length]; exact blockSize_le _),
    readBytes_length]

/-- Taking free bytes changes the free counter alone. -/
theorem blockOutput_state (inp : List Byte) (ks : Block) (s : State) :
    (blockOutput inp ks s).2 = { s with fresh := (blockOutput inp ks s).2.fresh } := by
  unfold blockOutput
  split <;> rfl

@[simp] theorem beforeWrite_ctx (s : State) : (beforeWrite s).ctx = s.ctx := by
  rw [beforeWrite, blockOutput_state]; exact afterRead_ctx _ _ _
@[simp] theorem beforeWrite_status (s : State) : (beforeWrite s).status = s.status := by
  rw [beforeWrite, blockOutput_state]; exact afterRead_status _ _ _
@[simp] theorem beforeWrite_errInfo (s : State) : (beforeWrite s).errInfo = s.errInfo := by
  rw [beforeWrite, blockOutput_state]; exact afterRead_errInfo _ _ _
@[simp] theorem beforeWrite_ie (s : State) : (beforeWrite s).ie = s.ie := by
  rw [beforeWrite, blockOutput_state]; exact afterRead_ie _ _ _
@[simp] theorem beforeWrite_blkcnt (s : State) : (beforeWrite s).blkcnt = s.blkcnt := by
  rw [beforeWrite, blockOutput_state]; exact afterRead_blkcnt _ _ _
@[simp] theorem beforeWrite_desc (s : State) : (beforeWrite s).desc = s.desc := by
  rw [beforeWrite, blockOutput_state]; exact afterRead_desc _ _ _
@[simp] theorem beforeWrite_cmd (s : State) : (beforeWrite s).cmd = s.cmd := by
  rw [beforeWrite, blockOutput_state]; exact afterRead_cmd _ _ _
@[simp] theorem beforeWrite_plat (s : State) : (beforeWrite s).plat = s.plat := by
  rw [beforeWrite, blockOutput_state]; exact afterRead_plat _ _ _
@[simp] theorem beforeWrite_dmaAnswers (s : State) : (beforeWrite s).dmaAnswers = s.dmaAnswers.tail := by
  rw [beforeWrite, blockOutput_state]; exact afterRead_dmaAnswers _ _ _
@[simp] theorem beforeWrite_events (s : State) : (beforeWrite s).events = s.events := by
  rw [beforeWrite, blockOutput_state]; exact afterRead_events _ _ _

@[simp] theorem beforeWrite_vis (s : State) : (beforeWrite s).vis = s.vis := by
  rw [beforeWrite, blockOutput_state]; exact afterRead_vis _ _ _
@[simp] theorem beforeWrite_busWord (s : State) : (beforeWrite s).busWord = s.busWord := by
  rw [beforeWrite, blockOutput_state]; exact afterRead_busWord _ _ _
@[simp] theorem beforeWrite_busBytes (s : State) : (beforeWrite s).busBytes = s.busBytes := by
  rw [beforeWrite, blockOutput_state]; exact afterRead_busBytes _ _ _
@[simp] theorem beforeWrite_others (s : State) :
    (beforeWrite s).others = s.others.map fun o =>
      { o with raced := o.raced || metByRead (s.cmd.lsrc.toNat + s.cmd.off) (blockSize s.cmd) o } := by
  rw [beforeWrite, blockOutput_state]; exact afterRead_others _ _ _

/-- The memory the block step writes to is the memory after its read. -/
theorem beforeWrite_mem (s : State) :
    (beforeWrite s).mem = (afterRead s (s.cmd.lsrc.toNat + s.cmd.off) (blockSize s.cmd)).mem := by
  rw [beforeWrite, blockOutput_state]

/-- The block step from an admitted read on, as one write. -/
theorem blockWrite_afterRead (s : State) :
    blockWrite (readBytes s.mem (s.cmd.lsrc.toNat + s.cmd.off) (blockSize s.cmd))
        (afterRead s (s.cmd.lsrc.toNat + s.cmd.off) (blockSize s.cmd)) =
      andThen (dmaWrite (beforeWrite s) (s.cmd.ldst.toNat + s.cmd.off) (blockBytesOut s)) fun w =>
        if w.1 = false then .next (complete .busWrite w.2)
        else .next (finishBlock (nextBlock s.ctx).2 (blockSize s.cmd) w.2) := by
  have hcmd : (beforeWrite s).cmd = s.cmd := beforeWrite_cmd s
  unfold blockWrite
  simp only [afterRead_ctx, readBytes_length]
  unfold beforeWrite at hcmd ⊢
  rw [hcmd]
  rfl

/-- Every next state of the block step: the read refused, the write refused, or the block committed (R181). -/
theorem transformBlock_next {s t : State} (h : transformBlock s = .next t) :
    s.ctx.life = .active ∧ s.cmd.off < s.cmd.ln ∧
    (t = complete .busRead (tookAnswer s) ∨
      t = complete .busWrite (tookAnswer (beforeWrite s)) ∨
      t = finishBlock (nextBlock s.ctx).2 (blockSize s.cmd)
        (afterWrite (beforeWrite s) (s.cmd.ldst.toNat + s.cmd.off) (blockBytesOut s))) := by
  unfold transformBlock at h
  split at h
  · cases h
  · next hlife =>
    split at h
    · cases h
    · next hoff =>
      refine ⟨by simpa using hlife, by omega, ?_⟩
      obtain ⟨⟨k, s1⟩, hk, hrest⟩ := andThen_next.mp h
      rcases dmaRead_cases s (s.cmd.lsrc.toNat + s.cmd.off) (blockSize s.cmd) with
        ⟨-, e⟩ | ⟨-, -, e⟩ | ⟨-, -, -, e⟩ | ⟨-, -, -, e⟩ <;> rw [e] at hk <;> cases hk
      · cases hrest
        exact .inl rfl
      · simp only [blockWrite_afterRead] at hrest
        obtain ⟨⟨b, s2⟩, hw, hrest⟩ := andThen_next.mp hrest
        rcases dmaWrite_cases (beforeWrite s) (s.cmd.ldst.toNat + s.cmd.off) (blockBytesOut s) with
          ⟨-, e⟩ | ⟨-, -, e⟩ | ⟨-, -, -, e⟩ | ⟨-, -, -, e⟩ <;> rw [e] at hw <;> cases hw
        · cases hrest
          exact .inr (.inl rfl)
        · cases hrest
          exact .inr (.inr rfl)

/-- Every next state of the engine's turn. -/
theorem engineStep_next {s t : State} (h : engineStep s = .next t) :
    (s.cmd.opk = .idle ∧ t = s) ∨
    (s.cmd.opk = .constructPending ∧ constructLoad s = .next t) ∨
    (s.cmd.opk = .transformPending ∧ transformBlock s = .next t) := by
  unfold engineStep at h
  split at h
  · next hk =>
    cases h
    exact .inl ⟨hk, rfl⟩
  · next hk => exact .inr (.inl ⟨hk, h⟩)
  · next hk => exact .inr (.inr ⟨hk, h⟩)

/-- A CONSTRUCT passes its acceptance exactly when every check of R120 holds. -/
theorem constructError_none {kp cp : Bool} {s : State} :
    constructError kp cp s = none ↔
      s.ctx.life ≠ .active ∧ kp = true ∧ keyLengthOk s.desc.keyLen.toNat = true ∧ cp = true ∧
        s.desc.ctrLen.toNat = 16 ∧ s.desc.keyAddr.toNat + s.desc.keyLen.toNat ≤ memSize s.plat ∧
        s.desc.ctrAddr.toNat + 16 ≤ memSize s.plat := by
  unfold constructError
  repeat' split
  all_goals simp_all

/-- A TRANSFORM passes its acceptance exactly when every check of R180 holds. -/
theorem transformError_none {sp dp np : Bool} {s : State} :
    transformError sp dp np s = none ↔
      s.ctx.life = .active ∧ sp = true ∧ dp = true ∧ 0 ≤ byteCount np s.desc ∧
        byteCount np s.desc ≤ s.desc.srcLen.toNat ∧ byteCount np s.desc ≤ s.desc.dstCap.toNat ∧
        s.desc.srcAddr.toNat + s.desc.srcLen.toNat ≤ memSize s.plat ∧
        s.desc.dstAddr.toNat + s.desc.dstCap.toNat ≤ memSize s.plat := by
  unfold transformError
  cases hl : s.ctx.life <;> simp
  repeat' split
  all_goals simp_all <;> omega

/-- The key store is zero past the bytes it was filled with (R121). -/
theorem keyStoreOf_tail (bytes : List Byte) (i : Fin 32) (h : bytes.length ≤ i.val) :
    (keyStoreOf bytes)[i] = 0 := by
  simp [keyStoreOf, List.getElem?_eq_none h]

/-- The context a load step makes (R121). -/
theorem finishLoad_ctx (key ctr : List Byte) (s : State) (h : key.length = s.cmd.lkl) :
    ∃ key' ctr', key'.length = s.cmd.lkl ∧ (finishLoad key ctr s).ctx =
      { ctr := blockOf ctr', key := keyStoreOf key', klen := s.cmd.lkl, le := s.cmd.lle, life := .active } := by
  unfold finishLoad
  split
  · exact ⟨_, _, freeBytes_length _ _, rfl⟩
  · exact ⟨key, ctr, h, rfl⟩

/-- What a load step changes beside the context and the free counter is its report (R121, R261). -/
theorem finishLoad_report (key ctr : List Byte) (s : State) :
    finishLoad key ctr s =
      complete .ok { s with ctx := (finishLoad key ctr s).ctx, fresh := (finishLoad key ctr s).fresh } := by
  unfold finishLoad
  split <;> rfl

end Sys2Proof.Machine
end

