-- ==== Sys2Proof/Laws/PerInstr.lean ====
section
/-! SUPPORT. The encoding round trip, one lemma per constructor of Instr: decoding the word of an encodable
instruction gives it back (spec/30_encoding.md R91 to R93, R98, R99). -/

namespace Sys2Proof.Laws.RoundTrip

/-- An instruction that stands for a word is read back from its word. -/
def Statement (i : Instr) : Prop := i.encodable = true → decode (encode i) = i

/-- A bit above the low part of an append is a bit of the high part. -/
theorem bit_above {m n : Nat} (hi : BitVec m) (lo : BitVec n) (i : Nat) :
    (hi ++ lo).getLsbD (n + i) = hi.getLsbD i := by
  rw [BitVec.getLsbD_append, if_neg (by omega), Nat.add_sub_cancel_left]

/-- A flag bit appended below is the lowest bit. -/
theorem bit_lowest {m : Nat} (hi : BitVec m) (b : Bool) : (hi ++ BitVec.ofBool b).getLsbD 0 = b := by
  rw [BitVec.getLsbD_append, if_pos (by omega)]
  cases b <;> rfl

/-- A field above the low part of an append is a field of the high part. -/
theorem field_above {m n : Nat} (hi : BitVec m) (lo : BitVec n) (i len : Nat) :
    (hi ++ lo).extractLsb' (n + i) len = hi.extractLsb' i len := by
  refine BitVec.eq_of_getLsbD_eq fun k hk => ?_
  rw [BitVec.getLsbD_extractLsb', BitVec.getLsbD_extractLsb', Nat.add_assoc, bit_above]

/-- The field of all bits is the value. -/
theorem field_all {n : Nat} (x : BitVec n) : x.extractLsb' 0 n = x := by
  refine BitVec.eq_of_getLsbD_eq fun k hk => ?_
  rw [BitVec.getLsbD_extractLsb', Nat.zero_add, decide_eq_true hk, Bool.true_and]

/-- The low part of an append is the low field. -/
theorem field_low {m n : Nat} (hi : BitVec m) (lo : BitVec n) : (hi ++ lo).extractLsb' 0 n = lo := by
  refine BitVec.eq_of_getLsbD_eq fun k hk => ?_
  rw [BitVec.getLsbD_extractLsb', Nat.zero_add, BitVec.getLsbD_append, if_pos hk, decide_eq_true hk,
    Bool.true_and]

theorem opField_construct (le kp cp : Bool) (rsv : BitVec 25) :
    opField (encode (.construct le kp cp rsv)) = 1 := field_low _ _

theorem opField_transform (sp dp np vec : Bool) (rsv : BitVec 24) :
    opField (encode (.transform sp dp np vec rsv)) = 2 := field_low _ _

theorem opField_release (rsv : BitVec 28) : opField (encode (.release rsv)) = 3 := field_low _ _

theorem opField_reservedOp (op : BitVec 4) (rest : BitVec 28) :
    opField (encode (.reservedOp op rest)) = op := field_low _ _

theorem construct (le kp cp : Bool) (rsv : BitVec 25) : Statement (.construct le kp cp rsv) := by
  intro _
  rw [decode, if_pos (opField_construct le kp cp rsv)]
  unfold decodeC encode
  congr 1
  · exact (bit_above _ (_ : BitVec 4) 0).trans (bit_lowest _ _)
  · exact (bit_above _ (_ : BitVec 4) 1).trans ((bit_above _ (BitVec.ofBool _) 0).trans (bit_lowest _ _))
  · exact (bit_above _ (_ : BitVec 4) 2).trans ((bit_above _ (BitVec.ofBool _) 1).trans
        ((bit_above _ (BitVec.ofBool _) 0).trans (bit_lowest _ _)))
  · exact (field_above _ (_ : BitVec 4) 3 _).trans ((field_above _ (BitVec.ofBool _) 2 _).trans
        ((field_above _ (BitVec.ofBool _) 1 _).trans
        ((field_above _ (BitVec.ofBool _) 0 _).trans (field_all rsv))))

theorem transform (sp dp np vec : Bool) (rsv : BitVec 24) : Statement (.transform sp dp np vec rsv) := by
  intro _
  have h := opField_transform sp dp np vec rsv
  rw [decode, if_neg (by rw [h]; decide), if_pos h]
  unfold decodeT encode
  congr 1
  · exact (bit_above _ (_ : BitVec 4) 0).trans (bit_lowest _ _)
  · exact (bit_above _ (_ : BitVec 4) 1).trans ((bit_above _ (BitVec.ofBool _) 0).trans (bit_lowest _ _))
  · exact (bit_above _ (_ : BitVec 4) 2).trans ((bit_above _ (BitVec.ofBool _) 1).trans
        ((bit_above _ (BitVec.ofBool _) 0).trans (bit_lowest _ _)))
  · exact (bit_above _ (_ : BitVec 4) 3).trans ((bit_above _ (BitVec.ofBool _) 2).trans
        ((bit_above _ (BitVec.ofBool _) 1).trans ((bit_above _ (BitVec.ofBool _) 0).trans (bit_lowest _ _))))
  · exact (field_above _ (_ : BitVec 4) 4 _).trans ((field_above _ (BitVec.ofBool _) 3 _).trans
        ((field_above _ (BitVec.ofBool _) 2 _).trans ((field_above _ (BitVec.ofBool _) 1 _).trans
        ((field_above _ (BitVec.ofBool _) 0 _).trans (field_all rsv)))))

theorem release (rsv : BitVec 28) : Statement (.release rsv) := by
  intro _
  have h := opField_release rsv
  rw [decode, if_neg (by rw [h]; decide), if_neg (by rw [h]; decide), if_pos h]
  exact congrArg Instr.release ((field_above _ _ 0 _).trans (field_all _))

/-- A reserved opcode is none of the three defined ones (R99). -/
theorem reservedOpcode_ne : ∀ op : BitVec 4, reservedOpcode op = true → op ≠ 1 ∧ op ≠ 2 ∧ op ≠ 3 := by
  decide

theorem reservedOp (op : BitVec 4) (rest : BitVec 28) : Statement (.reservedOp op rest) := by
  intro hop
  have h := opField_reservedOp op rest
  have hne := reservedOpcode_ne op hop
  rw [decode, if_neg (by rw [h]; exact hne.1), if_neg (by rw [h]; exact hne.2.1),
    if_neg (by rw [h]; exact hne.2.2), h]
  exact congrArg (Instr.reservedOp op) ((field_above _ _ 0 _).trans (field_all _))

end Sys2Proof.Laws.RoundTrip
end

