-- ==== Sys2Proof/Laws/Step.lean ====
section
/-! SUPPORT. What a command word and a step of the machine can do: one lemma for exec and one for step, each saying
every outcome (spec/30_encoding.md R103, 00_scope.md R14). -/

namespace Sys2Proof.Machine

/-- Every effect of a command word: dropped, completed at once, a CONSTRUCT or a TRANSFORM left pending, or the
context zeroed (R103, R104, R120, R180, R240). -/
theorem exec_next {i : Instr} {s t : State} (h : exec i s = .next t) :
    (s.cmd.opk ≠ .idle ∧ t = dropCommand s) ∨
    (s.cmd.opk = .idle ∧
      ((∃ c, t = complete c (beginCommand s)) ∨
      (∃ le kp cp, i = .construct le kp cp 0 ∧ constructError kp cp (beginCommand s) = none ∧
        t = latchConstruct le (beginCommand s)) ∨
      (∃ sp dp np vec, i = .transform sp dp np vec 0 ∧ transformError sp dp np (beginCommand s) = none ∧
        byteCount np s.desc ≠ 0 ∧ t = latchTransform vec (byteCount np s.desc).toNat (beginCommand s)) ∨
      (i = .release 0 ∧ s.ctx.life = .active ∧
        t = complete .ok { beginCommand s with ctx := Context.zeroed .disposed }))) := by
  by_cases hk : s.cmd.opk = .idle
  · refine .inr ⟨hk, ?_⟩
    cases i <;> simp only [exec, execConstruct, execTransform, execRelease, execReservedOp, submit_idle hk] at h <;>
      injection h with h <;> subst h
    · next le kp cp rsv =>
      split
      · exact .inl ⟨_, rfl⟩
      · next hr =>
        rw [not_not] at hr
        unfold constructAccept
        split
        · exact .inl ⟨_, rfl⟩
        · next he => exact .inr (.inl ⟨le, kp, cp, by rw [hr], he, rfl⟩)
    · next sp dp np vec rsv =>
      split
      · exact .inl ⟨_, rfl⟩
      · next hr =>
        rw [not_not] at hr
        unfold transformAccept
        split
        · exact .inl ⟨_, rfl⟩
        · next he =>
          split
          · exact .inl ⟨_, rfl⟩
          · next hn => exact .inr (.inr (.inl ⟨sp, dp, np, vec, by rw [hr], he, hn, rfl⟩))
    · next rsv =>
      split
      · exact .inl ⟨_, rfl⟩
      · next hr =>
        rw [not_not] at hr
        unfold zeroizeContext
        split
        · next hl => exact .inr (.inr (.inr ⟨by rw [hr], hl, rfl⟩))
        · exact .inl ⟨_, rfl⟩
    · exact .inl ⟨_, rfl⟩
  · refine .inl ⟨hk, ?_⟩
    cases i <;> simp only [exec, execConstruct, execTransform, execRelease, execReservedOp, submit_busy hk] at h <;>
      injection h with h <;> exact h.symm

/-- A command word always has an effect: no word stops the machine. -/
theorem exec_total (i : Instr) (s : State) : ∃ t, exec i s = .next t := by
  cases i <;> exact ⟨_, rfl⟩

/-- A mark changes no range of another instance's command. -/
theorem markOthers_writes (hit : OtherCommand → Bool) {s : State} {o : OtherCommand}
    (h : o ∈ (markOthers hit s).others) : ∃ p ∈ s.others, o.writes = p.writes := by
  simp only [markOthers_others, List.mem_map] at h
  obtain ⟨p, hp, rfl⟩ := h
  exact ⟨p, hp, rfl⟩

/-- An access by another agent changes other instances' commands by marks alone (R81). -/
theorem raceOthers_writes {who : Master} {met : OtherCommand → Bool} {ours : Bool} {s : State} {o : OtherCommand}
    (h : o ∈ (raceOthers who met ours s).others) : ∃ p ∈ s.others, o.writes = p.writes :=
  markOthers_writes _ h

/-- A mark changes no instance that runs a command. -/
theorem markOthers_ids (hit : OtherCommand → Bool) (s : State) :
    (markOthers hit s).others.map OtherCommand.id = s.others.map OtherCommand.id := by
  simp [markOthers]

/-- An access by another agent changes no instance that runs a command. -/
theorem raceOthers_ids (who : Master) (met : OtherCommand → Bool) (ours : Bool) (s : State) :
    (raceOthers who met ours s).others.map OtherCommand.id = s.others.map OtherCommand.id :=
  markOthers_ids _ s

/-- Another instance's command is dropped, fails its checks or has no instance to run on, or runs from now on. -/
theorem beginOther_cases (id : Nat) (reads writes : List Span) (s : State) :
    beginOther id reads writes s = s ∨
    (id + 1 < s.plat.nEngines ∧ id ∉ s.others.map OtherCommand.id ∧
      (∀ d ∈ reads ++ writes, d.base + d.len ≤ memSize s.plat) ∧ beginOther id reads writes s = { s with
        others := { id := id, reads := reads, writes := writes, raced := false } :: s.others }) := by
  unfold beginOther
  split
  · exact .inl rfl
  · next hn =>
    split
    · exact .inl rfl
    · next hr =>
      split
      · exact .inl rfl
      · next hi =>
        refine .inr ⟨Nat.not_le.mp hn, ?_, fun d hd => ?_, rfl⟩
        · simpa using hi
        · simpa using List.any_eq_false.mp (Bool.eq_false_iff.mpr hr) d hd

/-- On an instance the platform does not have, no command runs (R9). -/
theorem beginOther_of_absent {id : Nat} {s : State} (h : s.plat.nEngines ≤ id + 1) (reads writes : List Span) :
    beginOther id reads writes s = s := by
  rw [beginOther, if_pos h]

/-- All that the free bytes of a raced command's output change (R79). -/
theorem freeRanges_frame (l : List Span) (s : State) :
    freeRanges l s = { s with
      mem := (freeRanges l s).mem, fresh := (freeRanges l s).fresh, vis := (freeRanges l s).vis } := by
  induction l generalizing s with
  | nil => rfl
  | cons d rest ih => rw [freeRanges, ih]

/-- All that the end of another instance's command changes (R79, R81). -/
theorem endOther_frame (id : Nat) (s : State) :
    endOther id s = { s with
      mem := (endOther id s).mem, fresh := (endOther id s).fresh, vis := (endOther id s).vis
      others := s.others.filter fun o => o.id != id } :=
  freeRanges_frame _ _

/-- Free bytes keep memory's canonical form and its bound. -/
theorem freeRanges_mem_ok (l : List Span) (s : State) (hw : Memory.wf s.mem = true)
    (hb : Memory.below (memSize s.plat) s.mem = true) (hl : ∀ d ∈ l, d.base + d.len ≤ memSize s.plat) :
    Memory.wf (freeRanges l s).mem = true ∧ Memory.below (memSize s.plat) (freeRanges l s).mem = true := by
  induction l generalizing s with
  | nil => exact ⟨hw, hb⟩
  | cons d rest ih =>
    rw [freeRanges]
    exact ih _ (writeBytes_wf _ _ _ hw)
      (writeBytes_below _ _ _ _ (by simpa using hl d List.mem_cons_self) hb)
      (fun e he => hl e (List.mem_cons_of_mem d he))

/-- The end of another instance's command keeps memory's canonical form and its bound. -/
theorem endOther_mem_ok (id : Nat) (s : State) (hw : Memory.wf s.mem = true)
    (hb : Memory.below (memSize s.plat) s.mem = true)
    (ho : ∀ o ∈ s.others, ∀ d ∈ o.writes, d.base + d.len ≤ memSize s.plat) :
    Memory.wf (endOther id s).mem = true ∧ Memory.below (memSize s.plat) (endOther id s).mem = true := by
  refine freeRanges_mem_ok _ _ hw hb fun d hd => ?_
  obtain ⟨o, h1, h2⟩ := List.mem_flatMap.mp hd
  exact ho o (List.mem_filter.mp h1).1 d h2

/-- Without a race, the end of another instance's command touches no memory. -/
theorem endOther_of_unraced (id : Nat) (s : State) (h : ∀ o ∈ s.others, o.id = id → o.raced = false) :
    endOther id s = { s with others := s.others.filter fun o => o.id != id } := by
  have : (s.others.filter fun o => o.id == id && o.raced) = [] := by
    refine List.filter_eq_nil_iff.mpr fun o ho => ?_
    by_cases hi : o.id = id
    · simp [h o ho hi]
    · simp [hi]
  rw [endOther, this]
  rfl

@[simp] theorem endOther_ctx (id : Nat) (s : State) : (endOther id s).ctx = s.ctx := by
  rw [endOther_frame]
@[simp] theorem endOther_status (id : Nat) (s : State) : (endOther id s).status = s.status := by
  rw [endOther_frame]
@[simp] theorem endOther_errInfo (id : Nat) (s : State) : (endOther id s).errInfo = s.errInfo := by
  rw [endOther_frame]
@[simp] theorem endOther_ie (id : Nat) (s : State) : (endOther id s).ie = s.ie := by
  rw [endOther_frame]
@[simp] theorem endOther_blkcnt (id : Nat) (s : State) : (endOther id s).blkcnt = s.blkcnt := by
  rw [endOther_frame]
@[simp] theorem endOther_desc (id : Nat) (s : State) : (endOther id s).desc = s.desc := by
  rw [endOther_frame]
@[simp] theorem endOther_cmd (id : Nat) (s : State) : (endOther id s).cmd = s.cmd := by
  rw [endOther_frame]
@[simp] theorem endOther_plat (id : Nat) (s : State) : (endOther id s).plat = s.plat := by
  rw [endOther_frame]
@[simp] theorem endOther_dmaAnswers (id : Nat) (s : State) : (endOther id s).dmaAnswers = s.dmaAnswers := by
  rw [endOther_frame]
@[simp] theorem endOther_events (id : Nat) (s : State) : (endOther id s).events = s.events := by
  rw [endOther_frame]
@[simp] theorem endOther_raced (id : Nat) (s : State) : (endOther id s).raced = s.raced := by
  rw [endOther_frame]
@[simp] theorem endOther_busWord (id : Nat) (s : State) : (endOther id s).busWord = s.busWord := by
  rw [endOther_frame]
@[simp] theorem endOther_busBytes (id : Nat) (s : State) : (endOther id s).busBytes = s.busBytes := by
  rw [endOther_frame]
@[simp] theorem beginOther_ctx (id : Nat) (reads writes : List Span) (s : State) :
    (beginOther id reads writes s).ctx = s.ctx := by
  rcases beginOther_cases id reads writes s with e | ⟨-, -, -, e⟩ <;> rw [e]
@[simp] theorem beginOther_status (id : Nat) (reads writes : List Span) (s : State) :
    (beginOther id reads writes s).status = s.status := by
  rcases beginOther_cases id reads writes s with e | ⟨-, -, -, e⟩ <;> rw [e]
@[simp] theorem beginOther_errInfo (id : Nat) (reads writes : List Span) (s : State) :
    (beginOther id reads writes s).errInfo = s.errInfo := by
  rcases beginOther_cases id reads writes s with e | ⟨-, -, -, e⟩ <;> rw [e]
@[simp] theorem beginOther_ie (id : Nat) (reads writes : List Span) (s : State) :
    (beginOther id reads writes s).ie = s.ie := by
  rcases beginOther_cases id reads writes s with e | ⟨-, -, -, e⟩ <;> rw [e]
@[simp] theorem beginOther_blkcnt (id : Nat) (reads writes : List Span) (s : State) :
    (beginOther id reads writes s).blkcnt = s.blkcnt := by
  rcases beginOther_cases id reads writes s with e | ⟨-, -, -, e⟩ <;> rw [e]
@[simp] theorem beginOther_desc (id : Nat) (reads writes : List Span) (s : State) :
    (beginOther id reads writes s).desc = s.desc := by
  rcases beginOther_cases id reads writes s with e | ⟨-, -, -, e⟩ <;> rw [e]
@[simp] theorem beginOther_cmd (id : Nat) (reads writes : List Span) (s : State) :
    (beginOther id reads writes s).cmd = s.cmd := by
  rcases beginOther_cases id reads writes s with e | ⟨-, -, -, e⟩ <;> rw [e]
@[simp] theorem beginOther_mem (id : Nat) (reads writes : List Span) (s : State) :
    (beginOther id reads writes s).mem = s.mem := by
  rcases beginOther_cases id reads writes s with e | ⟨-, -, -, e⟩ <;> rw [e]
@[simp] theorem beginOther_plat (id : Nat) (reads writes : List Span) (s : State) :
    (beginOther id reads writes s).plat = s.plat := by
  rcases beginOther_cases id reads writes s with e | ⟨-, -, -, e⟩ <;> rw [e]
@[simp] theorem beginOther_dmaAnswers (id : Nat) (reads writes : List Span) (s : State) :
    (beginOther id reads writes s).dmaAnswers = s.dmaAnswers := by
  rcases beginOther_cases id reads writes s with e | ⟨-, -, -, e⟩ <;> rw [e]
@[simp] theorem beginOther_events (id : Nat) (reads writes : List Span) (s : State) :
    (beginOther id reads writes s).events = s.events := by
  rcases beginOther_cases id reads writes s with e | ⟨-, -, -, e⟩ <;> rw [e]
@[simp] theorem beginOther_raced (id : Nat) (reads writes : List Span) (s : State) :
    (beginOther id reads writes s).raced = s.raced := by
  rcases beginOther_cases id reads writes s with e | ⟨-, -, -, e⟩ <;> rw [e]
@[simp] theorem beginOther_vis (id : Nat) (reads writes : List Span) (s : State) :
    (beginOther id reads writes s).vis = s.vis := by
  rcases beginOther_cases id reads writes s with e | ⟨-, -, -, e⟩ <;> rw [e]
@[simp] theorem beginOther_busWord (id : Nat) (reads writes : List Span) (s : State) :
    (beginOther id reads writes s).busWord = s.busWord := by
  rcases beginOther_cases id reads writes s with e | ⟨-, -, -, e⟩ <;> rw [e]
@[simp] theorem beginOther_busBytes (id : Nat) (reads writes : List Span) (s : State) :
    (beginOther id reads writes s).busBytes = s.busBytes := by
  rcases beginOther_cases id reads writes s with e | ⟨-, -, -, e⟩ <;> rw [e]
@[simp] theorem beginOther_fresh (id : Nat) (reads writes : List Span) (s : State) :
    (beginOther id reads writes s).fresh = s.fresh := by
  rcases beginOther_cases id reads writes s with e | ⟨-, -, -, e⟩ <;> rw [e]

/-- An access by another agent either races or does not. -/
theorem corrupt_if {b : Bool} {u t : State} (h : (if b then corrupt u else u) = t) :
    (b = false ∧ t = u) ∨ (b = true ∧ t = corrupt u) := by
  cases b
  · exact .inl ⟨rfl, h.symm⟩
  · exact .inr ⟨rfl, h.symm⟩

/-- The state in which the next event takes place: the event is taken from the coming ones. -/
def afterTaking (s : State) : State := { s with events := s.events.tail }

/-- Every next state of the machine, by the agent that moves (R14). -/
theorem step_next {s t : State} (h : step s = .next t) :
    ((s.events = [] ∨ s.events.head? = some .engineTurn) ∧ engineStep (afterTaking s) = .next t) ∨
    (∃ addr width w, s.events.head? = some (.regWrite addr width w) ∧
      exec (decode w) (afterTaking s) = .next t) ∨
    (∃ addr width r v, s.events.head? = some (.regWrite addr width v) ∧ r ≠ .cmd ∧
      t = writeReg (afterTaking s) r v) ∨
    (∃ addr width r, s.events.head? = some (.regRead addr width) ∧
      (t = { afterTaking s with busWord := readReg (afterTaking s) r } ∨
        t = observeStatus { afterTaking s with busWord := readReg (afterTaking s) r })) ∨
    (∃ by_ a bytes, s.events.head? = some (.memWrite by_ a bytes) ∧
      a + bytes.length ≤ memSize s.plat ∧ ∃ u : State,
        u = raceOthers by_ (metByWrite a bytes.length) (racesWrite s a bytes.length) { afterTaking s with
          mem := writeBytes s.mem a bytes
          vis := visAfterWrite by_ a bytes.length (afterTaking s) } ∧
        ((racesWrite s a bytes.length = false ∧ t = u) ∨
          (racesWrite s a bytes.length = true ∧ t = corrupt u))) ∨
    (∃ by_ a n, s.events.head? = some (.memRead by_ a n) ∧ a + n ≤ memSize s.plat ∧ ∃ bytes f, ∃ u : State,
        u = raceOthers by_ (metByRead a n) (racesRead s a n)
          { afterTaking s with busBytes := bytes, fresh := f } ∧
        ((racesRead s a n = false ∧ t = u) ∨ (racesRead s a n = true ∧ t = corrupt u))) ∨
    (∃ a n, s.events.head? = some (.maintain a n) ∧ t = maintainRange a n (afterTaking s)) ∨
    (∃ id reads writes, s.events.head? = some (.otherBegins id reads writes) ∧
      t = beginOther id reads writes (afterTaking s)) ∨
    (∃ id, s.events.head? = some (.otherEnds id) ∧ t = endOther id (afterTaking s)) ∨
    (s.events.head? = some .reset ∧ t = resetEngine (afterTaking s)) := by
  unfold step at h
  split at h
  · next he =>
    have hs : afterTaking s = s := by rw [afterTaking, he, List.tail_nil, ← he]
    exact .inl ⟨.inl he, by rw [hs]; exact h⟩
  · next e rest he =>
    have hs : ({ s with events := rest } : State) = afterTaking s := by rw [afterTaking, he, List.tail_cons]
    rw [hs] at h
    rw [he, List.head?_cons]
    cases e <;> simp only [deliver] at h
    · next addr width v =>
      unfold hostRegWrite at h
      split at h
      · cases h
      · exact .inr (.inl ⟨_, _, _, rfl, h⟩)
      · next r hr _ =>
        cases h
        exact .inr (.inr (.inl ⟨_, _, r, _, rfl, hr, rfl⟩))
    · next addr width =>
      unfold hostRegRead at h
      split at h
      · cases h
      · cases h
        exact .inr (.inr (.inr (.inl ⟨_, _, .status, rfl, .inr rfl⟩)))
      · next r _ _ =>
        cases h
        exact .inr (.inr (.inr (.inl ⟨_, _, r, rfl, .inl rfl⟩)))
    · next by_ a bytes =>
      unfold busMemWrite at h
      split at h
      · cases h
      · next hm =>
        injection h with h
        exact .inr (.inr (.inr (.inr (.inl ⟨by_, a, bytes, rfl, Nat.not_lt.mp hm, _, rfl, corrupt_if h⟩))))
    · next by_ a n =>
      unfold busMemRead at h
      split at h
      · cases h
      · next hm =>
        injection h with h
        refine .inr (.inr (.inr (.inr (.inr (.inl ⟨by_, a, n, rfl, Nat.not_lt.mp hm, ?_⟩)))))
        cases by_
        · exact ⟨_, _, _, rfl, corrupt_if h⟩
        · exact ⟨s.busBytes, s.fresh, _, rfl, corrupt_if h⟩
    · next a n =>
      cases h
      exact .inr (.inr (.inr (.inr (.inr (.inr (.inl ⟨a, n, rfl, rfl⟩))))))
    · next id reads writes =>
      cases h
      exact .inr (.inr (.inr (.inr (.inr (.inr (.inr (.inl ⟨id, reads, writes, rfl, rfl⟩)))))))
    · next id =>
      cases h
      exact .inr (.inr (.inr (.inr (.inr (.inr (.inr (.inr (.inl ⟨id, rfl, rfl⟩))))))))
    · exact .inl ⟨.inr rfl, h⟩
    · cases h
      exact .inr (.inr (.inr (.inr (.inr (.inr (.inr (.inr (.inr ⟨rfl, rfl⟩))))))))

/-- The invariant reads neither the platform's answers nor the coming events. -/
theorem machineInv_of_agents {s : State} (h : MachineInv s) (answers : List Bool) (coming : List Event) :
    MachineInv { s with dmaAnswers := answers, events := coming } where
  platform := h.platform
  memory := h.memory
  context := h.context
  report := h.report
  errClass := h.errClass
  blocks := h.blocks
  idle := h.idle
  load := fun k =>
    have l := h.load k
    ⟨l.life, l.keyLength, l.keyRange, l.ctrRange, l.noBlocks, l.clear⟩
  transform := fun k =>
    have b := h.transform k
    ⟨b.life, b.left, b.bound, b.blocks, b.srcRange, b.dstRange, b.clear⟩
  others := h.others
  instances := h.instances

/-- With no event to come, a step is the engine's own (R313). -/
theorem step_of_no_events {s : State} (h : s.events = []) : step s = engineStep s := by
  rw [step, h]

/-- A run goes on from the state its first step leaves. -/
theorem run_succ_of_next {s t : State} (k : Nat) (h : step s = .next t) :
    Host.Core.run Sys2Proof.core (k + 1) s = Host.Core.run Sys2Proof.core k t := by
  have h' : Sys2Proof.core.step s = .next t := h
  simp only [Host.Core.run, h']

end Sys2Proof.Machine
end

