-- ==== Sys2Proof/Tests/Slice0.lean ====
section
/-! SUPPORT. The model's own tests: ill-formed terms, words written from the encoding tables, values the spec lists
(spec/95_test_vectors.md), and for every obligation with hypotheses a state and operands that meet them all. -/

open Sys2Proof Sys2Proof.Machine

namespace Sys2Proof.Tests

/-! ### Small states -/

/-- The `n` bytes a hexadecimal string of `2 n` digits lists, first byte first (R11). -/
def hex (n v : Nat) : List Byte := (List.range n).map fun i => BitVec.ofNat 8 (v / 256 ^ (n - 1 - i))

/-- A block written as hexadecimal digits, byte 0 first. -/
def block (v : Nat) : Block := Vector.ofFn fun i => BitVec.ofNat 8 (v / 256 ^ (15 - i.val))

/-- `K128` of spec/95_test_vectors.md. -/
def k128 : List Byte := hex 16 0x2b7e151628aed2a6abf7158809cf4f3c

/-- `C0` of spec/95_test_vectors.md. -/
def c0 : Block := block 0xf0f1f2f3f4f5f6f7f8f9fafbfcfdfeff

/-- Reset, and the descriptors of the set-up of L2.5, with ADDR_W = 16; the window starts at 0x4000. -/
def bench : State := { State.reset with
  plat := { addrW := 16, regBase := 0x4000, nEngines := 3, coherent := true, devices := [] }
  desc := {
    keyAddr := 0x1000, keyLen := 16, ctrAddr := 0x1020, ctrLen := 16, srcAddr := 0x2000, srcLen := 16,
    dstAddr := 0x3000, dstCap := 16, nbytes := 16 } }

/-- The set-up of L2.5 with an ACTIVE context: `K128`, `C0`, big-endian. -/
def active : State := { bench with
  ctx := { ctr := c0, key := keyStoreOf k128, klen := 16, le := false, life := .active } }

/-- The same after RELEASE. -/
def disposed : State := { bench with ctx := Context.zeroed .disposed }

/-- A CONSTRUCT in progress: the key's last byte is memory's last. -/
def loading : State := { bench with
  cmd := { bench.cmd with opk := .constructPending, lka := 0xFFF0, lkl := 16, lca := 0x1020, lle := true } }

/-- A TRANSFORM in progress of `n` bytes, `off` of them done. -/
def blocking (n off : Nat) : State := { active with
  blkcnt := BitVec.ofNat 32 (off / 16)
  cmd := { bench.cmd with opk := .transformPending, lsrc := 0x2000, ldst := 0x3000, ln := n, off := off } }

/-- The same state with other coming events. -/
def withEvents (s : State) (l : List Event) : State := { s with events := l }

/-- STATUS and ERRINFO after the write of a word to CMD. -/
def report (s : State) (w : Word) : Option (Word × Word) :=
  match exec (decode w) s with
  | .next t => some (statusWord t, errInfoWord t.errInfo)
  | _ => none

/-- A test of the next state, false where there is none. -/
def next (o : Host.Outcome State Fault Refusal) (p : State → Bool) : Bool :=
  match o with
  | .next t => p t
  | _ => false

/-! ### WellFormed: one ill-formed term for each check -/

theorem test_construct_reserved_bits_illformed : (Instr.construct false true true 1).wellFormed = false := by
  decide

theorem test_transform_reserved_bits_illformed :
    (Instr.transform true true false false 0x800000).wellFormed = false := by decide

theorem test_release_reserved_bits_illformed : (Instr.release 1).wellFormed = false := by decide

theorem test_defined_opcode_is_not_reserved : (Instr.reservedOp 1 0).wellFormed = false := by decide

/-! ### Decoding: words written bit by bit from R91, R92, R93 and R99 -/

/-- R91: CP = 1, KP = 0, LE = 1, OP = 0001. -/
theorem test_decode_construct :
    decode 0b00000000000000000000000001010001 = .construct true false true 0 := by decide

/-- R92: VEC = 1, NP = 0, DP = 1, SP = 0, OP = 0010. -/
theorem test_decode_transform :
    decode 0b00000000000000000000000010100010 = .transform false true false true 0 := by decide

/-- R93: OP = 0011, and a reserved bit. -/
theorem test_decode_release : decode 0b10000000000000000000000000000011 = .release 0x8000000 := by decide

/-- R99: OP = 0100, with any bits above. -/
theorem test_decode_reserved : decode 0b00000000000000000000000000010100 = .reservedOp 4 1 := by decide

/-- The host's view of the decoder and the placing of a word. -/
theorem test_table_word :
    decodeTableWord 32 0x61 = some (.construct false true true 0) ∧
    (State.reset.withFetchWord 32 3).events = [.regWrite 0 .w32 3] := by decide

/-! ### Outcomes: the rows of L2.5 and L2.7 -/

/-- L2.5: CONSTRUCT's acceptance errors, in R271's order. -/
theorem test_construct_outcomes :
    report bench 0x41 = some (0x06, 0x11) ∧
    report { bench with desc := { bench.desc with keyLen := 15 } } 0x61 = some (0x06, 0x21) ∧
    report { bench with desc := { bench.desc with keyLen := 24 } } 0x21 = some (0x06, 0x31) ∧
    report { bench with desc := { bench.desc with ctrLen := 32 } } 0x61 = some (0x06, 0x41) ∧
    report { bench with desc := { bench.desc with keyAddr := 0xFFF8 } } 0x61 = some (0x06, 0x51) ∧
    report { bench with desc := { bench.desc with keyAddr := 0xFFF0 } } 0x61 = some (0x01, 0x00) ∧
    report { bench with desc := { bench.desc with ctrAddr := 0xFFF1 } } 0x61 = some (0x06, 0x61) ∧
    report bench 0xE1 = some (0x06, 0x25) ∧
    report active 0x61 = some (0x16, 0x14) ∧
    report disposed 0x61 = some (0x21, 0x00) := by decide

/-- L2.5: TRANSFORM's acceptance errors, in R272's order, and the empty transform. -/
theorem test_transform_outcomes :
    report bench 0x72 = some (0x06, 0x22) ∧
    report disposed 0x72 = some (0x26, 0x12) ∧
    report active 0x62 = some (0x16, 0x81) ∧
    report active 0x52 = some (0x16, 0x91) ∧
    report { active with desc := { active.desc with nbytes := 0xFFFFFFFF } } 0x72 = some (0x16, 0xA1) ∧
    report { active with desc := { active.desc with nbytes := 17 } } 0x72 = some (0x16, 0xA1) ∧
    report { active with desc := { active.desc with dstCap := 15 } } 0x32 = some (0x16, 0xB1) ∧
    report { active with desc := { active.desc with srcAddr := 0xFFF8 } } 0x72 = some (0x16, 0xC1) ∧
    report { active with desc := { active.desc with dstAddr := 0xFFF8 } } 0x72 = some (0x16, 0xD1) ∧
    report active 0x172 = some (0x16, 0x25) ∧
    report { active with desc := { active.desc with nbytes := 0 } } 0x72 = some (0x12, 0x00) ∧
    report { active with desc := { active.desc with srcLen := 0 } } 0x32 = some (0x12, 0x00) := by decide

/-- L2.5: RELEASE in each life state, and with a reserved bit. -/
theorem test_release_outcomes :
    report active 0x03 = some (0x22, 0x00) ∧ report bench 0x03 = some (0x02, 0x00) ∧
    report disposed 0x03 = some (0x22, 0x00) ∧ report active 0x13 = some (0x16, 0x25) := by decide

/-- L2.5: reserved opcodes. -/
theorem test_reserved_outcomes :
    report bench 0x00 = some (0x06, 0x15) ∧ report bench 0x04 = some (0x06, 0x15) ∧
    report bench 0xFFFFFFFF = some (0x06, 0x15) := by decide

/-- L2.7: a word written while BUSY sets OVERRUN and is dropped. -/
theorem test_drop_sets_overrun : report loading 0x03 = some (0x09, 0x00) := by decide

/-- R121: the load step copies the key and the counter as they stand in memory, byte 0 first. -/
theorem test_construct_load :
    next (engineStep { loading with
        mem := writeBytes (writeBytes [] 0xFFF0 k128) 0x1020 (hex 16 0xf0f1f2f3f4f5f6f7f8f9fafbfcfdfeff) })
      (fun t => statusWord t == 0x52 && t.ctx.ctr == c0 && keyBytes t.ctx == k128) = true := by decide

/-- L2.8: a refused counter read at CONSTRUCT. -/
theorem test_construct_refused_counter_read :
    next (engineStep { loading with dmaAnswers := [true, false] })
      (fun t => statusWord t == 0x06 && errInfoWord t.errInfo == 0x13 && t.ctx == bench.ctx) = true := by decide

/-- The state of the NIST vector L1.1: one block to transform. -/
def nistBlock : State := { blocking 16 0 with
  mem := writeBytes [] 0x2000 (hex 16 0x6bc1bee22e409f96e93d7e117393172a) }

/-- L1.1 and R181: the known vector, for a cipher port that encrypts `C0` under `K128` as AES does. -/
theorem test_transform_known_vector
    (h : Config.blockEncrypt k128 c0 = block 0xec8cdf7398607cb0f2d21675ea9ea1e4) :
    ∃ t, engineStep nistBlock = .next t ∧
      readBytes t.mem 0x3000 16 = hex 16 0x874d6191b620e3261bef6864990db6ce ∧
      t.ctx.ctr = block 0xf0f1f2f3f4f5f6f7f8f9fafbfcfdff00 ∧ t.blkcnt = 1 ∧ statusWord t = 0x12 := by
  have hks : Config.blockEncrypt (keyBytes nistBlock.ctx) nistBlock.ctx.ctr =
      block 0xec8cdf7398607cb0f2d21675ea9ea1e4 := by
    rw [show keyBytes nistBlock.ctx = k128 by decide]
    exact h
  rw [show engineStep nistBlock = blockWrite (readBytes nistBlock.mem 0x2000 16) nistBlock from rfl]
  simp only [blockWrite, nextBlock, hks]
  exact ⟨_, rfl, by decide⟩

/-! ### Counter and XOR: L2.1 and L2.3 -/

theorem test_advance_be :
    advanceBE (block 0x000000000000000000000000000000ff) = block 0x00000000000000000000000000000100 ∧
    advanceBE c0 = block 0xf0f1f2f3f4f5f6f7f8f9fafbfcfdff00 ∧
    advanceBE (block 0x00ffffffffffffffffffffffffffffff) = block 0x01000000000000000000000000000000 := by
  decide

theorem test_advance_le :
    advanceLE (block 0xff000000000000000000000000000000) = block 0x00010000000000000000000000000000 ∧
    advanceLE c0 = block 0xf1f1f2f3f4f5f6f7f8f9fafbfcfdfeff ∧
    advanceLE (block 0xffffffffffffffff0000000000000000) = block 0x00000000000000000100000000000000 := by
  decide

/-- R81: a byte that another instance writes, read by this engine's DMA while that instance is BUSY, is a race even if
the instance's write came before this engine's acceptance. -/
theorem test_read_of_busy_instances_output_races :
    next (step (withEvents { loading with events := [], others := [
        { id := 1, reads := [], writes := [{ base := 0x1020, len := 1 }], raced := false }] } [.engineTurn]))
      (fun t => statusWord t == 0x52 && t.others.all OtherCommand.raced) = true ∧
    next (step (withEvents { loading with raced := false, others := [
        { id := 1, reads := [], writes := [{ base := 0x1030, len := 1 }], raced := false }] } [.engineTurn]))
      (fun t => t.others.all fun o => !o.raced) = true := by decide

/-- R9: with three instances, the other two run one command each, and there is no fourth. -/
theorem test_no_more_commands_than_instances :
    ((List.range 4).foldl (fun s id => beginOther id [] [] s) bench).others.map OtherCommand.id = [1, 0] := by decide

/-- R78: bytes that another master wrote before are visible to the host once it has observed the completion. -/
theorem test_observed_output_is_not_stale :
    let s : State := { active with vis := { hostDirty := [], unseen := [], stale := [0x3000] } }
    (observeStatus (dmaStore s 0x3000 (hex 16 1))).vis = { hostDirty := [], unseen := [], stale := [] } := by decide

/-- L2.3: 16 bytes, and 15 with the last keystream byte unused. -/
theorem test_xor_combine :
    xorCombine (hex 16 0x6bc1bee22e409f96e93d7e117393172a) (block 0xec8cdf7398607cb0f2d21675ea9ea1e4) =
      hex 16 0x874d6191b620e3261bef6864990db6ce ∧
    xorCombine (hex 15 0x6bc1bee22e409f96e93d7e11739317) (block 0xec8cdf7398607cb0f2d21675ea9ea1e4) =
      hex 15 0x874d6191b620e3261bef6864990db6 := by decide

/-! ### Witnesses: for every obligation with hypotheses, a case that meets them all -/

theorem inv_active : MachineInv active where
  platform := by decide
  memory := by decide
  context := ⟨by decide, fun h => absurd rfl h, by decide⟩
  report := ⟨.ok, rfl⟩
  errClass := by decide
  blocks := by decide
  idle := fun _ => rfl
  load := fun h => by cases h
  transform := fun h => by cases h
  others := by decide
  instances := by decide

theorem inv_loading : MachineInv loading where
  platform := by decide
  memory := by decide
  context := ⟨(fun h => by cases h), (fun _ => rfl), by decide⟩
  report := ⟨.ok, rfl⟩
  errClass := by decide
  blocks := by decide
  idle := by decide
  load := fun _ => ⟨by decide, by decide, by decide, by decide, by decide, by decide⟩
  transform := fun h => by cases h
  others := by decide
  instances := by decide

/-- 17 bytes, before the first block and before the tail. -/
theorem inv_blocking : ∀ off ∈ [0, 16], MachineInv (blocking 17 off) := by
  intro off h
  simp only [List.mem_cons, List.not_mem_nil, or_false] at h
  rcases h with rfl | rfl
  · exact ⟨by decide, by decide, inv_active.context, ⟨.ok, rfl⟩, by decide, by decide, by decide,
      (fun h => by cases h),
      (fun _ => ⟨by decide, by decide, by decide, by decide, by decide, by decide, by decide⟩), by decide, by decide⟩
  · exact ⟨by decide, by decide, inv_active.context, ⟨.ok, rfl⟩, by decide, by decide, by decide,
      (fun h => by cases h),
      (fun _ => ⟨by decide, by decide, by decide, by decide, by decide, by decide, by decide⟩), by decide, by decide⟩

/-- The tail step has a next state, whatever the cipher port gives. -/
theorem tail_step : ∃ t, engineStep (blocking 17 16) = .next t := by
  rw [show engineStep (blocking 17 16) = blockWrite (readBytes (blocking 17 16).mem 0x2010 1)
    (afterRead (blocking 17 16) 0x2010 1) from rfl]
  rw [show (0x2010 : Nat) = (blocking 17 16).cmd.lsrc.toNat + (blocking 17 16).cmd.off from rfl,
    show (1 : Nat) = blockSize (blocking 17 16).cmd from rfl, blockWrite_afterRead]
  rcases dmaWrite_cases (beforeWrite (blocking 17 16))
      ((blocking 17 16).cmd.ldst.toNat + (blocking 17 16).cmd.off) (blockBytesOut (blocking 17 16)) with
    ⟨h, -⟩ | ⟨-, -, e⟩ | ⟨-, -, h, -⟩ | ⟨-, -, -, e⟩
  · rw [blockBytesOut_length, beforeWrite_plat] at h
    exact absurd h (by decide)
  · rw [e]; exact ⟨_, rfl⟩
  · rw [beforeWrite_plat] at h
    cases h
  · rw [e]; exact ⟨_, rfl⟩

/-- Nothing disturbs the small states. -/
theorem undisturbed_small : Undisturbed bench ∧ Undisturbed disposed ∧ Undisturbed active ∧
    Undisturbed (blocking 17 0) :=
  ⟨⟨rfl, by decide, rfl, rfl, .inl rfl, rfl⟩, ⟨rfl, by decide, rfl, rfl, .inl rfl, rfl⟩,
    ⟨rfl, by decide, rfl, rfl, .inl rfl, rfl⟩, ⟨rfl, by decide, rfl, rfl, .inl rfl, rfl⟩⟩

theorem witness_DecodeAndEncodeAreInverse :
    (Instr.construct true true true 0x1FFFFFF).encodable = true ∧
    (Instr.reservedOp 0 0).encodable = true ∧ (Instr.reservedOp 4 0).encodable = true ∧
    (Instr.reservedOp 15 0xFFFFFFF).encodable = true := by decide

/-- A word of each defined opcode with one reserved bit, and two with a reserved opcode, match no row. -/
theorem witness_OpcodeMapRowsMatchAndAreDisjoint :
    bench.cmd.opk = .idle ∧
    ([0x00000081, 0x00000102, 0x00000013, 0x00000000, 0xFFFFFFFF] : List Word).all (fun w => decide
      (w &&& 0xFFFFFF8F ≠ 0x00000001 ∧ w &&& 0xFFFFFF0F ≠ 0x00000002 ∧ w &&& 0xFFFFFFFF ≠ 0x00000003)) = true := by
  decide

theorem witness_WriteToCmdRunsTheDecodedWord :
    (withEvents bench [.regWrite 0x4000 .w32 0x61]).events =
      .regWrite (withEvents bench [.regWrite 0x4000 .w32 0x61]).plat.regBase .w32 0x61 :: [] := by decide

theorem witness_BusyEngineDropsEveryWord : loading.cmd.opk ≠ .idle ∧ (blocking 17 16).cmd.opk ≠ .idle := by
  decide

theorem witness_ReservedOpcodeCompletesAtOnce :
    ∀ op ∈ [(0 : BitVec 4), 4, 15], (op = 0 ∨ 4 ≤ op.toNat) ∧ bench.cmd.opk = .idle := by decide

/-- The lowest and the highest reserved bit of each defined opcode, and the first and last reserved opcodes. -/
theorem witness_ReservedBitsCompleteAtOnce :
    bench.cmd.opk = .idle ∧
    ([0x00000081, 0x80000001] : List Word).all
      (fun w => decide (w.extractLsb' 0 4 = 1 ∧ w.extractLsb' 7 25 ≠ 0)) = true ∧
    ([0x00000102, 0x80000002] : List Word).all
      (fun w => decide (w.extractLsb' 0 4 = 2 ∧ w.extractLsb' 8 24 ≠ 0)) = true ∧
    ([0x00000013, 0x80000003] : List Word).all
      (fun w => decide (w.extractLsb' 0 4 = 3 ∧ w.extractLsb' 4 28 ≠ 0)) = true ∧
    ([0x00000010, 0x00000014, 0xFFFFFFFF] : List Word).all
      (fun w => decide (w.extractLsb' 0 4 = 0 ∨ 4 ≤ (w.extractLsb' 0 4).toNat)) = true := by decide

/-- A word that reports, one that latches and one that zeroes; the first leaves the engine idle. -/
theorem witness_CommandWordsFrame :
    active.cmd.opk = .idle ∧ (∀ rsv, Instr.reservedOp 0 0 ≠ .release rsv) ∧
    next (exec (.reservedOp 0 0) active) (fun t => t.cmd.opk == active.cmd.opk) = true ∧
    next (exec (.transform true true true false 0) active) (fun t => t.cmd.opk == .transformPending) = true ∧
    next (exec (.release 0) active) (fun t => t.ctx.life == .disposed) = true := by
  exact ⟨by decide, (fun _ h => by cases h), by decide, by decide, by decide⟩

theorem witness_ConstructAcceptanceChecksInOrder :
    bench.cmd.opk = .idle ∧
    ([0x61, 0x71, 0x41, 0x21, 0x01] : List Word).all (fun w => decide (w &&& 0xFFFFFF8F = 0x00000001)) = true := by
  decide

/-- From NONE and from DISPOSED, with the key range ending where memory ends. -/
theorem witness_ConstructMakesAnActiveContext :
    (Undisturbed bench ∧ Undisturbed disposed) ∧
    ∀ s ∈ [bench, disposed], s.cmd.opk = .idle ∧ s.ctx.life ≠ .active ∧ s.desc.keyLen.toNat = 16 ∧
      s.desc.ctrLen.toNat = 16 ∧ (0xFFF0 : Word).toNat + s.desc.keyLen.toNat = 2 ^ s.plat.addrW ∧
      s.desc.keyAddr.toNat + s.desc.keyLen.toNat ≤ 2 ^ s.plat.addrW ∧
      s.desc.ctrAddr.toNat + 16 ≤ 2 ^ s.plat.addrW :=
  ⟨⟨undisturbed_small.1, undisturbed_small.2.1⟩, by decide⟩

/-- A command of another instance: it reads this engine's input, as this engine does, and writes elsewhere. -/
def neighbour : OtherCommand :=
  { id := 1, reads := [{ base := 0x2000, len := 17 }], writes := [{ base := 0x3011, len := 16 }], raced := true }

/-- Each of the three answers of the platform, with the key range ending where memory ends. -/
theorem witness_LoadStepFollowsThePlatformsAnswers :
    ∀ l ∈ [[], [false], [true, false]],
      let s : State := { loading with dmaAnswers := l, others := [neighbour] }
      s.cmd.opk = .constructPending ∧ s.plat.devices = [] ∧ s.raced = false ∧ OthersApart s ∧ s.plat.coherent = true ∧
        s.cmd.lkl ≤ 32 ∧ s.cmd.lka.toNat + s.cmd.lkl = 2 ^ s.plat.addrW ∧
        s.cmd.lca.toNat + 16 ≤ 2 ^ s.plat.addrW := by decide

theorem witness_FailedConstructKeepsTheContext :
    (active.cmd.opk = .idle ∧
      next (exec (.construct true true true 0) active) (fun t => t.status.err) = true) ∧
    MachineInv { loading with dmaAnswers := [false], events := [] } ∧
    next (engineStep { loading with dmaAnswers := [false], events := [] }) (fun t => t.status.err) = true :=
  ⟨by decide, machineInv_of_agents inv_loading [false] [], by decide⟩

theorem witness_TransformAcceptanceChecksInOrder :
    active.cmd.opk = .idle ∧
    ([0x72, 0x32, 0xF2, 0xB2, 0x52, 0x62, 0x42] : List Word).all
      (fun w => decide (w &&& 0xFFFFFF0F = 0x00000002)) = true := by decide

/-- A count of 0 given, and an empty input; the input and output ranges end where memory ends. -/
theorem witness_EmptyTransformCompletesAtAcceptance :
    ∀ d ∈ [{ active.desc with nbytes := 0, srcAddr := 0xFFF0, dstAddr := 0xFFF0 },
        { active.desc with srcLen := 0 }],
      let s : State := { active with desc := d }
      s.cmd.opk = .idle ∧ s.ctx.life = .active ∧ (s.desc.nbytes.toInt = 0 ∨ s.desc.srcLen.toNat = 0) ∧
        s.desc.srcAddr.toNat + s.desc.srcLen.toNat ≤ 2 ^ s.plat.addrW ∧
        s.desc.dstAddr.toNat + s.desc.dstCap.toNat ≤ 2 ^ s.plat.addrW := by decide

theorem witness_TransformWithoutContextFails :
    bench.cmd.opk = .idle ∧ bench.ctx.life = .none ∧ disposed.cmd.opk = .idle ∧
      disposed.ctx.life = .disposed := by decide

/-- A full block that is not the last, and a tail of one byte, under each answer of the platform. -/
theorem witness_BlockStepFollowsThePlatformsAnswers :
    ∀ c ∈ [(17, 0), (17, 16)], ∀ l ∈ [[], [false], [true, false]],
      let s : State := { blocking c.1 c.2 with dmaAnswers := l, others := [neighbour] }
      s.cmd.opk = .transformPending ∧ s.ctx.life = .active ∧ s.plat.devices = [] ∧ s.raced = false ∧
        OthersApart s ∧ s.plat.coherent = true ∧ s.cmd.off < s.cmd.ln ∧
        s.cmd.lsrc.toNat + s.cmd.ln ≤ 2 ^ s.plat.addrW ∧
        s.cmd.ldst.toNat + s.cmd.ln ≤ 2 ^ s.plat.addrW := by decide

/-- The other instance's output begins right after this engine's; both of its events have next states. Of three
instances, the other two have the numbers 0 and 1: 2 is none. -/
theorem witness_InstancesOnDisjointRangesDoNotInteract :
    let s : State := { blocking 17 16 with others := [neighbour] }
    OthersApart s ∧ s.cmd.off < s.cmd.ln ∧ OthersApart { loading with others := [neighbour] } ∧
      (withEvents s [.otherEnds 1]).events = .otherEnds 1 :: [] ∧
      (∀ id ∈ [0, 1, 2], (withEvents s [.otherBegins id [] []]).events = .otherBegins id [] [] :: []) ∧
      0 + 1 < s.plat.nEngines ∧ ¬2 + 1 < s.plat.nEngines ∧ s.others.length + 1 < s.plat.nEngines ∧
      Memory.wf s.mem = true ∧ metByRead 0x3010 1 neighbour = false ∧ metByRead 0x3021 1 neighbour = false := by
  decide

/-- The invariant with every other instance at work. -/
theorem witness_InstancesOnDisjointRangesDoNotInteract_inv :
    MachineInv { active with others := [{ neighbour with id := 0 }, neighbour] } :=
  { inv_active with
    others := by decide
    instances := by decide
    load := fun h => by cases h
    transform := fun h => by cases h }

/-- The same range, the output right after the input, and the output right before it. -/
theorem witness_TransformRunsToInputXorKeystream :
    (∀ dst : Word, MachineInv { active with desc := { active.desc with dstAddr := dst } } ∧
      Undisturbed { active with desc := { active.desc with dstAddr := dst } }) ∧
    ([0x2000, 0x2010, 0x1FF0] : List Word).all (fun dst =>
      let s : State := { active with desc := { active.desc with dstAddr := dst } }
      decide (s.cmd.opk = .idle ∧ s.ctx.life = .active ∧ s.desc.nbytes.toInt = (16 : Nat) ∧
        (s.desc.srcLen.toNat : Int) = (16 : Nat) ∧ 16 ≤ s.desc.srcLen.toNat ∧ 16 ≤ s.desc.dstCap.toNat ∧
        s.desc.srcAddr.toNat + s.desc.srcLen.toNat ≤ 2 ^ s.plat.addrW ∧
        s.desc.dstAddr.toNat + s.desc.dstCap.toNat ≤ 2 ^ s.plat.addrW ∧
        (s.desc.srcAddr = s.desc.dstAddr ∨ s.desc.srcAddr.toNat + 16 = s.desc.dstAddr.toNat ∨
          s.desc.dstAddr.toNat + 16 = s.desc.srcAddr.toNat))) = true := by
  refine ⟨fun dst => ⟨?_, undisturbed_small.2.2.1.1, undisturbed_small.2.2.1.2, rfl, rfl, .inl rfl, rfl⟩, by decide⟩
  exact ⟨inv_active.1, inv_active.2, inv_active.3, inv_active.4, inv_active.5, inv_active.6, inv_active.7,
    (fun h => by cases h), (fun h => by cases h), inv_active.others, inv_active.instances⟩

/-- In place, one whole block, with and without an explicit byte count. -/
theorem witness_TransformTwiceRestoresTheInput :
    let s : State := { active with desc := { active.desc with dstAddr := 0x2000 } }
    (MachineInv s ∧ Undisturbed s) ∧ s.cmd.opk = .idle ∧ s.ctx.life = .active ∧
      s.desc.nbytes.toInt = (16 : Nat) ∧ (s.desc.srcLen.toNat : Int) = (16 : Nat) ∧
      16 ≤ s.desc.srcLen.toNat ∧ 16 ≤ s.desc.dstCap.toNat ∧
      s.desc.srcAddr.toNat + s.desc.srcLen.toNat ≤ 2 ^ s.plat.addrW ∧
      s.desc.dstAddr.toNat + s.desc.dstCap.toNat ≤ 2 ^ s.plat.addrW ∧ s.desc.srcAddr = s.desc.dstAddr :=
  ⟨witness_TransformRunsToInputXorKeystream.1 0x2000, by decide⟩

theorem witness_TransformMemoryIsItsBlocksInOrder :
    MachineInv (blocking 17 0) ∧ Undisturbed (blocking 17 0) ∧
      (blocking 17 0).cmd.opk = .transformPending ∧ (blocking 17 0).cmd.off = 0 :=
  ⟨inv_blocking 0 (by decide), undisturbed_small.2.2.2, by decide⟩

/-- A load step and the tail step have next states; the bytes beside the output range. -/
theorem witness_EngineWritesOnlyTheOutputRange :
    (MachineInv loading ∧ ∃ t, engineStep loading = .next t) ∧
    (MachineInv (blocking 17 16) ∧ ∃ t, engineStep (blocking 17 16) = .next t) ∧
    0x2FFF < (blocking 17 16).cmd.ldst.toNat ∧
    (blocking 17 16).cmd.ldst.toNat + (blocking 17 16).cmd.ln ≤ 0x3011 :=
  ⟨⟨inv_loading, ⟨_, rfl⟩⟩, ⟨inv_blocking 16 (by decide), tail_step⟩, by decide, by decide⟩

theorem witness_EngineStepFrame :
    (∃ t, engineStep loading = .next t) ∧ (∃ t, engineStep active = .next t) ∧
      ∃ t, engineStep (blocking 17 16) = .next t := ⟨⟨_, rfl⟩, ⟨_, rfl⟩, tail_step⟩

/-- Two states that differ in the hint. -/
theorem witness_VectorHintIsUnobservable :
    sameButVec (blocking 17 16) { blocking 17 16 with cmd := { (blocking 17 16).cmd with lvec := true } } ∧
    (blocking 17 16).cmd.lvec = false := ⟨rfl, rfl⟩

theorem witness_ReleaseZeroizesAndSucceeds : bench.cmd.opk = .idle ∧ active.cmd.opk = .idle := by decide

theorem witness_ReleaseTwiceIsReleaseOnce : active.cmd.opk = .idle ∧ active.ctx.life = .active := by decide

theorem witness_AdvanceReturnsAfterAllValues : ∀ k ∈ [1, 2 ^ 128 - 1], 0 < k ∧ k < 2 ^ 128 := by decide

theorem witness_CounterNumberAndBytesAreInverse : ∀ v ∈ [0, 2 ^ 128 - 1], v < 2 ^ 128 := by decide

theorem witness_KeystreamBlocksUseSuccessiveCounters :
    ∀ c ∈ [(0, 1), (1, 2 ^ 128)], c.1 < c.2 ∧ c.2 < c.1 + 2 ^ 128 := by decide

theorem witness_XorCombineIsBytewiseAndUndoesItself :
    (hex 16 1).length ≤ 16 ∧ 0 < (hex 16 1).length ∧ 15 < (hex 16 1).length ∧ ([] : List Byte).length ≤ 16 := by
  decide

/-- DONE, ERR and OVERRUN are set, and the write clears one of them, while BUSY. -/
theorem witness_StatusWriteClearsTheBitsWrittenAsOne :
    ([2, 4, 8, 0xFFFFFFF1] : List Word).all (fun v =>
      let s := withEvents { loading with status := { done := true, err := true, overrun := true } }
        [.regWrite 0x4004 .w32 v]
      decide (s.events = .regWrite (s.plat.regBase + 0x04) .w32 v :: [])) = true := by decide

theorem witness_CtrlKeepsOnlyTheInterruptEnable :
    let s := withEvents loading [.regWrite 0x400C .w32 0xFFFFFFFF]
    s.events = .regWrite (s.plat.regBase + 0x0C) .w32 0xFFFFFFFF :: [] := by decide

/-- The first and the last descriptor register. -/
theorem witness_DescriptorRegistersStoreWhatIsWritten :
    ∀ off ∈ [0x20, 0x40], regAt off ≠ .reserved ∧
      let s := withEvents loading [.regWrite (0x4000 + off) .w32 0xFFFFFFFF]
      s.events = .regWrite (s.plat.regBase + off) .w32 0xFFFFFFFF :: [] := by decide

/-- The read-only registers, and the first and last offset of each reserved range. -/
theorem witness_ReservedAndReadOnlyOffsets :
    (∀ off ∈ [0x08, 0x10, 0x14, 0x18, 0x1C, 0x44, 0xFC],
      (off = 0x08 ∨ off = 0x10 ∨ off = 0x14 ∨ off = 0x18 ∨ off = 0x1C ∨
        (0x44 ≤ off ∧ off ≤ 0xFC ∧ off % 4 = 0)) ∧
      (withEvents bench [.regWrite (0x4000 + off) .w32 1]).events =
        .regWrite (bench.plat.regBase + off) .w32 1 :: []) ∧
    (∀ off ∈ [0x00, 0x14, 0x18, 0x1C, 0x44, 0xFC],
      (off = 0x00 ∨ off = 0x14 ∨ off = 0x18 ∨ off = 0x1C ∨ (0x44 ≤ off ∧ off ≤ 0xFC ∧ off % 4 = 0)) ∧
      (withEvents bench [.regRead (0x4000 + off) .w32]).events =
        .regRead (bench.plat.regBase + off) .w32 :: []) := by decide

theorem witness_RegisterReadsHaveNoSideEffect :
    ∀ off ∈ [0x00, 0x04, 0xFC], off ≤ 0xFC ∧ off % 4 = 0 ∧
      (withEvents active [.regRead (0x4000 + off) .w32]).events =
        .regRead (active.plat.regBase + off) .w32 :: [] := by decide

theorem witness_MisfitWindowAccessIsRefused :
    ∀ c ∈ [(0, AccessWidth.w8), (252, .w64), (1, .w32), (255, .w32)],
      c.1 < 256 ∧ (c.2 ≠ .w32 ∨ c.1 % 4 ≠ 0) ∧
      (withEvents bench [.regWrite (0x4000 + c.1) c.2 1]).events =
        .regWrite (bench.plat.regBase + c.1) c.2 1 :: [] ∧
      (withEvents bench [.regRead (0x4000 + c.1) c.2]).events = .regRead (bench.plat.regBase + c.1) c.2 :: [] := by
  decide

/-- Two states with different counters and keys. -/
theorem witness_RegistersRevealNeitherCounterNorKey :
    sameButSecrets active { active with ctx := { active.ctx with ctr := block 1, key := keyStoreOf [1] } } ∧
      active.ctx.ctr ≠ block 1 := ⟨rfl, by decide⟩

/-- The line is up; each of the four ways to clear it has a next state. -/
theorem witness_InterruptFollowsEnableAndDone :
    let s : State := { active with ie := true, status := { done := true, err := false, overrun := false } }
    irq s = true ∧ s.cmd.opk = .idle ∧
      next (exec (.transform true true true false 0) s) (fun t => t.cmd.opk != .idle) = true ∧
      (2 : Word).getLsbD 1 = true ∧ (0xFFFFFFFE : Word).getLsbD 0 = false ∧
      (∀ e ∈ [Event.regWrite 0x4004 .w32 2, .regWrite 0x400C .w32 0xFFFFFFFE, .reset],
        (withEvents s [e]).events = e :: [] ∧ next (step (withEvents s [e])) (fun _ => true) = true) := by
  decide

/-- Reset in the middle of a command. -/
theorem witness_ResetEventSetsEveryEngineField :
    (withEvents (blocking 17 16) [.reset]).events = .reset :: [] := rfl

theorem witness_IdleEngineWaits : active.cmd.opk = .idle ∧ active.events = [] := by decide

/-- A command word, the load step and the tail step, each from a state that meets the invariant. -/
theorem witness_EveryStepKeepsTheInvariant :
    (MachineInv { active with dmaAnswers := [], events := [.regWrite 0x4000 .w32 0x72] } ∧
      next (step { active with dmaAnswers := [], events := [.regWrite 0x4000 .w32 0x72] })
        (fun t => t.cmd.opk == .transformPending) = true) ∧
    (MachineInv loading ∧ ∃ t, step loading = .next t) ∧
    (MachineInv (blocking 17 16) ∧ ∃ t, step (blocking 17 16) = .next t) :=
  ⟨⟨machineInv_of_agents inv_active [] _, by decide⟩, ⟨inv_loading, ⟨_, rfl⟩⟩, inv_blocking 16 (by decide),
    tail_step⟩

theorem witness_EngineNeverStopsUnderTheInvariant :
    MachineInv (blocking 17 0) ∧ (blocking 17 0).plat.devices = [] ∧
      step (withEvents (blocking 17 0) [.memRead .host 0xFFFF 2]) = .fault .busOutsideMemory :=
  ⟨inv_blocking 0 (by decide), rfl, rfl⟩

theorem witness_LifeStateTransitions :
    (∃ t, step loading = .next t) ∧ (∃ t, step (withEvents active [.regWrite 0x4000 .w32 3]) = .next t) ∧
      ∃ t, step (withEvents active [.reset]) = .next t := ⟨⟨_, rfl⟩, ⟨_, rfl⟩, ⟨_, rfl⟩⟩

/-- The tail step and the acceptance of a TRANSFORM keep the context ACTIVE. -/
theorem witness_ActiveKeyAndEndiannessAreFixed :
    MachineInv (blocking 17 16) ∧ (∃ t, step (blocking 17 16) = .next t) ∧ (blocking 17 16).ctx.life = .active ∧
    MachineInv { active with dmaAnswers := [], events := [.regWrite 0x4000 .w32 0x72] } ∧
    next (step { active with dmaAnswers := [], events := [.regWrite 0x4000 .w32 0x72] })
      (fun t => t.ctx.life == .active) = true :=
  ⟨inv_blocking 16 (by decide), tail_step, rfl, machineInv_of_agents inv_active [] _, by decide⟩

/-- The tail step has a next state in which the context is ACTIVE. -/
theorem witness_CounterMovesOnlyByAdvance :
    MachineInv (blocking 17 16) ∧ (blocking 17 16).ctx.life = .active ∧
      ∃ t, step (blocking 17 16) = .next t ∧ t.ctx.life = .active := by
  refine ⟨inv_blocking 16 (by decide), rfl, ?_⟩
  obtain ⟨t, h⟩ := tail_step
  refine ⟨t, h, ?_⟩
  obtain ⟨-, -, h | h | h⟩ := transformBlock_next h <;> rw [h]
  · rfl
  · exact (congrArg Context.life (beforeWrite_ctx (blocking 17 16))).trans rfl
  · unfold finishBlock
    split <;> exact (congrArg Context.life (beforeWrite_ctx (blocking 17 16))).trans rfl

theorem witness_OnlyTheHostChangesDescriptors :
    (∃ t, step (blocking 17 16) = .next t) ∧ (blocking 17 16).events.head? ≠ some .reset ∧
      ∀ addr width v, (blocking 17 16).events.head? ≠ some (.regWrite addr width v) :=
  ⟨tail_step, by decide, fun _ _ _ h => by cases h⟩

theorem witness_EveryAcceptedCommandCompletes :
    (MachineInv loading ∧ loading.cmd.opk ≠ .idle ∧ loading.events = [] ∧ loading.plat.devices = []) ∧
    MachineInv (blocking 17 0) ∧ (blocking 17 0).cmd.opk ≠ .idle ∧ (blocking 17 0).events = [] ∧
      (blocking 17 0).plat.devices = [] :=
  ⟨⟨inv_loading, by decide⟩, inv_blocking 0 (by decide), by decide⟩

/-- The load step of a raced and an unraced CONSTRUCT both have next states. -/
theorem witness_ControlFlowIsIndependentOfData :
    (∃ t, engineStep loading = .next t) ∧
      ∃ t, engineStep { loading with mem := [(0x1020, 1)], fresh := 5, raced := true } = .next t :=
  ⟨⟨_, rfl⟩, ⟨_, rfl⟩⟩

/-- A read whose last byte is the first the other instance writes, and a write whose first is the last it reads. -/
theorem witness_RequestsOfTwoInstancesToOneByteRace :
    let s : State := { blocking 17 0 with others := [neighbour] }
    s.cmd.opk ≠ .idle ∧ s.plat.devices = [] ∧ s.dmaAnswers.headD true = true ∧ neighbour ∈ s.others ∧
      0x3002 + 16 ≤ 2 ^ s.plat.addrW ∧ { base := 0x3011, len := 16 } ∈ neighbour.writes ∧
      overlaps 0x3002 16 0x3011 16 = true ∧
      0x2010 + ([1] : List Byte).length ≤ 2 ^ s.plat.addrW ∧
      { base := 0x2000, len := 17 } ∈ neighbour.reads ++ neighbour.writes ∧
      overlaps 0x2010 1 0x2000 17 = true := by decide

/-- A write of one byte to the last byte of the key, of the counter, of the input and of the output. -/
theorem witness_RacingHostWriteMarksTheCommand :
    (∀ a ∈ [0xFFFF, 0x102F],
      let s := withEvents loading [.memWrite .host a [1]]
      Memory.wf s.mem = true ∧ s.events = .memWrite .host a [1] :: [] ∧ a + 1 ≤ 2 ^ s.plat.addrW ∧
        (overlaps a 1 s.cmd.lka.toNat s.cmd.lkl = true ∨ overlaps a 1 s.cmd.lca.toNat 16 = true) ∧
        s.cmd.opk = .constructPending) ∧
    (∀ a ∈ [0x2010, 0x3010],
      let s := withEvents (blocking 17 16) [.memWrite .host a [1]]
      Memory.wf s.mem = true ∧ s.events = .memWrite .host a [1] :: [] ∧ a + 1 ≤ 2 ^ s.plat.addrW ∧
        (overlaps a 1 s.cmd.lsrc.toNat s.cmd.ln = true ∨ overlaps a 1 s.cmd.ldst.toNat s.cmd.ln = true) ∧
        s.cmd.opk = .transformPending) := by decide

/-- The last byte of memory, and an empty write, beside another instance's command. -/
theorem witness_HostReadsBackWhatItWrote :
    ∀ c ∈ [(0xFFFF, [(1 : Byte)]), (0x10000, [])],
      let s := withEvents { active with others := [neighbour] } [.memWrite .host c.1 c.2, .memRead .host c.1 c.2.length]
      Memory.wf s.mem = true ∧ s.cmd.opk = .idle ∧
        s.events = .memWrite .host c.1 c.2 :: .memRead .host c.1 c.2.length :: [] ∧
        c.1 + c.2.length ≤ 2 ^ s.plat.addrW ∧ s.vis.unseen = [] ∧ s.vis.stale = [] ∧
        ∀ o ∈ s.others, metByRead c.1 c.2.length o = false := by decide

/-- Output bytes not yet seen, on a coherent platform (there also bytes that another master wrote before) and on one
that is not. -/
theorem witness_ObservedCompletionMakesOutputVisible :
    let v : Visibility := { hostDirty := [], unseen := [0x3000], stale := [] }
    let s := withEvents { active with vis := v } [.regRead 0x4004 .w32, .memRead .host 0x3000 16]
    let t := withEvents { active with vis := v, plat := { active.plat with coherent := false } }
      [.regRead 0x4004 .w32, .maintain 0x3000 16, .memRead .host 0x3000 16]
    let r : State := { s with vis := { hostDirty := [], unseen := [], stale := [0x3000] } }
    (Memory.wf r.mem = true ∧ (dmaStore r 0x3000 (hex 16 1)).cmd.opk = .idle ∧ (hex 16 1).length = 16 ∧
      (dmaStore r 0x3000 (hex 16 1)).plat.coherent = true ∧ (dmaStore r 0x3000 (hex 16 1)).others = [] ∧
      (dmaStore r 0x3000 (hex 16 1)).events =
        .regRead ((dmaStore r 0x3000 (hex 16 1)).plat.regBase + 0x04) .w32 :: .memRead .host 0x3000 16 :: []) ∧
    (s.cmd.opk = .idle ∧ s.others = [] ∧ 0x3000 + 16 ≤ 2 ^ s.plat.addrW ∧ s.plat.coherent = true ∧ s.vis.stale = [] ∧
      s.events = .regRead (s.plat.regBase + 0x04) .w32 :: .memRead .host 0x3000 16 :: []) ∧
    t.cmd.opk = .idle ∧ t.plat.coherent = false ∧
      t.events = .regRead (t.plat.regBase + 0x04) .w32 :: .maintain 0x3000 16 :: .memRead .host 0x3000 16 :: [] := by
  decide

theorem witness_DmaReadOfUnflushedByteIsARace :
    let s : State := { blocking 17 0 with
      plat := { active.plat with coherent := false }
      vis := { hostDirty := [0x2000], unseen := [], stale := [] } }
    s.cmd.opk ≠ .idle ∧ s.plat.coherent = false ∧ s.plat.devices = [] ∧ 0x2000 + 16 ≤ 2 ^ s.plat.addrW ∧
      s.dmaAnswers.headD true = true ∧ inRange 0x2000 16 0x2000 = true ∧ 0x2000 ∈ s.vis.hostDirty ∧
      s.others = [] := by decide

/-- A read and a write whose last byte is the device's first, admitted and refused. -/
theorem witness_DmaToDeviceIsRefused :
    ∀ l ∈ [[true], [false]],
      let d : Span := { base := 0x200F, len := 1 }
      let s : State := { blocking 17 0 with plat := { active.plat with devices := [d] }, dmaAnswers := l }
      0x2000 + 16 ≤ 2 ^ s.plat.addrW ∧ d ∈ s.plat.devices ∧ overlaps 0x2000 16 d.base d.len = true ∧
        (hex 16 1).length = 16 ∧ (s.dmaAnswers.headD true = true ∨ s.dmaAnswers.headD true = false) := by decide

theorem witness_AccessOutsideMemoryFaults :
    2 ^ bench.plat.addrW < 0xFFFF + ([1, 2] : List Byte).length ∧ 2 ^ bench.plat.addrW < 0xFFFF + 2 ∧
      (withEvents bench [.memWrite .host 0xFFFF [1, 2]]).events = .memWrite .host 0xFFFF [1, 2] :: [] ∧
      (withEvents bench [.memRead (.other 1) 0xFFFF 2]).events = .memRead (.other 1) 0xFFFF 2 :: [] := by decide

end Sys2Proof.Tests
end

namespace Sys2Proof.Machine

/-! ### The invariant, taken apart

`MachineInv` speaks of memory, of the other instances' commands, of the context and of the command in progress. What it
says of the first two is named here, with the operations that keep it; a step then needs an argument only for what it
changes. -/

/-- Memory is canonical and inside the platform's `2^ADDR_W` bytes (R60). -/
abbrev MemoryOk (p : Platform) (m : Memory) : Prop :=
  Memory.wf m = true ∧ Memory.below (memSize p) m = true

/-- The commands of other instances write inside memory; they stand on engines the platform has, one on each
(R9, R80, R81, R282). -/
structure OthersOk (p : Platform) (l : List OtherCommand) : Prop where
  writes : ∀ o ∈ l, ∀ d ∈ o.writes, d.base + d.len ≤ memSize p
  present : ∀ id ∈ l.map OtherCommand.id, id + 1 < p.nEngines
  nodup : (l.map OtherCommand.id).Nodup

/-- What the invariant says whatever command is in progress. -/
structure StandingInv (s : State) : Prop where
  platform : 1 ≤ s.plat.addrW ∧ s.plat.addrW ≤ 32 ∧ 1 ≤ s.plat.nEngines
  memory : MemoryOk s.plat s.mem
  context : ContextOk s.ctx
  blocks : s.blkcnt.toNat ≤ 2 ^ 28
  others : OthersOk s.plat s.others

theorem MachineInv.othersOk {s : State} (h : MachineInv s) : OthersOk s.plat s.others :=
  ⟨h.others, h.instances.1, h.instances.2⟩

theorem MachineInv.standing {s : State} (h : MachineInv s) : StandingInv s :=
  ⟨h.platform, h.memory, h.context, h.blocks, h.othersOk⟩

/-- A sequence write inside memory keeps memory in order (R60). -/
theorem memoryOk_writeBytes {p : Platform} {m : Memory} (h : MemoryOk p m) {a : Nat} {bytes : List Byte}
    (ha : a + bytes.length ≤ memSize p) : MemoryOk p (writeBytes m a bytes) :=
  ⟨writeBytes_wf bytes m a h.1, writeBytes_below _ bytes m a ha h.2⟩

/-- A race mark changes neither the ranges of a command nor the engine that runs it. -/
theorem OthersOk.marked {p : Platform} {l : List OtherCommand} (h : OthersOk p l) (mark : OtherCommand → Bool) :
    OthersOk p (l.map fun o => { o with raced := mark o }) := by
  have hids : (l.map fun o => { o with raced := mark o }).map OtherCommand.id = l.map OtherCommand.id := by simp
  refine ⟨?_, hids ▸ h.present, hids ▸ h.nodup⟩
  simpa using h.writes

theorem OthersOk.filter {p : Platform} {l : List OtherCommand} (h : OthersOk p l) (keep : OtherCommand → Bool) :
    OthersOk p (l.filter keep) := by
  have hsub : (l.filter keep).Sublist l := List.filter_sublist
  exact ⟨fun o ho => h.writes o (hsub.subset ho), fun id hid => h.present id ((hsub.map _).subset hid),
    h.nodup.sublist (hsub.map _)⟩

theorem OthersOk.cons {p : Platform} {l : List OtherCommand} {o : OtherCommand} (h : OthersOk p l)
    (hid : o.id + 1 < p.nEngines) (hfree : o.id ∉ l.map OtherCommand.id)
    (hw : ∀ d ∈ o.writes, d.base + d.len ≤ memSize p) : OthersOk p (o :: l) :=
  ⟨List.forall_mem_cons.mpr ⟨hw, h.writes⟩, List.forall_mem_cons.mpr ⟨hid, h.present⟩,
    List.nodup_cons.mpr ⟨hfree, h.nodup⟩⟩

/-! ### Steps that keep the engine -/

/-- The engine's registers and command stay as they were, but that STATUS bits may be cleared and a command in
progress may be marked as raced. -/
structure EngineKept (s t : State) : Prop where
  plat : t.plat = s.plat
  ctx : t.ctx = s.ctx
  errInfo : t.errInfo = s.errInfo
  blkcnt : t.blkcnt = s.blkcnt
  cmd : t.cmd = s.cmd
  done : t.status.done = true → s.status.done = true
  err : t.status.err = true → s.status.err = true
  idle : s.cmd.opk = .idle → t.raced = s.raced

theorem EngineKept.outcomeClear {s t : State} (k : EngineKept s t) (h : outcomeClear s = true) :
    outcomeClear t = true := by
  have hd := k.done
  have he := k.err
  simp only [Machine.outcomeClear, Bool.and_eq_true, Bool.not_eq_true', beq_iff_eq, k.errInfo] at h ⊢
  obtain ⟨⟨hdone, herr⟩, hinfo⟩ := h
  exact ⟨⟨by simpa [hdone] using hd, by simpa [herr] using he⟩, hinfo⟩

/-- A step that keeps the engine keeps the invariant, if it keeps memory and the other instances' commands in
order. -/
theorem MachineInv.of_kept {s t : State} (h : MachineInv s) (k : EngineKept s t) (hm : MemoryOk s.plat t.mem)
    (ho : OthersOk s.plat t.others) : MachineInv t where
  platform := k.plat ▸ h.platform
  memory := k.plat ▸ hm
  context := k.ctx ▸ h.context
  report := k.errInfo ▸ h.report
  errClass := fun e => k.errInfo ▸ h.errClass (k.err e)
  blocks := k.blkcnt ▸ h.blocks
  idle := fun i => by
    rw [k.cmd] at i
    exact (k.idle i).trans (h.idle i)
  load := fun i => by
    obtain ⟨life, keyLength, keyRange, ctrRange, noBlocks, clear⟩ := h.load (k.cmd ▸ i)
    exact ⟨k.ctx ▸ life, k.cmd ▸ keyLength, by rwa [k.cmd, k.plat], by rwa [k.cmd, k.plat], k.blkcnt ▸ noBlocks,
      k.outcomeClear clear⟩
  transform := fun i => by
    obtain ⟨life, left, bound, blocks, srcRange, dstRange, clear⟩ := h.transform (k.cmd ▸ i)
    exact ⟨k.ctx ▸ life, by rwa [k.cmd], by rwa [k.cmd], by rwa [k.cmd, k.blkcnt], by rwa [k.cmd, k.plat],
      by rwa [k.cmd, k.plat], k.outcomeClear clear⟩
  others := k.plat ▸ ho.writes
  instances := k.plat ▸ ⟨ho.present, ho.nodup⟩

/-- The invariant does not read the descriptors, CTRL, the agents' side or the free counter. -/
theorem MachineInv.of_unread {s : State} (h : MachineInv s) (desc : Descriptors) (ie : Bool) (answers : List Bool)
    (coming : List Event) (vis : Visibility) (word : Word) (bytes : List Byte) (fresh : Nat) :
    MachineInv { s with
      desc := desc, ie := ie, dmaAnswers := answers, events := coming, vis := vis, busWord := word,
      busBytes := bytes, fresh := fresh } :=
  h.of_kept ⟨rfl, rfl, rfl, rfl, rfl, id, id, fun _ => rfl⟩ h.memory h.othersOk

theorem MachineInv.afterTaking {s : State} (h : MachineInv s) : MachineInv (afterTaking s) :=
  h.of_unread _ _ _ _ _ _ _ _

theorem MachineInv.tookAnswer {s : State} (h : MachineInv s) : MachineInv (tookAnswer s) :=
  h.of_unread _ _ _ _ _ _ _ _

/-- A write inside memory keeps the invariant, whatever it hides from whom. -/
theorem MachineInv.stored {s : State} (h : MachineInv s) {a : Nat} {bytes : List Byte} (vis : Visibility)
    (ha : a + bytes.length ≤ memSize s.plat) :
    MachineInv { s with mem := writeBytes s.mem a bytes, vis := vis } :=
  h.of_kept ⟨rfl, rfl, rfl, rfl, rfl, id, id, fun _ => rfl⟩ (memoryOk_writeBytes h.memory ha) h.othersOk

theorem MachineInv.markOthers {s : State} (h : MachineInv s) (hit : OtherCommand → Bool) :
    MachineInv (markOthers hit s) :=
  h.of_kept ⟨rfl, rfl, rfl, rfl, rfl, id, id, fun _ => rfl⟩ h.memory (h.othersOk.marked _)

theorem MachineInv.raceOthers {s : State} (h : MachineInv s) (who : Master) (met : OtherCommand → Bool)
    (ours : Bool) : MachineInv (raceOthers who met ours s) :=
  h.markOthers _

/-- A race frees only the output range of the TRANSFORM in progress, which lies in memory (R79). -/
theorem MachineInv.corrupt {s : State} (h : MachineInv s) : MachineInv (corrupt s) := by
  rcases corrupt_cases s with ⟨-, e⟩ | ⟨hk, e⟩ | ⟨hk, e⟩ <;> rw [e]
  · exact h
  · exact h.of_kept ⟨rfl, rfl, rfl, rfl, rfl, id, id, fun i => by simp [hk] at i⟩ h.memory h.othersOk
  · refine h.of_kept ⟨rfl, rfl, rfl, rfl, rfl, id, id, fun i => by simp [hk] at i⟩
      (memoryOk_writeBytes h.memory ?_) h.othersOk
    rw [freeBytes_length]
    exact (h.transform hk).dstRange

theorem MachineInv.corrupt_if {s t : State} {b : Bool} (h : MachineInv s)
    (ht : (b = false ∧ t = s) ∨ (b = true ∧ t = Machine.corrupt s)) : MachineInv t := by
  rcases ht with ⟨-, rfl⟩ | ⟨-, rfl⟩
  · exact h
  · exact h.corrupt

theorem MachineInv.meetOthers {s : State} (h : MachineInv s) (missed : Bool) (met : OtherCommand → Bool) :
    MachineInv (meetOthers missed met s) := by
  rcases meetOthers_cases missed met s with e | e <;> rw [e]
  · exact h
  · exact (h.markOthers met).corrupt

theorem MachineInv.afterRead {s : State} (h : MachineInv s) (a n : Nat) : MachineInv (afterRead s a n) :=
  h.tookAnswer.meetOthers _ _

theorem MachineInv.beforeWrite {s : State} (h : MachineInv s) : MachineInv (beforeWrite s) := by
  rw [Machine.beforeWrite, blockOutput_state]
  exact (h.afterRead _ _).of_unread _ _ _ _ _ _ _ _

theorem MachineInv.afterWrite {s : State} (h : MachineInv s) {a : Nat} {bytes : List Byte}
    (ha : a + bytes.length ≤ memSize s.plat) : MachineInv (afterWrite s a bytes) :=
  (h.tookAnswer.stored _ ha).meetOthers _ _

/-- A register store other than a command keeps the invariant: of what it reads, only STATUS bits are cleared
(R35). -/
theorem MachineInv.writeReg {s : State} (h : MachineInv s) (r : Reg) (v : Word) : MachineInv (writeReg s r v) := by
  have clears : EngineKept s { s with status := statusAfterWrite s.status v } :=
    ⟨rfl, rfl, rfl, rfl, rfl, by simp +contextual [statusAfterWrite], by simp +contextual [statusAfterWrite],
      fun _ => rfl⟩
  cases r with
  | status => exact h.of_kept clears h.memory h.othersOk
  | cmd | errInfo | blkcnt | reserved => exact h
  | ctrl | keyAddr | keyLen | ctrAddr | ctrLen | srcAddr | srcLen | dstAddr | dstCap | nbytes =>
    exact h.of_unread _ _ _ _ _ _ _ _

theorem MachineInv.observeStatus {s : State} (h : MachineInv s) : MachineInv (observeStatus s) := by
  unfold Machine.observeStatus
  split
  · exact h
  · split <;> exact h.of_unread _ _ _ _ _ _ _ _

theorem MachineInv.beginOther {s : State} (h : MachineInv s) (id : Nat) (reads writes : List Span) :
    MachineInv (beginOther id reads writes s) := by
  rcases beginOther_cases id reads writes s with e | ⟨hid, hfree, hr, e⟩ <;> rw [e]
  · exact h
  · exact h.of_kept ⟨rfl, rfl, rfl, rfl, rfl, fun d => d, fun d => d, fun _ => rfl⟩ h.memory
      (h.othersOk.cons hid hfree fun d hd => hr d (List.mem_append_right _ hd))

theorem MachineInv.endOther {s : State} (h : MachineInv s) (id : Nat) : MachineInv (endOther id s) := by
  have hm : MemoryOk s.plat (Machine.endOther id s).mem := endOther_mem_ok id s h.memory.1 h.memory.2 h.others
  have ho : OthersOk s.plat (Machine.endOther id s).others := by
    rw [endOther_frame]
    exact h.othersOk.filter _
  exact h.of_kept ⟨by simp, by simp, by simp, by simp, by simp, by simp, by simp, by simp⟩ hm ho

/-! ### Steps that end or begin a command -/

/-- Whatever a command did within the standing part of the invariant, its completion is idle and reports a defined
code (R261, R262). -/
theorem StandingInv.complete {s : State} (h : StandingInv s) (c : Completion) : MachineInv (complete c s) where
  platform := h.platform
  memory := h.memory
  context := h.context
  report := ⟨c, rfl⟩
  errClass := by simp
  blocks := h.blocks
  idle := fun _ => rfl
  load := fun k => by simp at k
  transform := fun k => by simp at k
  others := h.others.writes
  instances := ⟨h.others.present, h.others.nodup⟩

theorem StandingInv.beginCommand {s : State} (h : StandingInv s) : StandingInv (beginCommand s) :=
  ⟨h.platform, h.memory, h.context, Nat.zero_le _, h.others⟩

theorem StandingInv.with_context {s : State} (h : StandingInv s) {c : Context} (hc : ContextOk c) (fresh : Nat) :
    StandingInv { s with ctx := c, fresh := fresh } :=
  ⟨h.platform, h.memory, hc, h.blocks, h.others⟩

theorem contextOk_zeroed {life : Life} (h : life ≠ .active) : ContextOk (Context.zeroed life) where
  activeKey := fun e => absurd e h
  inactiveZero := fun _ => rfl
  keyTail := fun i _ => by simp [Context.zeroed]

/-- A loaded context is consistent, its key store being filled with `klen` bytes (R22, R121). -/
theorem contextOk_loaded {key : List Byte} {ctr : Block} {le : Bool} (h : keyLengthOk key.length = true) :
    ContextOk { ctr := ctr, key := keyStoreOf key, klen := key.length, le := le, life := .active } where
  activeKey := fun _ => h
  inactiveZero := fun e => absurd rfl e
  keyTail := keyStoreOf_tail key

theorem contextOk_with_ctr {c : Context} (h : ContextOk c) (hl : c.life = .active) (ctr : Block) :
    ContextOk { c with ctr := ctr } where
  activeKey := h.activeKey
  inactiveZero := fun e => absurd hl e
  keyTail := h.keyTail

/-- An accepted CONSTRUCT is pending with what its checks promise (R49, R120). -/
theorem StandingInv.latchConstruct {s : State} (h : StandingInv s) {kp cp : Bool} (le : Bool)
    (he : constructError kp cp (Machine.beginCommand s) = none) :
    MachineInv (latchConstruct le (Machine.beginCommand s)) := by
  obtain ⟨hlife, -, hkey, -, -, hkr, hcr⟩ := constructError_none.mp he
  exact {
    platform := h.platform
    memory := h.memory
    context := h.context
    report := ⟨.ok, rfl⟩
    errClass := by simp
    blocks := Nat.zero_le _
    idle := fun _ => rfl
    load := fun _ => ⟨hlife, hkey, hkr, hcr, rfl, rfl⟩
    transform := fun k => by simp at k
    others := h.others.writes
    instances := ⟨h.others.present, h.others.nodup⟩ }

/-- An accepted TRANSFORM of some bytes is pending with what its checks promise (R49, R180). -/
theorem StandingInv.latchTransform {s : State} (h : StandingInv s) {sp dp np : Bool} (vec : Bool)
    (he : transformError sp dp np (Machine.beginCommand s) = none) (hn : byteCount np s.desc ≠ 0) :
    MachineInv (latchTransform vec (byteCount np s.desc).toNat (Machine.beginCommand s)) := by
  obtain ⟨hlife, -, -, h0, hsrc, hdst, hsr, hdr⟩ := transformError_none.mp he
  simp only [beginCommand_desc, beginCommand_plat] at h0 hsrc hdst hsr hdr
  have hlt := s.desc.srcLen.isLt
  have pending : BlocksOk (Machine.latchTransform vec (byteCount np s.desc).toNat (Machine.beginCommand s)) := by
    refine ⟨hlife, ?_, ?_, rfl, ?_, ?_, rfl⟩ <;> simp only [latchTransform_cmd, latchTransform_plat,
      beginCommand_desc, beginCommand_plat] <;> omega
  exact {
    platform := h.platform
    memory := h.memory
    context := h.context
    report := ⟨.ok, rfl⟩
    errClass := by simp
    blocks := Nat.zero_le _
    idle := fun _ => rfl
    load := fun k => by simp at k
    transform := fun _ => pending
    others := h.others.writes
    instances := ⟨h.others.present, h.others.nodup⟩ }

/-- Every command word keeps the invariant (R103). -/
theorem MachineInv.exec {i : Instr} {s t : State} (h : MachineInv s) (he : exec i s = .next t) : MachineInv t := by
  rcases exec_next he with ⟨-, rfl⟩ | ⟨-, ⟨c, rfl⟩ | ⟨le, kp, cp, -, hc, rfl⟩ | ⟨sp, dp, np, vec, -, hc, hn, rfl⟩ |
    ⟨-, -, rfl⟩⟩
  · exact h.of_kept ⟨rfl, rfl, rfl, rfl, rfl, id, id, fun _ => rfl⟩ h.memory h.othersOk
  · exact h.standing.beginCommand.complete c
  · exact h.standing.latchConstruct le hc
  · exact h.standing.latchTransform vec hc hn
  · exact (h.standing.beginCommand.with_context (contextOk_zeroed (by decide)) _).complete .ok

/-- The load step ends its command, with a consistent context if it loads one (R121). -/
theorem MachineInv.constructLoad {s t : State} (h : MachineInv s) (hk : s.cmd.opk = .constructPending)
    (ht : constructLoad s = .next t) : MachineInv t := by
  rcases constructLoad_next ht with rfl | rfl | rfl
  · exact h.tookAnswer.standing.complete _
  · exact (h.afterRead _ _).tookAnswer.standing.complete _
  · obtain ⟨key, ctr, hlen, hctx⟩ := finishLoad_ctx (readBytes s.mem s.cmd.lka.toNat s.cmd.lkl)
      (readBytes (Machine.afterRead s s.cmd.lka.toNat s.cmd.lkl).mem s.cmd.lca.toNat 16)
      (Machine.afterRead (Machine.afterRead s s.cmd.lka.toNat s.cmd.lkl) s.cmd.lca.toNat 16) (by simp)
    rw [finishLoad_report, hctx, ← hlen]
    refine (((h.afterRead _ _).afterRead _ _).standing.with_context (contextOk_loaded ?_) _).complete _
    rw [hlen]
    simpa using (h.load hk).keyLength

/-- A committed block keeps the invariant: BLKCNT counts the blocks, and after a block that is not the last one, of
16 bytes, at least a byte is left (R38, R49, R181). -/
theorem MachineInv.finishBlock {s : State} (h : MachineInv s) (hk : s.cmd.opk = .transformPending) (ctr : Block) :
    MachineInv (finishBlock ctr (blockSize s.cmd) s) := by
  obtain ⟨life, left, bound, blocks, srcRange, dstRange, clear⟩ := h.transform hk
  have hcount : (s.blkcnt + 1).toNat = s.blkcnt.toNat + 1 := by
    rw [BitVec.toNat_add_of_lt] <;> simp; omega
  have standing : StandingInv (commitBlock ctr (blockSize s.cmd) s) :=
    ⟨h.platform, h.memory, contextOk_with_ctr h.context life ctr, by simp only [commitBlock_blkcnt]; omega,
      h.othersOk⟩
  unfold Machine.finishBlock
  split
  · exact standing.complete _
  · next hlast =>
    have hsize : blockSize s.cmd = 16 := by
      simp only [blockSize, Config.blockBytes] at hlast ⊢
      omega
    have pending : BlocksOk (commitBlock ctr (blockSize s.cmd) s) := by
      refine ⟨life, ?_, bound, ?_, srcRange, dstRange, clear⟩ <;> simp only [commitBlock_cmd, commitBlock_blkcnt]
      · simp only [blockSize, Config.blockBytes] at hlast ⊢
        omega
      · omega
    exact {
      platform := h.platform
      memory := h.memory
      context := standing.context
      report := h.report
      errClass := h.errClass
      blocks := standing.blocks
      idle := fun i => by simp [hk] at i
      load := fun i => by simp [hk] at i
      transform := fun _ => pending
      others := h.others
      instances := h.instances }

/-- The block step ends its command or commits its block (R181). -/
theorem MachineInv.transformBlock {s t : State} (h : MachineInv s) (hk : s.cmd.opk = .transformPending)
    (ht : transformBlock s = .next t) : MachineInv t := by
  have hdst := (h.transform hk).dstRange
  obtain ⟨-, hleft, rfl | rfl | rfl⟩ := transformBlock_next ht
  · exact h.tookAnswer.standing.complete _
  · exact h.beforeWrite.tookAnswer.standing.complete _
  · have hw : MachineInv (Machine.afterWrite (Machine.beforeWrite s) (s.cmd.ldst.toNat + s.cmd.off)
        (blockBytesOut s)) := by
      refine h.beforeWrite.afterWrite ?_
      rw [blockBytesOut_length, beforeWrite_plat, blockSize]
      omega
    have := hw.finishBlock (by simpa using hk) (nextBlock s.ctx).2
    simpa using this

theorem MachineInv.engineStep {s t : State} (h : MachineInv s) (ht : engineStep s = .next t) : MachineInv t := by
  rcases engineStep_next ht with ⟨-, rfl⟩ | ⟨hk, ht⟩ | ⟨hk, ht⟩
  · exact h
  · exact h.constructLoad hk ht
  · exact h.transformBlock hk ht

theorem MachineInv.resetEngine {s : State} (h : MachineInv s) : MachineInv (resetEngine s) where
  platform := h.platform
  memory := h.memory
  context := contextOk_zeroed (by decide)
  report := ⟨.ok, rfl⟩
  errClass := by simp [State.reset]
  blocks := Nat.zero_le _
  idle := fun _ => rfl
  load := fun k => by simp [State.reset] at k
  transform := fun k => by simp [State.reset] at k
  others := h.others
  instances := h.instances

/-- Every step keeps the invariant, by the agent that moves (R14). -/
theorem MachineInv.step {s t : State} (h : MachineInv s) (ht : step s = .next t) : MachineInv t := by
  have h' := h.afterTaking
  rcases step_next ht with ⟨-, he⟩ | ⟨_, _, w, -, he⟩ | ⟨_, _, r, v, -, -, rfl⟩ | ⟨_, _, r, -, rfl | rfl⟩ |
    ⟨who, a, bytes, -, ha, u, rfl, hr⟩ | ⟨who, a, n, -, -, bytes, f, u, rfl, hr⟩ | ⟨a, n, -, rfl⟩ |
    ⟨id, reads, writes, -, rfl⟩ | ⟨id, -, rfl⟩ | ⟨-, rfl⟩
  · exact h'.engineStep he
  · exact h'.exec he
  · exact h'.writeReg r v
  · exact h'.of_unread _ _ _ _ _ _ _ _
  · exact MachineInv.observeStatus (h'.of_unread _ _ _ _ _ _ _ _)
  · exact ((h'.stored _ ha).raceOthers _ _ _).corrupt_if hr
  · exact MachineInv.corrupt_if (MachineInv.raceOthers (h'.of_unread _ _ _ _ _ _ _ _) _ _ _) hr
  · exact h'.of_unread _ _ _ _ _ _ _ _
  · exact h'.beginOther id reads writes
  · exact h'.endOther id
  · exact h'.resetEngine

/-- Settles O46, by the agent that moves. -/
theorem everyStepKeepsTheInvariant : Obligations.EveryStepKeepsTheInvariant :=
  fun _ _ => MachineInv.step

end Sys2Proof.Machine

namespace Sys2Proof.Machine

/-! ### Who changes the descriptor registers and CTRL -/

@[simp] theorem finishLoad_plat (key ctr : List Byte) (s : State) : (finishLoad key ctr s).plat = s.plat := by
  rw [finishLoad_report, complete_plat]
@[simp] theorem finishLoad_desc (key ctr : List Byte) (s : State) : (finishLoad key ctr s).desc = s.desc := by
  rw [finishLoad_report, complete_desc]
@[simp] theorem finishLoad_ie (key ctr : List Byte) (s : State) : (finishLoad key ctr s).ie = s.ie := by
  rw [finishLoad_report, complete_ie]

@[simp] theorem finishBlock_plat (ctr : Block) (m : Nat) (s : State) : (finishBlock ctr m s).plat = s.plat := by
  unfold finishBlock; split <;> rfl
@[simp] theorem finishBlock_desc (ctr : Block) (m : Nat) (s : State) : (finishBlock ctr m s).desc = s.desc := by
  unfold finishBlock; split <;> rfl
@[simp] theorem finishBlock_ie (ctr : Block) (m : Nat) (s : State) : (finishBlock ctr m s).ie = s.ie := by
  unfold finishBlock; split <;> rfl

@[simp] theorem observeStatus_plat (s : State) : (observeStatus s).plat = s.plat := by
  unfold observeStatus; split_ifs <;> rfl
@[simp] theorem observeStatus_desc (s : State) : (observeStatus s).desc = s.desc := by
  unfold observeStatus; split_ifs <;> rfl
@[simp] theorem observeStatus_ie (s : State) : (observeStatus s).ie = s.ie := by
  unfold observeStatus; split_ifs <;> rfl

@[simp] theorem writeReg_plat (s : State) (r : Reg) (v : Word) : (writeReg s r v).plat = s.plat := by
  cases r <;> rfl

/-- The platform's parameters, the descriptor registers and CTRL are the same in both states. -/
structure SettingsKept (s t : State) : Prop where
  plat : t.plat = s.plat
  desc : t.desc = s.desc
  ie : t.ie = s.ie

/-- Taking an event from the coming ones changes none of them. -/
theorem SettingsKept.of_afterTaking {s t : State} (h : SettingsKept (afterTaking s) t) : SettingsKept s t :=
  ⟨h.plat, h.desc, h.ie⟩

/-- The engine's turn changes no descriptor register and not CTRL (R48). -/
theorem engineStep_settingsKept {s t : State} (h : engineStep s = .next t) : SettingsKept s t := by
  rcases engineStep_next h with ⟨-, rfl⟩ | ⟨-, h⟩ | ⟨-, h⟩
  · exact ⟨rfl, rfl, rfl⟩
  · rcases constructLoad_next h with rfl | rfl | rfl <;> constructor <;> simp
  · obtain ⟨-, -, rfl | rfl | rfl⟩ := transformBlock_next h <;> constructor <;> simp

/-- A command word changes no descriptor register and not CTRL (R28, R48). -/
theorem exec_settingsKept {i : Instr} {s t : State} (h : exec i s = .next t) : SettingsKept s t := by
  rcases exec_next h with ⟨-, rfl⟩ | ⟨-, ⟨_, rfl⟩ | ⟨_, _, _, -, -, rfl⟩ | ⟨_, _, _, _, -, -, -, rfl⟩ | ⟨-, -, rfl⟩⟩ <;>
    exact ⟨rfl, rfl, rfl⟩

/-- Every step keeps the platform; a step that changes a descriptor register or CTRL is a register write or reset. -/
theorem step_settings {s t : State} (h : step s = .next t) :
    SettingsKept s t ∨ (t.plat = s.plat ∧
      ((∃ addr width v, s.events.head? = some (.regWrite addr width v)) ∨ s.events.head? = some .reset)) := by
  rcases step_next h with ⟨-, he⟩ | ⟨_, _, w, -, he⟩ | ⟨addr, width, r, v, hev, -, rfl⟩ | ⟨_, _, r, -, rfl | rfl⟩ |
    ⟨who, a, bytes, -, -, u, rfl, ⟨-, rfl⟩ | ⟨-, rfl⟩⟩ | ⟨who, a, n, -, -, bytes, f, u, rfl, ⟨-, rfl⟩ | ⟨-, rfl⟩⟩ |
    ⟨a, n, -, rfl⟩ | ⟨id, reads, writes, -, rfl⟩ | ⟨id, -, rfl⟩ | ⟨hev, rfl⟩
  · exact .inl (engineStep_settingsKept he).of_afterTaking
  · exact .inl (exec_settingsKept he).of_afterTaking
  · exact .inr ⟨writeReg_plat _ _ _, .inl ⟨addr, width, v, hev⟩⟩
  · exact .inl ⟨rfl, rfl, rfl⟩
  · exact .inl ⟨observeStatus_plat _, observeStatus_desc _, observeStatus_ie _⟩
  · exact .inl ⟨rfl, rfl, rfl⟩
  · exact .inl ⟨corrupt_plat _, corrupt_desc _, corrupt_ie _⟩
  · exact .inl ⟨rfl, rfl, rfl⟩
  · exact .inl ⟨corrupt_plat _, corrupt_desc _, corrupt_ie _⟩
  · exact .inl ⟨rfl, rfl, rfl⟩
  · exact .inl ⟨beginOther_plat _ _ _ _, beginOther_desc _ _ _ _, beginOther_ie _ _ _ _⟩
  · exact .inl ⟨endOther_plat _ _, endOther_desc _ _, endOther_ie _ _⟩
  · exact .inr ⟨rfl, .inr hev⟩

/-- Settles O51, by the agent that moves. -/
theorem onlyTheHostChangesDescriptors : Obligations.OnlyTheHostChangesDescriptors := by
  intro s t h
  rcases step_settings h with ⟨hplat, hdesc, hie⟩ | ⟨hplat, ⟨addr, width, v, hev⟩ | hev⟩
  · exact ⟨hplat, fun _ _ => ⟨hdesc, hie⟩⟩
  · exact ⟨hplat, fun hw _ => absurd hev (hw addr width v)⟩
  · exact ⟨hplat, fun _ hr => absurd hev hr⟩

/-! ### The host's own accesses beside an idle engine -/

theorem racesWrite_of_idle {s : State} (h : s.cmd.opk = .idle) (a n : Nat) : racesWrite s a n = false := by
  rw [racesWrite, h]

theorem racesRead_of_idle {s : State} (h : s.cmd.opk = .idle) (a n : Nat) : racesRead s a n = false := by
  rw [racesRead, h]

/-- A host write inside memory beside an idle engine stores its bytes (R14, R63). -/
theorem step_hostWrite_of_idle {s : State} {a : Nat} {bytes : List Byte} {rest : List Event}
    (hidle : s.cmd.opk = .idle) (hev : s.events = .memWrite .host a bytes :: rest)
    (ha : a + bytes.length ≤ memSize s.plat) :
    step s = .next (raceOthers .host (metByWrite a bytes.length) false { s with
      events := rest, mem := writeBytes s.mem a bytes, vis := visAfterWrite .host a bytes.length s }) := by
  have hr : racesWrite { s with events := rest } a bytes.length = false := racesWrite_of_idle hidle _ _
  rw [step, hev]
  simp only [deliver, busMemWrite, Nat.not_lt.mpr ha, if_false, hr]
  rfl

/-- A host read inside memory beside an idle engine gives the host what `hostReadBytes` says (R14, R78). -/
theorem step_hostRead_of_idle {s : State} {a n : Nat} {rest : List Event} (hidle : s.cmd.opk = .idle)
    (hev : s.events = .memRead .host a n :: rest) (ha : a + n ≤ memSize s.plat) :
    step s = .next (raceOthers .host (metByRead a n) false { s with
      events := rest, busBytes := hostReadBytes a n s, fresh := s.fresh + n }) := by
  have hr : racesRead { s with events := rest } a n = false := racesRead_of_idle hidle _ _
  rw [step, hev]
  simp only [deliver, busMemRead, Nat.not_lt.mpr ha, if_false, hr]
  rfl

/-- Where nothing is hidden and nothing races, the host reads memory (R78). -/
theorem hostReadBytes_of_plain {s : State} {a n : Nat} (hr : racesRead s a n = false)
    (ho : ∀ o ∈ s.others, metByRead a n o = false)
    (hv : ∀ b, inRange a n b = true → b ∉ s.vis.unseen ∧ b ∉ s.vis.stale) :
    hostReadBytes a n s = readBytes s.mem a n := by
  refine List.map_congr_left fun i hi => ?_
  have hi : i < n := List.mem_range.mp hi
  obtain ⟨hu, hs⟩ := hv (a + i) (by simp [inRange, hi])
  have ho : s.others.any (metByRead a n) = false := by simpa using ho
  simp [hr, ho, hiddenFromHost, hu, hs]

/-- A range reads back as the bytes just stored in it (R63). -/
theorem readBytes_writeBytes {m : Memory} (h : Memory.wf m = true) (a : Nat) (bytes : List Byte) :
    readBytes (writeBytes m a bytes) a bytes.length = bytes := by
  refine List.ext_getElem (by simp) fun i h1 h2 => ?_
  simp [readBytes, readByte_writeBytes bytes m h, h2]

/-- Settles O56: the write step, then the read step, and memory's read after a write. -/
theorem hostReadsBackWhatItWrote : Obligations.HostReadsBackWhatItWrote := by
  intro s a bytes rest hwf hidle hev ha hvis ho
  have hwrite := step_hostWrite_of_idle hidle hev ha
  set u := raceOthers .host (metByWrite a bytes.length) false { s with
    events := .memRead .host a bytes.length :: rest, mem := writeBytes s.mem a bytes
    vis := visAfterWrite .host a bytes.length s } with hu
  have hmet : ∀ o ∈ u.others, metByRead a bytes.length o = false := by
    intro o hmem
    obtain ⟨p, hp, hw⟩ := raceOthers_writes hmem
    rw [metByRead, hw]
    exact ho p hp
  have hplain : ∀ b, inRange a bytes.length b = true → b ∉ u.vis.unseen ∧ b ∉ u.vis.stale := by
    intro b hb
    simpa [hu, visAfterWrite, apply_ite] using hvis b hb
  have hread := step_hostRead_of_idle (s := u) hidle rfl ha
  refine ⟨_, (run_succ_of_next 1 hwrite).trans (run_succ_of_next 0 hread), ?_, fun b hb => ?_⟩
  · exact (hostReadBytes_of_plain (s := u) (racesRead_of_idle hidle _ _) hmet hplain).trans (readBytes_writeBytes hwf a bytes)
  · exact readByte_writeBytes_outside bytes s.mem hwf a b hb

end Sys2Proof.Machine

namespace Sys2Proof.Machine

/-! ### The engine beside other instances' commands on other bytes -/

/-- A request inside a range that meets nothing meets nothing. -/
theorem meetsAny_of_within {ranges : List Span} {a n b m : Nat} (h : meetsAny ranges a n = false) (hb : a ≤ b)
    (hm : b + m ≤ a + n) : meetsAny ranges b m = false := by
  simp only [meetsAny, List.any_eq_false, overlaps, Bool.and_eq_true, decide_eq_true_eq] at h ⊢
  intro d hd
  have := h d hd
  omega

theorem metByRead_of_within {o : OtherCommand} {a n b m : Nat} (h : metByRead a n o = false) (hb : a ≤ b)
    (hm : b + m ≤ a + n) : metByRead b m o = false :=
  meetsAny_of_within h hb hm

theorem metByWrite_of_within {o : OtherCommand} {a n b m : Nat} (h : metByWrite a n o = false) (hb : a ≤ b)
    (hm : b + m ≤ a + n) : metByWrite b m o = false := by
  obtain ⟨hr, hw⟩ := Bool.or_eq_false_iff.mp h
  exact Bool.or_eq_false_iff.mpr ⟨meetsAny_of_within hr hb hm, meetsAny_of_within hw hb hm⟩

/-- The machine beside these running commands of other instances. -/
def beside (l : List OtherCommand) (s : State) : State := { s with others := l }

/-- No mark is set where nothing is met. -/
theorem markOthers_of_apart {met : OtherCommand → Bool} {s : State} (h : ∀ o ∈ s.others, met o = false) :
    markOthers met s = s := by
  have : (s.others.map fun o => { o with raced := o.raced || met o }) = s.others :=
    (List.map_congr_left fun o ho => by rw [h o ho, Bool.or_false]; rfl).trans (List.map_id s.others)
  rw [markOthers, this]

/-- A request that meets no other command is a race only where it misses a host write (R77). -/
theorem meetOthers_eq_of_apart (missed : Bool) {met : OtherCommand → Bool} {s : State}
    (h : ∀ o ∈ s.others, met o = false) : meetOthers missed met s = if missed then corrupt s else s := by
  have hany : s.others.any met = false := by simpa using h
  rw [meetOthers, hany, Bool.or_false, markOthers_of_apart h]

theorem corrupt_beside (l : List OtherCommand) (s : State) : corrupt (beside l s) = beside l (corrupt s) := by
  unfold corrupt beside
  cases s.cmd.opk <;> rfl

section Alone

variable {l : List OtherCommand} {s : State}

theorem meetOthers_beside (hs : s.others = []) (missed : Bool) {met : OtherCommand → Bool}
    (h : ∀ o ∈ l, met o = false) : meetOthers missed met (beside l s) = beside l (meetOthers missed met s) := by
  rw [meetOthers_eq_of_apart missed (s := beside l s) h, meetOthers_eq_of_apart missed (by simp [hs]), corrupt_beside]
  split <;> rfl

theorem dmaAsk_beside (l : List OtherCommand) (s : State) (a n : Nat) :
    dmaAsk (beside l s) a n = andThen (dmaAsk s a n) fun r => .next (r.1, beside l r.2) := by
  unfold dmaAsk dmaAdmits beside
  split_ifs <;> rfl

/-- A DMA read that no other command writes answers as it does alone (R81). -/
theorem dmaRead_beside (hs : s.others = []) {a n : Nat} (h : ∀ o ∈ l, metByRead a n o = false) :
    dmaRead (beside l s) a n = andThen (dmaRead s a n) fun r => .next (r.1, beside l r.2) := by
  unfold dmaRead
  rw [dmaAsk_beside]
  rcases dmaAsk_cases s a n with ⟨-, e⟩ | ⟨-, -, e⟩ | ⟨-, -, -, e⟩ | ⟨-, -, -, e⟩ <;> rw [e]
  · rfl
  · rfl
  · rfl
  · exact congrArg (fun u => Host.Outcome.next (some (readBytes s.mem a n), u))
      (meetOthers_beside (s := tookAnswer s) hs _ h)

/-- A DMA write that no other command reads or writes answers as it does alone (R81). -/
theorem dmaWrite_beside (hs : s.others = []) {a : Nat} {bytes : List Byte}
    (h : ∀ o ∈ l, metByWrite a bytes.length o = false) :
    dmaWrite (beside l s) a bytes = andThen (dmaWrite s a bytes) fun r => .next (r.1, beside l r.2) := by
  unfold dmaWrite
  rw [dmaAsk_beside]
  rcases dmaAsk_cases s a bytes.length with ⟨-, e⟩ | ⟨-, -, e⟩ | ⟨-, -, -, e⟩ | ⟨-, -, -, e⟩ <;> rw [e]
  · rfl
  · rfl
  · rfl
  · exact congrArg (fun u => Host.Outcome.next (true, u))
      (meetOthers_beside (s := dmaStore (tookAnswer s) a bytes) hs _ h)

theorem finishLoad_beside (l : List OtherCommand) (s : State) (key ctr : List Byte) :
    finishLoad key ctr (beside l s) = beside l (finishLoad key ctr s) := by
  unfold finishLoad beside
  split <;> rfl

/-- The load step beside commands that write neither of its ranges is the load step alone (R81, R121). -/
theorem constructLoad_beside (hs : s.others = []) (hkey : ∀ o ∈ l, metByRead s.cmd.lka.toNat s.cmd.lkl o = false)
    (hctr : ∀ o ∈ l, metByRead s.cmd.lca.toNat 16 o = false) :
    constructLoad (beside l s) = andThen (constructLoad s) fun u => .next (beside l u) := by
  have hread := dmaRead_beside hs hkey
  unfold constructLoad
  rw [show (beside l s).cmd = s.cmd from rfl, hread]
  rcases dmaRead_cases s s.cmd.lka.toNat s.cmd.lkl with ⟨-, e⟩ | ⟨-, -, e⟩ | ⟨-, -, -, e⟩ | ⟨-, -, -, e⟩ <;> rw [e]
  · rfl
  · rfl
  · rfl
  · have hs' : (afterRead s s.cmd.lka.toNat s.cmd.lkl).others = [] := by simp [hs]
    have hread' := dmaRead_beside hs' (a := s.cmd.lca.toNat) hctr
    simp only [andThen_of_next]
    rw [show (beside l (afterRead s s.cmd.lka.toNat s.cmd.lkl)).cmd = s.cmd from afterRead_cmd _ _ _,
      afterRead_cmd, hread']
    rcases dmaRead_cases (afterRead s s.cmd.lka.toNat s.cmd.lkl) s.cmd.lca.toNat 16 with
      ⟨-, e⟩ | ⟨-, -, e⟩ | ⟨-, -, -, e⟩ | ⟨-, -, -, e⟩ <;> rw [e]
    · rfl
    · rfl
    · rfl
    · exact congrArg Host.Outcome.next (finishLoad_beside _ _ _ _)

theorem finishBlock_beside (l : List OtherCommand) (s : State) (ctr : Block) (m : Nat) :
    finishBlock ctr m (beside l s) = beside l (finishBlock ctr m s) := by
  unfold finishBlock beside
  split <;> rfl

theorem blockOutput_beside (l : List OtherCommand) (s : State) (inp : List Byte) (ks : Block) :
    blockOutput inp ks (beside l s) = ((blockOutput inp ks s).1, beside l (blockOutput inp ks s).2) := by
  unfold blockOutput beside
  split <;> rfl

/-- The write half of a block step beside commands that do not touch its output is the one alone (R81, R181). -/
theorem blockWrite_beside (hs : s.others = []) {inp : List Byte} (hinp : inp.length ≤ 16)
    (h : ∀ o ∈ l, metByWrite (s.cmd.ldst.toNat + s.cmd.off) inp.length o = false) :
    blockWrite inp (beside l s) = andThen (blockWrite inp s) fun u => .next (beside l u) := by
  unfold blockWrite
  dsimp only
  rw [show (beside l s).ctx = s.ctx from rfl, blockOutput_beside]
  have hlen := blockOutput_length inp (nextBlock s.ctx).1 s hinp
  have hst := blockOutput_state inp (nextBlock s.ctx).1 s
  generalize blockOutput inp (nextBlock s.ctx).1 s = out at hlen hst ⊢
  have hcmd : out.2.cmd = s.cmd := by rw [hst]
  have hothers : out.2.others = [] := by rw [hst]; exact hs
  have hwrite := dmaWrite_beside (l := l) (s := out.2) hothers (a := s.cmd.ldst.toNat + s.cmd.off) (bytes := out.1)
    (by rw [hlen]; exact h)
  simp only [show (beside l out.2).cmd = s.cmd from hcmd, hcmd, hwrite]
  rcases dmaWrite_cases out.2 (s.cmd.ldst.toNat + s.cmd.off) out.1 with
    ⟨-, e⟩ | ⟨-, -, e⟩ | ⟨-, -, -, e⟩ | ⟨-, -, -, e⟩ <;> rw [e]
  · rfl
  · rfl
  · rfl
  · exact congrArg Host.Outcome.next (finishBlock_beside _ _ _ _)

/-- The block step beside commands that touch neither its input, but to read it, nor its output is the block step
alone (R81, R181). -/
theorem transformBlock_beside (hs : s.others = []) (hoff : s.cmd.off < s.cmd.ln)
    (hsrc : ∀ o ∈ l, metByRead s.cmd.lsrc.toNat s.cmd.ln o = false)
    (hdst : ∀ o ∈ l, metByWrite s.cmd.ldst.toNat s.cmd.ln o = false) :
    transformBlock (beside l s) = andThen (transformBlock s) fun u => .next (beside l u) := by
  have hsize : s.cmd.off + blockSize s.cmd ≤ s.cmd.ln := by
    rw [blockSize]
    omega
  have hread := dmaRead_beside hs (a := s.cmd.lsrc.toNat + s.cmd.off) (n := blockSize s.cmd)
    fun o ho => metByRead_of_within (hsrc o ho) (by omega) (by omega)
  unfold transformBlock
  rw [show (beside l s).ctx = s.ctx from rfl, show (beside l s).cmd = s.cmd from rfl, hread]
  split
  · rfl
  · rw [if_neg (by omega), if_neg (by omega)]
    rcases dmaRead_cases s (s.cmd.lsrc.toNat + s.cmd.off) (blockSize s.cmd) with
      ⟨-, e⟩ | ⟨-, -, e⟩ | ⟨-, -, -, e⟩ | ⟨-, -, -, e⟩ <;> rw [e]
    · rfl
    · rfl
    · rfl
    · refine blockWrite_beside (by simp [hs]) (by simp [blockSize_le]) fun o ho => ?_
      rw [afterRead_cmd, readBytes_length]
      exact metByWrite_of_within (hdst o ho) (by omega) (by omega)

/-- The engine's turn beside commands on other bytes is its turn alone (R81). -/
theorem engineStep_beside (hs : s.others = []) (hapart : OthersApart (beside l s))
    (hoff : s.cmd.opk = .transformPending → s.cmd.off < s.cmd.ln) :
    engineStep (beside l s) = andThen (engineStep s) fun u => .next (beside l u) := by
  unfold engineStep
  rw [show (beside l s).cmd = s.cmd from rfl]
  cases hk : s.cmd.opk with
  | idle => rfl
  | constructPending =>
    exact constructLoad_beside hs (fun o ho => ((hapart o ho).1 hk).1) fun o ho => ((hapart o ho).1 hk).2
  | transformPending =>
    exact transformBlock_beside hs (hoff hk) (fun o ho => ((hapart o ho).2 hk).1) fun o ho => ((hapart o ho).2 hk).2

end Alone

/-! ### The acceptance and the completion of another engine's command -/

/-- Free bytes change no byte outside their ranges (R79). -/
theorem readByte_freeRanges (l : List Span) {s : State} (hw : Memory.wf s.mem = true) {b : Nat}
    (hb : ∀ d ∈ l, inRange d.base d.len b = false) : readByte (freeRanges l s).mem b = readByte s.mem b := by
  induction l generalizing s with
  | nil => rfl
  | cons d rest ih =>
    obtain ⟨hd, hrest⟩ := List.forall_mem_cons.mp hb
    rw [freeRanges, ih (writeBytes_wf _ _ _ hw) hrest]
    exact readByte_writeBytes_outside _ _ hw _ _ (by rwa [freeBytes_length])

/-- A byte that a read does not share with a command's output lies outside that output. -/
theorem inRange_of_not_metByRead {o : OtherCommand} {b : Nat} (h : metByRead b 1 o = false) {d : Span}
    (hd : d ∈ o.writes) : inRange d.base d.len b = false := by
  have := List.any_eq_false.mp h d hd
  simp only [overlaps, Bool.and_eq_true, decide_eq_true_eq] at this
  simp only [inRange, Bool.and_eq_false_iff, decide_eq_false_iff_not]
  omega

/-- Where another engine's command completes, memory changes at most in what it writes, if it has met a race
(R79, R81). -/
theorem readByte_endOther {id : Nat} {s : State} (hw : Memory.wf s.mem = true) {b : Nat}
    (hb : ∀ o ∈ s.others, o.id = id → o.raced = true → metByRead b 1 o = false) :
    readByte (endOther id s).mem b = readByte s.mem b := by
  refine readByte_freeRanges (s := { s with others := s.others.filter fun o => o.id != id }) _ hw fun d hd => ?_
  obtain ⟨o, ho, hd⟩ := List.mem_flatMap.mp hd
  simp only [List.mem_filter, Bool.and_eq_true, beq_iff_eq] at ho
  obtain ⟨hmem, hid, hraced⟩ := ho
  exact inRange_of_not_metByRead (hb o hmem hid hraced) hd

/-- Exactly which command another engine begins to run (R9, R104, R120, R180). -/
theorem beginOther_eq (id : Nat) (reads writes : List Span) (s : State) :
    beginOther id reads writes s = { s with
      others :=
        if id + 1 < s.plat.nEngines ∧ (∀ o ∈ s.others, o.id ≠ id) ∧
            (∀ d ∈ reads ++ writes, d.base + d.len ≤ memSize s.plat) then
          { id := id, reads := reads, writes := writes, raced := false } :: s.others
        else s.others } := by
  unfold beginOther
  by_cases habsent : s.plat.nEngines ≤ id + 1
  · rw [if_pos habsent, if_neg fun h => absurd h.1 (by omega)]
  · by_cases hrange : (reads ++ writes).any (fun d => decide (memSize s.plat < d.base + d.len)) = true
    · rw [if_neg habsent, if_pos hrange, if_neg fun h => ?_]
      obtain ⟨d, hd, hout⟩ := List.any_eq_true.mp hrange
      exact absurd (h.2.2 d hd) (by simpa using hout)
    · by_cases hbusy : s.others.any (fun o => o.id == id) = true
      · rw [if_neg habsent, if_neg hrange, if_pos hbusy, if_neg fun h => ?_]
        obtain ⟨o, ho, hid⟩ := List.any_eq_true.mp hbusy
        exact h.2.1 o ho (by simpa using hid)
      · rw [if_neg habsent, if_neg hrange, if_neg hbusy, if_pos]
        exact ⟨by omega, by simpa using hbusy, by simpa [or_imp, forall_and] using hrange⟩

/-- Fewer than `N_ENGINES` other instances run a command: their numbers are distinct and below `N_ENGINES - 1`
(R9, R282). -/
theorem OthersOk.length_lt {p : Platform} {l : List OtherCommand} (h : OthersOk p l) (hp : 1 ≤ p.nEngines) :
    l.length < p.nEngines := by
  have hsub : l.map OtherCommand.id ⊆ List.range (p.nEngines - 1) := fun id hid => by
    have := h.present id hid
    rw [List.mem_range]
    omega
  have := (h.nodup.subperm hsub).length_le
  simp only [List.length_map, List.length_range] at this
  omega

/-- Settles O21: the engine's turn is that of the engine alone, and another engine's acceptance and completion
have frames of their own. -/
theorem instancesOnDisjointRangesDoNotInteract : Obligations.InstancesOnDisjointRangesDoNotInteract := by
  refine ⟨fun s hapart hoff => ?_, fun s e id rest he hev => ?_,
    fun s h => h.othersOk.length_lt h.platform.2.2, fun s id reads writes rest hev => ?_⟩
  · have hturn : engineStep s = andThen (engineStep { s with others := [] }) fun u => .next (beside s.others u) :=
      engineStep_beside (l := s.others) (s := { s with others := [] }) rfl hapart hoff
    rw [hturn]
    cases engineStep { s with others := [] } <;> rfl
  · rcases he with rfl | ⟨reads, writes, rfl⟩
    · refine ⟨endOther id { s with events := rest }, by rw [step, hev]; rfl, ?_, fun hw b hb => ?_⟩
      · rw [endOther_frame]
      · exact readByte_endOther (s := { s with events := rest }) hw hb
    · refine ⟨beginOther id reads writes { s with events := rest }, by rw [step, hev]; rfl, ?_, fun _ b _ => ?_⟩
      · rw [beginOther_eq]
      · rw [beginOther_mem]
  · rw [step, hev]
    exact congrArg Host.Outcome.next (beginOther_eq id reads writes { s with events := rest })

end Sys2Proof.Machine

namespace Sys2Proof.Machine

/-! ### The counter's number -/

theorem ctrInt_lt (v : Block) (le : Bool) : ctrInt v le < 2 ^ 128 := by
  rw [ctrInt_eq_digitsValue, show (2 : Nat) ^ 128 = 256 ^ 16 by norm_num, ← significance_length le]
  exact digitsValue_lt _ v

/-- Counters with the same number are the same (R140). -/
theorem ctrInt_inj {v w : Block} {le : Bool} (h : ctrInt v le = ctrInt w le) : v = w := by
  rw [ctrInt_eq_digitsValue, ctrInt_eq_digitsValue] at h
  exact Vector.ext fun i hi => digitsValue_inj _ v w h ⟨i, hi⟩ (mem_significance le ⟨i, hi⟩)

theorem ctrInt_ctrBytes (n : Nat) (le : Bool) : ctrInt (ctrBytes n le) le = n % 2 ^ 128 := by
  rw [ctrInt_eq_digitsValue, digitsValue_of_digits _ n _ fun j hj => by simp [ctrBytes, byteWeight_significance],
    significance_length]
  norm_num

/-- Equal numbers modulo `2^128` have the same counter. -/
theorem eq_ctrBytes_of_ctrInt {v : Block} {le : Bool} {n : Nat} (h : ctrInt v le = n % 2 ^ 128) :
    v = ctrBytes (n % 2 ^ 128) le :=
  ctrInt_inj (le := le) (by rw [ctrInt_ctrBytes, h, Nat.mod_mod])

theorem ctrInt_advance (v : Block) (le : Bool) : ctrInt (advance v le) le = (ctrInt v le + 1) % 2 ^ 128 := by
  have := (advanceAlong_value (significance le) v (significance_nodup le)).1
  rw [significance_length] at this
  rw [ctrInt_eq_digitsValue, ctrInt_eq_digitsValue, advance_eq_along, this]
  norm_num

/-- The context after `k` committed blocks: its counter moved on by `k` (R161). -/
def Context.after (c : Context) (k : Nat) : Context :=
  { c with ctr := ctrBytes ((ctrInt c.ctr c.le + k) % 2 ^ 128) c.le }

@[simp] theorem Context.after_ctr (c : Context) (k : Nat) :
    (c.after k).ctr = ctrBytes ((ctrInt c.ctr c.le + k) % 2 ^ 128) c.le := by rw [Context.after]
@[simp] theorem Context.after_le (c : Context) (k : Nat) : (c.after k).le = c.le := by rw [Context.after]
@[simp] theorem keyBytes_after (c : Context) (k : Nat) : keyBytes (c.after k) = keyBytes c := by
  rw [Context.after, keyBytes, keyBytes]

theorem Context.after_zero (c : Context) : c.after 0 = c := by
  have := eq_ctrBytes_of_ctrInt (v := c.ctr) (le := c.le) (Nat.mod_eq_of_lt (ctrInt_lt _ _)).symm
  rw [Context.after, Nat.add_zero, ← this]

/-- After `k` blocks, NEXT_BLOCK gives keystream block `k` and the counter after `k + 1` blocks (R160, R161). -/
theorem nextBlock_after (c : Context) (k : Nat) :
    nextBlock (c.after k) = (keystreamBlock c k, (c.after (k + 1)).ctr) := by
  have hadv : advance (c.after k).ctr c.le = (c.after (k + 1)).ctr := by
    rw [Context.after_ctr c (k + 1)]
    refine eq_ctrBytes_of_ctrInt ?_
    rw [ctrInt_advance, Context.after_ctr, ctrInt_ctrBytes, Nat.mod_mod, Nat.mod_add_mod, Nat.add_assoc]
  rw [nextBlock, keyBytes_after, Context.after_le, hadv, Context.after_ctr c k, keystreamBlock]

/-! ### Memory after the blocks of a TRANSFORM -/

/-- What one block leaves: its part of the output is the input XOR the keystream, every other byte stays (R189). -/
theorem readByte_after_block (ctx : Context) (src dst n j : Nat) {m : Memory} (hw : Memory.wf m = true) (b : Nat) :
    readByte (writeBytes m (dst + 16 * j)
        (List.zipWith (· ^^^ ·) (readBytes m (src + 16 * j) (min 16 (n - 16 * j))) (keystreamBlock ctx j).toList)) b =
      if dst + 16 * j ≤ b ∧ b < dst + min n (16 * (j + 1)) then
        readByte m (src + (b - dst)) ^^^ keystreamByte ctx (b - dst)
      else readByte m b := by
  rw [readByte_writeBytes _ m hw]
  simp only [List.length_zipWith, readBytes_length, Vector.length_toList]
  by_cases hb : dst + 16 * j ≤ b ∧ b < dst + min n (16 * (j + 1))
  · rw [if_pos hb, if_pos (by omega)]
    obtain ⟨i, rfl⟩ : ∃ i, b = dst + 16 * j + i := ⟨b - (dst + 16 * j), by omega⟩
    have hi : i < min 16 (n - 16 * j) := by omega
    have hi16 : i < 16 := by omega
    have hdiv : (16 * j + i) / 16 = j := by omega
    have hmod : (16 * j + i) % 16 = i := by omega
    rw [show dst + 16 * j + i - (dst + 16 * j) = i by omega, show dst + 16 * j + i - dst = 16 * j + i by omega,
      keystreamByte, hdiv, hmod]
    simp [List.getD_eq_getElem?_getD, readBytes, hi, hi16, Nat.add_assoc]
  · rw [if_neg hb, if_neg (by omega)]

/-- Over identical or disjoint ranges, the blocks from number `j` on leave the input XOR the keystream in their part
of the output, and every other byte as it was (R188, R189). -/
theorem readByte_memAfterBlocks (ctx : Context) {src dst n : Nat}
    (hr : src = dst ∨ src + n ≤ dst ∨ dst + n ≤ src) (k j : Nat) {m : Memory} (hw : Memory.wf m = true) (b : Nat) :
    readByte (memAfterBlocks ctx src dst n k j m) b =
      if dst + 16 * j ≤ b ∧ b < dst + min n (16 * (j + k)) then
        readByte m (src + (b - dst)) ^^^ keystreamByte ctx (b - dst)
      else readByte m b := by
  induction k generalizing j m with
  | zero =>
    rw [if_neg (by omega)]
    rfl
  | succ k ih =>
    rw [memAfterBlocks, ih _ (writeBytes_wf _ _ _ hw)]
    by_cases hlater : dst + 16 * (j + 1) ≤ b ∧ b < dst + min n (16 * (j + 1 + k))
    · rw [if_pos hlater, if_pos (by omega), readByte_after_block _ _ _ _ _ hw, if_neg (by omega)]
    · rw [if_neg hlater, readByte_after_block _ _ _ _ _ hw]
      by_cases hthis : dst + 16 * j ≤ b ∧ b < dst + min n (16 * (j + 1))
      · rw [if_pos hthis, if_pos (by omega)]
      · rw [if_neg hthis, if_neg (by omega)]

/-! ### Undisturbed requests and blocks -/

theorem Undisturbed.tookAnswer {s : State} (h : Undisturbed s) : Undisturbed (tookAnswer s) :=
  ⟨h.noEvents, fun b hb => h.admitted b (List.mem_of_mem_tail hb), h.noDevices, h.notRaced, h.seen, h.alone⟩

theorem Undisturbed.dmaStore {s : State} (h : Undisturbed s) (a : Nat) (bytes : List Byte) :
    Undisturbed (dmaStore s a bytes) :=
  ⟨h.noEvents, h.admitted, h.noDevices, h.notRaced, h.seen.imp id fun e => by simp [e, withoutRange], h.alone⟩

theorem Undisturbed.commitBlock {s : State} (h : Undisturbed s) (ctr : Block) (m : Nat) :
    Undisturbed (commitBlock ctr m s) :=
  ⟨h.noEvents, h.admitted, h.noDevices, h.notRaced, h.seen, h.alone⟩

theorem Undisturbed.complete {s : State} (h : Undisturbed s) (c : Completion) : Undisturbed (complete c s) :=
  ⟨h.noEvents, h.admitted, h.noDevices, rfl, h.seen, h.alone⟩

theorem Undisturbed.dmaAdmits {s : State} (h : Undisturbed s) : dmaAdmits s = true := by
  have := h.admitted
  unfold Machine.dmaAdmits
  cases hl : s.dmaAnswers with
  | nil => rfl
  | cons b rest => exact this b (by simp [hl])

/-- An undisturbed DMA read inside memory gives memory's bytes and takes its answer (R60). -/
theorem Undisturbed.dmaRead {s : State} (h : Undisturbed s) {a n : Nat} (ha : a + n ≤ memSize s.plat) :
    dmaRead s a n = .next (some (readBytes s.mem a n), Machine.tookAnswer s) := by
  have hpost : afterRead s a n = Machine.tookAnswer s :=
    afterRead_of_seen s a n (dmaMisses_of_seen s a n h.seen) (by simp [h.alone])
  rcases dmaRead_cases s a n with ⟨hm, -⟩ | ⟨-, hno, -⟩ | ⟨-, -, hd, -⟩ | ⟨-, -, -, e⟩
  · omega
  · simp [h.dmaAdmits] at hno
  · simp [touchesDevice_of_none h.noDevices] at hd
  · rw [e, hpost]

/-- An undisturbed DMA write inside memory stores its bytes and takes its answer (R63). -/
theorem Undisturbed.dmaWrite {s : State} (h : Undisturbed s) {a : Nat} {bytes : List Byte}
    (ha : a + bytes.length ≤ memSize s.plat) :
    dmaWrite s a bytes = .next (true, Machine.dmaStore (Machine.tookAnswer s) a bytes) := by
  have hpost := afterWrite_of_apart s a bytes (by simp [h.alone])
  rcases dmaWrite_cases s a bytes with ⟨hm, -⟩ | ⟨-, hno, -⟩ | ⟨-, -, hd, -⟩ | ⟨-, -, -, e⟩
  · omega
  · simp [h.dmaAdmits] at hno
  · simp [touchesDevice_of_none h.noDevices] at hd
  · rw [e, hpost]

/-- The output bytes of an undisturbed block (R182). -/
def blockCombined (s : State) : List Byte :=
  xorCombine (readBytes s.mem (s.cmd.lsrc.toNat + s.cmd.off) (blockSize s.cmd)) (nextBlock s.ctx).1

theorem blockCombined_length (s : State) : (blockCombined s).length = blockSize s.cmd := by
  simp [blockCombined, xorCombine, blockSize_le]

/-- The state after an undisturbed block: its output stored, its counter, BLKCNT and progress committed (R181). -/
def blockDone (s : State) : State :=
  commitBlock (nextBlock s.ctx).2 (blockSize s.cmd)
    (dmaStore (tookAnswer (tookAnswer s)) (s.cmd.ldst.toNat + s.cmd.off) (blockCombined s))

/-- An undisturbed block step commits its block, and the last one completes the command (R181). -/
theorem Undisturbed.engineStep {s : State} (h : Undisturbed s) (hinv : MachineInv s)
    (hk : s.cmd.opk = .transformPending) :
    engineStep s = .next (
      if s.cmd.off + blockSize s.cmd = s.cmd.ln then Machine.complete .ok (blockDone s) else blockDone s) := by
  obtain ⟨life, left, -, -, srcRange, dstRange, -⟩ := hinv.transform hk
  have hsize : s.cmd.off + blockSize s.cmd ≤ s.cmd.ln := by
    rw [blockSize]
    omega
  have hread := h.dmaRead (a := s.cmd.lsrc.toNat + s.cmd.off) (n := blockSize s.cmd) (by omega)
  have hout : blockOutput (readBytes s.mem (s.cmd.lsrc.toNat + s.cmd.off) (blockSize s.cmd)) (nextBlock s.ctx).1
      (Machine.tookAnswer s) = (blockCombined s, Machine.tookAnswer s) := by
    simp [blockOutput, h.notRaced, blockCombined]
  have hwrite := h.tookAnswer.dmaWrite (a := s.cmd.ldst.toNat + s.cmd.off) (bytes := blockCombined s)
    (by rw [blockCombined_length, tookAnswer_plat]; omega)
  simp only [Machine.engineStep, hk, transformBlock, life, ne_eq, not_true_eq_false, if_false, Nat.not_le.mpr left,
    hread, andThen_of_next, blockWrite, tookAnswer_ctx, hout, tookAnswer_cmd, hwrite, readBytes_length]
  rfl

theorem Undisturbed.blockDone {s : State} (h : Undisturbed s) : Undisturbed (blockDone s) :=
  (h.tookAnswer.tookAnswer.dmaStore _ _).commitBlock _ _

/-- The counter after block number `j` is the one of block number `j + 1`. -/
theorem blockDone_ctx {ctx : Context} {s : State} {j : Nat} (hctx : s.ctx = ctx.after j) :
    (blockDone s).ctx = ctx.after (j + 1) := by
  have hstored (a : Nat) (out : List Byte) : (dmaStore (tookAnswer (tookAnswer s)) a out).ctx = ctx.after j := hctx
  rw [blockDone, commitBlock_ctx, hstored, hctx, nextBlock_after, Context.after_ctr ctx (j + 1), Context.after,
    Context.after]

/-- Block number BLKCNT stores what `memAfterBlocks` says of it. -/
theorem blockDone_mem {ctx : Context} {s : State} (hinv : MachineInv s) (hk : s.cmd.opk = .transformPending)
    (hctx : s.ctx = ctx.after s.blkcnt.toNat) :
    (blockDone s).mem =
      memAfterBlocks ctx s.cmd.lsrc.toNat s.cmd.ldst.toNat s.cmd.ln 1 s.blkcnt.toNat s.mem := by
  rw [blockDone, blockCombined, hctx, nextBlock_after, blockSize, (hinv.transform hk).blocks]
  rfl

/-- BLKCNT counts the block without wrapping (R38). -/
theorem blockDone_blkcnt {s : State} (hinv : MachineInv s) (hk : s.cmd.opk = .transformPending) :
    (blockDone s).blkcnt.toNat = s.blkcnt.toNat + 1 := by
  obtain ⟨-, left, bound, blocks, -, -, -⟩ := hinv.transform hk
  refine BitVec.toNat_add_of_lt ?_
  simp
  omega

/-! ### The run of an undisturbed TRANSFORM -/

/-- `u` is where an undisturbed TRANSFORM pending in `s`, with `k` blocks left, ends; `ctx` is the context its first
block started from. The blocks are in memory, the counter and BLKCNT have moved on by `k`, and the report is a
success (R183, R189). -/
structure TransformEnd (ctx : Context) (k : Nat) (s u : State) : Prop where
  mem : u.mem = memAfterBlocks ctx s.cmd.lsrc.toNat s.cmd.ldst.toNat s.cmd.ln k s.blkcnt.toNat s.mem
  ctx : u.ctx = ctx.after (s.blkcnt.toNat + k)
  blkcnt : u.blkcnt.toNat = s.blkcnt.toNat + k
  idle : u.cmd.opk = .idle
  status : u.status = { done := true, err := false, overrun := s.status.overrun }
  errInfo : u.errInfo = Completion.ok.code
  settings : SettingsKept s u
  undisturbed : Undisturbed u
  inv : MachineInv u

/-- The end of the blocks after the first one is the end of all. -/
theorem TransformEnd.of_blockDone {ctx : Context} {k : Nat} {s u : State} (hinv : MachineInv s)
    (hk : s.cmd.opk = .transformPending) (hctx : s.ctx = ctx.after s.blkcnt.toNat)
    (e : TransformEnd ctx k (blockDone s) u) : TransformEnd ctx (k + 1) s u where
  mem := by
    rw [e.mem, blockDone_mem hinv hk hctx, blockDone_blkcnt hinv hk]
    rfl
  ctx := by rw [e.ctx, blockDone_blkcnt hinv hk, Nat.add_assoc, Nat.add_comm 1]
  blkcnt := by rw [e.blkcnt, blockDone_blkcnt hinv hk, Nat.add_assoc, Nat.add_comm 1]
  idle := e.idle
  status := e.status
  errInfo := e.errInfo
  settings := ⟨e.settings.plat, e.settings.desc, e.settings.ie⟩
  undisturbed := e.undisturbed
  inv := e.inv

/-- The blocks that are left of an undisturbed TRANSFORM run to its end, one step each (R183, R312). -/
theorem run_blocks {ctx : Context} {k : Nat} {s : State} (hinv : MachineInv s) (h : Undisturbed s)
    (hk : s.cmd.opk = .transformPending) (hctx : s.ctx = ctx.after s.blkcnt.toNat)
    (hcount : blockCount (s.cmd.ln - s.cmd.off) = k) :
    ∃ u, Host.Core.run Sys2Proof.core k s = .next u ∧ TransformEnd ctx k s u := by
  simp only [blockCount] at hcount
  induction k generalizing s with
  | zero =>
    have hleft := (hinv.transform hk).left
    omega
  | succ k ih =>
    have hstep := (step_of_no_events h.noEvents).trans (h.engineStep hinv hk)
    have hinv' := hinv.step hstep
    rw [run_succ_of_next k hstep]
    by_cases hlast : s.cmd.off + blockSize s.cmd = s.cmd.ln
    · have hk0 : k = 0 := by
        simp only [blockSize, Config.blockBytes] at hlast
        omega
      subst hk0
      rw [if_pos hlast] at hinv' ⊢
      exact ⟨_, rfl, blockDone_mem hinv hk hctx, blockDone_ctx hctx, blockDone_blkcnt hinv hk, rfl, rfl, rfl,
        ⟨rfl, rfl, rfl⟩, h.blockDone.complete _, hinv'⟩
    · have hsize : blockSize s.cmd = 16 := by
        simp only [blockSize, Config.blockBytes] at hlast ⊢
        omega
      rw [if_neg hlast] at hinv' ⊢
      obtain ⟨u, hrun, e⟩ := ih hinv' h.blockDone hk (by rw [blockDone_blkcnt hinv hk]; exact blockDone_ctx hctx)
        (by simp only [blockDone, commitBlock_cmd, dmaStore_cmd, tookAnswer_cmd]; omega)
      exact ⟨u, hrun, e.of_blockDone hinv hk hctx⟩

/-! ### A TRANSFORM from its CMD write on -/

theorem sint32_eq_toInt (v : Word) : sint32 v = v.toInt := by
  rw [sint32, BitVec.toInt]
  split <;> split <;> omega

theorem byteCount_eq (np : Bool) (d : Descriptors) :
    byteCount np d = if np then d.nbytes.toInt else (d.srcLen.toNat : Int) := by
  rw [byteCount, sint32_eq_toInt]

/-- A TRANSFORM of `n` bytes can be submitted in `s`: it passes every check of R180, and nothing disturbs the
machine. -/
structure TransformReady (np : Bool) (s : State) (n : Nat) : Prop where
  inv : MachineInv s
  undisturbed : Undisturbed s
  idle : s.cmd.opk = .idle
  active : s.ctx.life = .active
  pos : 0 < n
  count : byteCount np s.desc = n
  srcLen : n ≤ s.desc.srcLen.toNat
  dstCap : n ≤ s.desc.dstCap.toNat
  srcRange : s.desc.srcAddr.toNat + s.desc.srcLen.toNat ≤ memSize s.plat
  dstRange : s.desc.dstAddr.toNat + s.desc.dstCap.toNat ≤ memSize s.plat

/-- The CMD write of a ready TRANSFORM leaves it pending (R180). -/
theorem TransformReady.exec {np : Bool} {s : State} {n : Nat} (h : TransformReady np s n) (vec : Bool) :
    exec (.transform true true np vec 0) s = .next (latchTransform vec n (beginCommand s)) := by
  have hpos := h.pos
  have hpass : transformError true true np (beginCommand s) = none := by
    refine transformError_none.mpr ⟨h.active, rfl, rfl, ?_, ?_, ?_, h.srcRange, h.dstRange⟩ <;>
      rw [beginCommand_desc, h.count]
    · omega
    · exact Int.ofNat_le.mpr h.srcLen
    · exact Int.ofNat_le.mpr h.dstCap
  have hne : ¬ byteCount np (beginCommand s).desc = 0 := by
    rw [beginCommand_desc, h.count]
    omega
  simp only [Machine.exec, execTransform, submit_idle h.idle, ne_eq, not_true_eq_false, if_false, transformAccept,
    hpass, hne]
  rw [beginCommand_desc, h.count, Int.toNat_natCast]

/-- A ready TRANSFORM of `n` bytes runs to its end in `ceil(n/16)` steps (R183, R189). -/
theorem TransformReady.runs {np : Bool} {s : State} {n : Nat} (h : TransformReady np s n) (vec : Bool) :
    ∃ u, Host.Core.run Sys2Proof.core (blockCount n) (latchTransform vec n (beginCommand s)) = .next u ∧
      TransformEnd s.ctx (blockCount n) (latchTransform vec n (beginCommand s)) u := by
  have hu := h.undisturbed
  exact run_blocks (h.inv.exec (h.exec vec)) ⟨hu.noEvents, hu.admitted, hu.noDevices, rfl, hu.seen, hu.alone⟩ rfl
    s.ctx.after_zero.symm rfl

/-- Between commands the context may be replaced by any consistent one. -/
theorem MachineInv.with_context {s : State} (h : MachineInv s) (hk : s.cmd.opk = .idle) {c : Context}
    (hc : ContextOk c) : MachineInv { s with ctx := c } where
  platform := h.platform
  memory := h.memory
  context := hc
  report := h.report
  errClass := h.errClass
  blocks := h.blocks
  idle := h.idle
  load := fun i => by simp [hk] at i
  transform := fun i => by simp [hk] at i
  others := h.others
  instances := h.instances

/-- After a TRANSFORM, with the context put back, the same TRANSFORM is ready again (R186). -/
theorem TransformReady.again {np vec : Bool} {s u : State} {n k : Nat} (h : TransformReady np s n)
    (e : TransformEnd s.ctx k (latchTransform vec n (beginCommand s)) u) :
    TransformReady np { u with ctx := s.ctx } n := by
  obtain ⟨inv, undisturbed, idle, active, pos, count, srcLen, dstCap, srcRange, dstRange⟩ := h
  have hu := e.undisturbed
  have hdesc : u.desc = s.desc := e.settings.desc
  have hplat : u.plat = s.plat := e.settings.plat
  exact ⟨e.inv.with_context e.idle inv.context,
    ⟨hu.noEvents, hu.admitted, hu.noDevices, hu.notRaced, hu.seen, hu.alone⟩, e.idle, active, pos, hdesc ▸ count,
    hdesc ▸ srcLen, hdesc ▸ dstCap, by rwa [hdesc, hplat], by rwa [hdesc, hplat]⟩

/-- Every byte of memory after an in-place TRANSFORM of `n` bytes: in the range the byte before XOR the keystream,
outside it the byte before (R189). -/
theorem readByte_inPlace (ctx : Context) (a n : Nat) {m : Memory} (hw : Memory.wf m = true) (b : Nat) :
    readByte (memAfterBlocks ctx a a n (blockCount n) 0 m) b =
      readByte m b ^^^ (if a ≤ b ∧ b < a + n then keystreamByte ctx (b - a) else 0) := by
  have hall : min n (16 * (0 + blockCount n)) = n := by
    rw [blockCount]
    omega
  rw [readByte_memAfterBlocks ctx (.inl rfl) _ _ hw, hall, Nat.mul_zero, Nat.add_zero]
  split
  · next hb => rw [show a + (b - a) = b by omega]
  · exact (BitVec.xor_zero).symm

/-- Settles O22: each run XORs the same keystream into the range. -/
theorem transformTwiceRestoresTheInput : Obligations.TransformTwiceRestoresTheInput := by
  intro np vec s n hinv hund hidle hactive hpos hcount hsrc hdst hsr hdr hplace
  have ready : TransformReady np s n :=
    ⟨hinv, hund, hidle, hactive, hpos, (byteCount_eq np s.desc).trans hcount, hsrc, hdst, hsr, hdr⟩
  obtain ⟨u, hrun, e⟩ := ready.runs vec
  have ready' := ready.again e
  obtain ⟨w, hrun', e'⟩ := ready'.runs vec
  have hdesc : u.desc = s.desc := e.settings.desc
  have hmem : u.mem = memAfterBlocks s.ctx s.desc.dstAddr.toNat s.desc.dstAddr.toNat n (blockCount n) 0 s.mem := by
    rw [e.mem, latchTransform_cmd, beginCommand_desc, hplace]
    rfl
  have hmem' : w.mem = memAfterBlocks s.ctx s.desc.dstAddr.toNat s.desc.dstAddr.toNat n (blockCount n) 0 u.mem := by
    rw [e'.mem, latchTransform_cmd, beginCommand_desc, hdesc, hplace]
    rfl
  refine ⟨_, u, _, w, ready.exec vec, hrun, ready'.exec vec, hrun', fun a => ?_, e'.ctx.trans e.ctx.symm⟩
  rw [hmem', readByte_inPlace _ _ _ e.inv.memory.1, hmem, readByte_inPlace _ _ _ hinv.memory.1, BitVec.xor_assoc,
    BitVec.xor_self, BitVec.xor_zero]

end Sys2Proof.Machine

namespace Sys2Proof.Machine

/-! ### What a command word leaves unchanged -/

/-- A command word stores nothing in memory and leaves the platform and the agents' side alone (R48, R103). -/
theorem exec_agentsKept {i : Instr} {s t : State} (h : exec i s = .next t) :
    t.mem = s.mem ∧ t.dmaAnswers = s.dmaAnswers ∧ t.events = s.events ∧ t.vis = s.vis ∧ t.others = s.others ∧
      t.busWord = s.busWord ∧ t.busBytes = s.busBytes ∧ t.fresh = s.fresh := by
  rcases exec_next h with ⟨-, rfl⟩ | ⟨-, ⟨_, rfl⟩ | ⟨_, _, _, -, -, rfl⟩ | ⟨_, _, _, _, -, -, -, rfl⟩ | ⟨-, -, rfl⟩⟩ <;>
    exact ⟨rfl, rfl, rfl, rfl, rfl, rfl, rfl, rfl⟩

/-- A command word keeps the context, or is a RELEASE of an ACTIVE one (R240, R241, R244). -/
theorem exec_ctx {i : Instr} {s t : State} (h : exec i s = .next t) :
    t.ctx = s.ctx ∨ (i = .release 0 ∧ s.ctx.life = .active ∧ t.ctx = Context.zeroed .disposed) := by
  rcases exec_next h with ⟨-, rfl⟩ | ⟨-, ⟨_, rfl⟩ | ⟨_, _, _, -, -, rfl⟩ | ⟨_, _, _, _, -, -, -, rfl⟩ |
    ⟨hi, hlife, rfl⟩⟩
  · exact .inl rfl
  · exact .inl rfl
  · exact .inl rfl
  · exact .inl rfl
  · exact .inr ⟨hi, hlife, rfl⟩

/-- A command word clears BLKCNT where it is accepted and keeps it where it is dropped (R38, R104). -/
theorem exec_blkcnt {i : Instr} {s t : State} (h : exec i s = .next t) : t.blkcnt = s.blkcnt ∨ t.blkcnt = 0 := by
  rcases exec_next h with ⟨-, rfl⟩ | ⟨-, ⟨_, rfl⟩ | ⟨_, _, _, -, -, rfl⟩ | ⟨_, _, _, _, -, -, -, rfl⟩ | ⟨-, -, rfl⟩⟩
  · exact .inl rfl
  all_goals exact .inr rfl

/-- A command word that does not change OPK latches nothing (R49, R104). -/
theorem exec_cmd_of_same_opk {i : Instr} {s t : State} (h : exec i s = .next t) (hk : t.cmd.opk = s.cmd.opk) :
    t.cmd = s.cmd := by
  rcases exec_next h with ⟨-, rfl⟩ | ⟨idle, ⟨_, rfl⟩ | ⟨_, _, _, -, -, rfl⟩ | ⟨_, _, _, _, -, -, -, rfl⟩ | ⟨-, -, rfl⟩⟩
  · rfl
  · simp [← idle]
  · simp [idle] at hk
  · simp [idle] at hk
  · simp [← idle]

/-- An idle engine drops no command word (R32, R104). -/
theorem exec_overrun_of_idle {i : Instr} {s t : State} (h : exec i s = .next t) (idle : s.cmd.opk = .idle) :
    t.status.overrun = s.status.overrun := by
  rcases exec_next h with ⟨busy, -⟩ | ⟨-, ⟨_, rfl⟩ | ⟨_, _, _, -, -, rfl⟩ | ⟨_, _, _, _, -, -, -, rfl⟩ | ⟨-, -, rfl⟩⟩
  · exact absurd idle busy
  all_goals rfl

/-- Settles O8, one frame lemma for each part of the state. -/
theorem commandWordsFrame : Obligations.CommandWordsFrame := by
  intro i s t h
  obtain ⟨mem, answers, events, vis, others, word, bytes, fresh⟩ := exec_agentsKept h
  obtain ⟨plat, desc, ie⟩ := exec_settingsKept h
  refine ⟨mem, desc, ie, plat, answers, events, vis, others, word, bytes, fresh, fun hi => ?_,
    exec_cmd_of_same_opk h, exec_overrun_of_idle h⟩
  rcases exec_ctx h with hctx | ⟨rfl, -, -⟩
  · exact hctx
  · exact absurd rfl (hi 0)

/-! ### What the engine's turn leaves unchanged -/

/-- OVERRUN, the agents' side, the operands of the command but OPK and OFF, and the commands of other engines but
their race marks are the same in both states. -/
structure TurnKept (s t : State) : Prop where
  overrun : t.status.overrun = s.status.overrun
  events : t.events = s.events
  word : t.busWord = s.busWord
  bytes : t.busBytes = s.busBytes
  operands : { t.cmd with opk := s.cmd.opk, off := s.cmd.off } = s.cmd
  others : t.others.map (fun o => { o with raced := false }) = s.others.map fun o => { o with raced := false }

theorem constructLoad_turnKept {s t : State} (h : constructLoad s = .next t) : TurnKept s t := by
  rcases constructLoad_next h with rfl | rfl | rfl
  · constructor <;> simp
  · constructor <;> simp
  · rw [finishLoad_report]
    constructor <;> simp

theorem transformBlock_turnKept {s t : State} (h : transformBlock s = .next t) : TurnKept s t := by
  obtain ⟨-, -, rfl | rfl | rfl⟩ := transformBlock_next h
  · constructor <;> simp
  · constructor <;> simp
  · unfold finishBlock
    split <;> constructor <;> simp

theorem engineStep_turnKept {s t : State} (h : engineStep s = .next t) : TurnKept s t := by
  rcases engineStep_next h with ⟨-, rfl⟩ | ⟨-, h⟩ | ⟨-, h⟩
  · exact ⟨rfl, rfl, rfl, rfl, rfl, rfl⟩
  · exact constructLoad_turnKept h
  · exact transformBlock_turnKept h

/-- Settles O20, by the kind of command in progress. -/
theorem engineStepFrame : Obligations.EngineStepFrame := by
  intro s t h
  obtain ⟨plat, desc, ie⟩ := engineStep_settingsKept h
  obtain ⟨overrun, events, word, bytes, operands, others⟩ := engineStep_turnKept h
  exact ⟨desc, ie, overrun, plat, events, word, bytes, operands, others⟩

/-! ### What a step can do to the context -/

@[simp] theorem finishLoad_life (key ctr : List Byte) (s : State) : (finishLoad key ctr s).ctx.life = .active := by
  unfold finishLoad; split <;> rfl
@[simp] theorem finishBlock_ctx (ctr : Block) (m : Nat) (s : State) :
    (finishBlock ctr m s).ctx = { s.ctx with ctr := ctr } := by
  unfold finishBlock; split <;> rfl
@[simp] theorem finishBlock_blkcnt (ctr : Block) (m : Nat) (s : State) :
    (finishBlock ctr m s).blkcnt = s.blkcnt + 1 := by
  unfold finishBlock; split <;> rfl
@[simp] theorem observeStatus_ctx (s : State) : (observeStatus s).ctx = s.ctx := by
  unfold observeStatus; split_ifs <;> rfl
@[simp] theorem observeStatus_blkcnt (s : State) : (observeStatus s).blkcnt = s.blkcnt := by
  unfold observeStatus; split_ifs <;> rfl
@[simp] theorem writeReg_ctx (s : State) (r : Reg) (v : Word) : (writeReg s r v).ctx = s.ctx := by
  cases r <;> rfl
@[simp] theorem writeReg_blkcnt (s : State) (r : Reg) (v : Word) : (writeReg s r v).blkcnt = s.blkcnt := by
  cases r <;> rfl

/-- All that a step from `s` to `t`, taken at the next event `e` if one is coming, can do to the context and to BLKCNT
(R24, R38, R146). -/
inductive ContextMove (e : Option Event) (s t : State) : Prop where
  | kept (ctx : t.ctx = s.ctx) (blocks : t.blkcnt = s.blkcnt ∨ t.blkcnt = 0)
  | loaded (pending : s.cmd.opk = .constructPending) (life : t.ctx.life = .active)
  | advanced (pending : s.cmd.opk = .transformPending)
      (ctx : t.ctx = { s.ctx with ctr := advance s.ctx.ctr s.ctx.le }) (blocks : t.blkcnt = s.blkcnt + 1)
  | released (life : s.ctx.life = .active) (ctx : t.ctx = Context.zeroed .disposed)
      (word : ∃ addr width w, e = some (.regWrite addr width w) ∧ decode w = .release 0)
  | reset (ctx : t.ctx = Context.zeroed .none) (event : e = some .reset)

/-- The list of coming events is no part of the move. -/
theorem ContextMove.of_afterTaking {e : Option Event} {s t : State} (h : ContextMove e (afterTaking s) t) :
    ContextMove e s t := by
  cases h with
  | kept ctx blocks => exact .kept ctx blocks
  | loaded pending life => exact .loaded pending life
  | advanced pending ctx blocks => exact .advanced pending ctx blocks
  | released life ctx word => exact .released life ctx word
  | reset ctx event => exact .reset ctx event

/-- The engine's turn loads a context or commits a block, or leaves the context alone. -/
theorem engineStep_contextMove (e : Option Event) {s t : State} (h : engineStep s = .next t) :
    ContextMove e s t := by
  rcases engineStep_next h with ⟨-, rfl⟩ | ⟨pending, h⟩ | ⟨pending, h⟩
  · exact .kept rfl (.inl rfl)
  · rcases constructLoad_next h with rfl | rfl | rfl
    · exact .kept rfl (.inl rfl)
    · exact .kept (by simp) (.inl (by simp))
    · exact .loaded pending (finishLoad_life _ _ _)
  · obtain ⟨-, -, rfl | rfl | rfl⟩ := transformBlock_next h
    · exact .kept rfl (.inl rfl)
    · exact .kept (by simp) (.inl (by simp))
    · exact .advanced pending (by simp [nextBlock]) (by simp)

/-- A command word releases the context or leaves it alone. -/
theorem exec_contextMove (addr : Nat) (width : AccessWidth) {w : Word} {s t : State}
    (h : exec (decode w) s = .next t) : ContextMove (some (.regWrite addr width w)) s t := by
  rcases exec_ctx h with ctx | ⟨hw, life, ctx⟩
  · exact .kept ctx (exec_blkcnt h)
  · exact .released life ctx ⟨addr, width, w, rfl, hw⟩

/-- Every step moves the context in one of these ways, by the agent that moves. -/
theorem step_contextMove {s t : State} (h : step s = .next t) : ContextMove s.events.head? s t := by
  rcases step_next h with ⟨-, he⟩ | ⟨_, _, w, hev, he⟩ | ⟨_, _, r, v, -, -, rfl⟩ | ⟨_, _, r, -, rfl | rfl⟩ |
    ⟨who, a, bytes, -, -, u, rfl, ⟨-, rfl⟩ | ⟨-, rfl⟩⟩ | ⟨who, a, n, -, -, bytes, f, u, rfl, ⟨-, rfl⟩ | ⟨-, rfl⟩⟩ |
    ⟨a, n, -, rfl⟩ | ⟨id, reads, writes, -, rfl⟩ | ⟨id, -, rfl⟩ | ⟨hev, rfl⟩
  · exact (engineStep_contextMove _ he).of_afterTaking
  · rw [hev]
    exact (exec_contextMove _ _ he).of_afterTaking
  · exact .kept (writeReg_ctx _ _ _) (.inl (writeReg_blkcnt _ _ _))
  · exact .kept rfl (.inl rfl)
  · exact .kept (observeStatus_ctx _) (.inl (observeStatus_blkcnt _))
  · exact .kept rfl (.inl rfl)
  · exact .kept (corrupt_ctx _) (.inl (corrupt_blkcnt _))
  · exact .kept rfl (.inl rfl)
  · exact .kept (corrupt_ctx _) (.inl (corrupt_blkcnt _))
  · exact .kept rfl (.inl rfl)
  · exact .kept (beginOther_ctx _ _ _ _) (.inl (beginOther_blkcnt _ _ _ _))
  · exact .kept (endOther_ctx _ _) (.inl (endOther_blkcnt _ _))
  · exact .reset rfl hev

/-- Settles O48: the life state of each move. -/
theorem lifeStateTransitions : Obligations.LifeStateTransitions := by
  intro s t h
  cases step_contextMove h with
  | kept ctx => exact .inl (congrArg Context.life ctx)
  | loaded pending life => exact .inr (.inl ⟨pending, life⟩)
  | advanced _ ctx => exact .inl (by rw [ctx])
  | released life ctx word => exact .inr (.inr (.inl ⟨life, congrArg Context.life ctx, word⟩))
  | reset ctx event => exact .inr (.inr (.inr ⟨congrArg Context.life ctx, event⟩))

/-- While the context stays ACTIVE, a step keeps it and at most clears BLKCNT, or commits one block: under the
invariant no CONSTRUCT is pending (R22, R24, R120). -/
theorem step_activeContext {s t : State} (hinv : MachineInv s) (h : step s = .next t) (before : s.ctx.life = .active)
    (after : t.ctx.life = .active) :
    (t.ctx = s.ctx ∧ (t.blkcnt = s.blkcnt ∨ t.blkcnt = 0)) ∨
    (s.cmd.opk = .transformPending ∧ t.ctx = { s.ctx with ctr := advance s.ctx.ctr s.ctx.le } ∧
      t.blkcnt = s.blkcnt + 1) := by
  cases step_contextMove h with
  | kept ctx blocks => exact .inl ⟨ctx, blocks⟩
  | loaded pending => exact absurd before (hinv.load pending).life
  | advanced pending ctx blocks => exact .inr ⟨pending, ctx, blocks⟩
  | released _ ctx => simp [ctx, Context.zeroed] at after
  | reset ctx => simp [ctx, Context.zeroed] at after

/-- Settles O49: neither move of an ACTIVE context touches its key or its byte order. -/
theorem activeKeyAndEndiannessAreFixed : Obligations.ActiveKeyAndEndiannessAreFixed := by
  intro s t hinv h before after
  rcases step_activeContext hinv h before after with ⟨ctx, -⟩ | ⟨-, ctx, -⟩ <;> rw [ctx] <;> exact ⟨rfl, rfl, rfl⟩

/-- Under the invariant BLKCNT is far from wrapping (R38). -/
theorem MachineInv.blkcnt_succ {s : State} (h : MachineInv s) : (s.blkcnt + 1).toNat = s.blkcnt.toNat + 1 := by
  have := h.blocks
  refine BitVec.toNat_add_of_lt ?_
  simp
  omega

/-- Settles O50: the two moves of an ACTIVE context. -/
theorem counterMovesOnlyByAdvance : Obligations.CounterMovesOnlyByAdvance := by
  intro s t hinv h before after
  rcases step_activeContext hinv h before after with ⟨ctx, blocks⟩ | ⟨pending, ctx, blocks⟩
  · exact .inl ⟨congrArg Context.ctr ctx, blocks⟩
  · exact .inr ⟨pending, congrArg Context.ctr ctx, by rw [blocks, hinv.blkcnt_succ]⟩

/-! ### Where the engine's turn can stop -/

/-- The outcome is no fault, and it is a refusal only at an address with side effects, which the platform has (R72). -/
def StopsOnlyAtDevice {α : Type} (p : Platform) (o : Host.Outcome α Fault Refusal) : Prop :=
  (∃ a, o = .next a) ∨ (o = .refused .dmaToDevice ∧ p.devices ≠ [])

section Stops

variable {α β : Type} {p : Platform}

theorem stopsOnlyAtDevice_next (a : α) : StopsOnlyAtDevice p (.next a) := .inl ⟨a, rfl⟩

/-- A sequence stops only at a device if its first operation does and what follows each of its values does. -/
theorem StopsOnlyAtDevice.andThen {o : Host.Outcome α Fault Refusal} {k : α → Host.Outcome β Fault Refusal}
    (h : StopsOnlyAtDevice p o) (hk : ∀ a, o = .next a → StopsOnlyAtDevice p (k a)) :
    StopsOnlyAtDevice p (andThen o k) := by
  rcases h with ⟨a, rfl⟩ | ⟨rfl, hp⟩
  · exact hk a rfl
  · exact .inr ⟨rfl, hp⟩

theorem StopsOnlyAtDevice.not_fault {o : Host.Outcome α Fault Refusal} (h : StopsOnlyAtDevice p o) (f : Fault) :
    o ≠ .fault f := by
  rcases h with ⟨a, rfl⟩ | ⟨rfl, -⟩ <;> simp

theorem StopsOnlyAtDevice.refusal {o : Host.Outcome α Fault Refusal} (h : StopsOnlyAtDevice p o) {r : Refusal}
    (hr : o = .refused r) : r = .dmaToDevice := by
  rcases h with ⟨a, rfl⟩ | ⟨rfl, -⟩
  · cases hr
  · cases hr
    rfl

end Stops

/-- A DMA request inside memory stops only at a device (R70, R72). -/
theorem dmaAsk_stopsOnlyAtDevice {s : State} {a n : Nat} (h : a + n ≤ memSize s.plat) :
    StopsOnlyAtDevice s.plat (dmaAsk s a n) := by
  rcases dmaAsk_cases s a n with ⟨out, -⟩ | ⟨-, -, e⟩ | ⟨-, -, hd, e⟩ | ⟨-, -, -, e⟩
  · omega
  · exact .inl ⟨_, e⟩
  · exact .inr ⟨e, fun none => by simp [touchesDevice_of_none none] at hd⟩
  · exact .inl ⟨_, e⟩

theorem dmaRead_stopsOnlyAtDevice {s : State} {a n : Nat} (h : a + n ≤ memSize s.plat) :
    StopsOnlyAtDevice s.plat (dmaRead s a n) := by
  refine (dmaAsk_stopsOnlyAtDevice h).andThen fun reply _ => ?_
  split <;> exact stopsOnlyAtDevice_next _

theorem dmaWrite_stopsOnlyAtDevice {s : State} {a : Nat} {bytes : List Byte} (h : a + bytes.length ≤ memSize s.plat) :
    StopsOnlyAtDevice s.plat (dmaWrite s a bytes) := by
  refine (dmaAsk_stopsOnlyAtDevice h).andThen fun reply _ => ?_
  split <;> exact stopsOnlyAtDevice_next _

/-- Every next value of a DMA read: refused, or the bytes of memory (R70). -/
theorem dmaRead_next {s : State} {a n : Nat} {r : Option (List Byte) × State} (h : dmaRead s a n = .next r) :
    r = (none, tookAnswer s) ∨ r = (some (readBytes s.mem a n), afterRead s a n) := by
  rcases dmaRead_cases s a n with ⟨-, e⟩ | ⟨-, -, e⟩ | ⟨-, -, -, e⟩ | ⟨-, -, -, e⟩ <;> rw [e] at h <;> cases h
  · exact .inl rfl
  · exact .inr rfl

/-- The load step of a CONSTRUCT that passed its range checks stops only at a device (R120, R121). -/
theorem LoadOk.stopsOnlyAtDevice {s : State} (h : LoadOk s) : StopsOnlyAtDevice s.plat (constructLoad s) := by
  refine (dmaRead_stopsOnlyAtDevice h.keyRange).andThen fun k hk => ?_
  rcases dmaRead_next hk with rfl | rfl
  · exact stopsOnlyAtDevice_next _
  · have hctr := dmaRead_stopsOnlyAtDevice (s := afterRead s s.cmd.lka.toNat s.cmd.lkl) (a := s.cmd.lca.toNat)
      (n := 16) (by simpa using h.ctrRange)
    simp only [afterRead_cmd, afterRead_plat] at hctr ⊢
    refine hctr.andThen fun c _ => ?_
    split <;> exact stopsOnlyAtDevice_next _

/-- The block step of a TRANSFORM that passed its range checks and has a byte left stops only at a device (R180,
R181). -/
theorem BlocksOk.stopsOnlyAtDevice {s : State} (h : BlocksOk s) : StopsOnlyAtDevice s.plat (transformBlock s) := by
  obtain ⟨life, left, -, -, srcRange, dstRange, -⟩ := h
  have hsize : s.cmd.off + blockSize s.cmd ≤ s.cmd.ln := by
    rw [blockSize]
    omega
  unfold transformBlock
  rw [if_neg (not_not.mpr life), if_neg (by omega)]
  refine (dmaRead_stopsOnlyAtDevice (by omega)).andThen fun r hr => ?_
  rcases dmaRead_next hr with rfl | rfl
  · exact stopsOnlyAtDevice_next _
  · have hwrite := dmaWrite_stopsOnlyAtDevice (s := beforeWrite s) (a := s.cmd.ldst.toNat + s.cmd.off)
      (bytes := blockBytesOut s) (by rw [blockBytesOut_length, beforeWrite_plat]; omega)
    rw [beforeWrite_plat] at hwrite
    dsimp only
    rw [blockWrite_afterRead]
    refine hwrite.andThen fun w _ => ?_
    split <;> exact stopsOnlyAtDevice_next _

/-- Under the invariant the engine's turn stops only at a device. -/
theorem MachineInv.stopsOnlyAtDevice {s : State} (h : MachineInv s) :
    StopsOnlyAtDevice s.plat (Machine.engineStep s) := by
  unfold Machine.engineStep
  split
  · exact stopsOnlyAtDevice_next _
  · next hk => exact (h.load hk).stopsOnlyAtDevice
  · next hk => exact (h.transform hk).stopsOnlyAtDevice

/-- A register access of the host's never faults (R68). -/
theorem hostRegWrite_not_fault (addr : Nat) (width : AccessWidth) (v : Word) (s : State) (f : Fault) :
    hostRegWrite addr width v s ≠ .fault f := by
  unfold hostRegWrite
  split
  · simp
  · obtain ⟨t, ht⟩ := exec_total (decode v) s
    simp [ht]
  · simp

theorem hostRegRead_not_fault (addr : Nat) (width : AccessWidth) (s : State) (f : Fault) :
    hostRegRead addr width s ≠ .fault f := by
  unfold hostRegRead
  split <;> simp

/-- Under the invariant an event faults only as an access outside system memory (R60). -/
theorem MachineInv.deliver_fault {e : Event} {s : State} (h : MachineInv s) {f : Fault}
    (hf : deliver e s = .fault f) : f = .busOutsideMemory := by
  cases e with
  | regWrite addr width v => exact absurd hf (hostRegWrite_not_fault _ _ _ _ _)
  | regRead addr width => exact absurd hf (hostRegRead_not_fault _ _ _ _)
  | memWrite who a bytes =>
    simp only [deliver, busMemWrite] at hf
    split at hf <;> cases hf
    rfl
  | memRead who a n =>
    simp only [deliver, busMemRead] at hf
    split at hf <;> cases hf
    rfl
  | engineTurn => exact absurd hf (h.stopsOnlyAtDevice.not_fault f)
  | maintain | otherBegins | otherEnds | reset => cases hf

/-- Settles O47: where the engine's turn can stop, and the events that can fault. -/
theorem engineNeverStopsUnderTheInvariant : Obligations.EngineNeverStopsUnderTheInvariant := by
  intro s hinv
  have hturn := hinv.stopsOnlyAtDevice
  refine ⟨hturn.not_fault, fun r => hturn.refusal, fun none => ?_, fun f hf => ?_⟩
  · rcases hturn with hnext | ⟨-, hdevices⟩
    · exact hnext
    · exact absurd none hdevices
  · unfold step at hf
    split at hf
    · exact absurd hf (hturn.not_fault f)
    · exact (hinv.of_unread _ _ _ _ _ _ _ _ : MachineInv { s with events := _ }).deliver_fault hf

end Sys2Proof.Machine

namespace Sys2Proof.Machine

/-! ### The host's access to one register of the window -/

/-- The window holds a register at each word-aligned offset (R26). -/
theorem windowReg_word {p : Platform} {off : Nat} (hoff : off < 256) (hword : off % 4 = 0) :
    windowReg p (p.regBase + off) .w32 = .ok (regAt off) := by
  rw [windowReg, if_neg (by simp only [windowBytes]; omega), Nat.add_sub_cancel_left, if_neg (by simp [hword])]

/-- An access of another width or alignment has no meaning (R68). -/
theorem windowReg_misfit {p : Platform} {off : Nat} {width : AccessWidth} (hoff : off < 256)
    (hmis : width ≠ .w32 ∨ off % 4 ≠ 0) : windowReg p (p.regBase + off) width = .error .badWindowAccess := by
  rw [windowReg, if_neg (by simp only [windowBytes]; omega), Nat.add_sub_cancel_left, if_pos hmis]

/-- What a read of register `r` leads the host to observe: a completion, by a read of STATUS (R78). -/
def observeAt (r : Reg) (s : State) : State := if r = .status then observeStatus s else s

theorem observeStatus_frame (s : State) : observeStatus s = { s with vis := (observeStatus s).vis } := by
  unfold observeStatus
  split_ifs <;> rfl

theorem observeAt_frame (r : Reg) (s : State) : observeAt r s = { s with vis := (observeAt r s).vis } := by
  unfold observeAt
  split
  · exact observeStatus_frame s
  · rfl

/-- A read that names a register returns it, and changes nothing else but what the host has observed (R26, R72). -/
theorem hostRegRead_ok {s : State} {addr : Nat} {width : AccessWidth} {r : Reg}
    (h : windowReg s.plat addr width = .ok r) :
    hostRegRead addr width s = .next (observeAt r { s with busWord := readReg s r }) := by
  rw [hostRegRead, h]
  cases r <;> rfl

theorem hostRegRead_error {s : State} {addr : Nat} {width : AccessWidth} {e : Refusal}
    (h : windowReg s.plat addr width = .error e) : hostRegRead addr width s = .refused e := by
  rw [hostRegRead, h]

theorem hostRegWrite_error {s : State} {addr : Nat} {width : AccessWidth} {v : Word} {e : Refusal}
    (h : windowReg s.plat addr width = .error e) : hostRegWrite addr width v s = .refused e := by
  rw [hostRegWrite, h]

theorem hostRegWrite_cmd {s : State} {addr : Nat} {width : AccessWidth} (w : Word)
    (h : windowReg s.plat addr width = .ok .cmd) : hostRegWrite addr width w s = exec (decode w) s := by
  rw [hostRegWrite, h]

theorem hostRegWrite_store {s : State} {addr : Nat} {width : AccessWidth} {r : Reg} (v : Word)
    (h : windowReg s.plat addr width = .ok r) (hr : r ≠ .cmd) :
    hostRegWrite addr width v s = .next (writeReg s r v) := by
  rw [hostRegWrite, h]
  cases r with
  | cmd => exact absurd rfl hr
  | _ => rfl

section Window

variable {s : State} {off : Nat} {rest : List Event}

/-- The step of a host's 32-bit write to a register other than CMD (R26, R27). -/
theorem step_store {v : Word} (hev : s.events = .regWrite (s.plat.regBase + off) .w32 v :: rest) (hoff : off < 256)
    (hword : off % 4 = 0) (hr : regAt off ≠ .cmd) :
    step s = .next (writeReg { s with events := rest } (regAt off) v) := by
  rw [step, hev]
  exact hostRegWrite_store (s := { s with events := rest }) v (windowReg_word hoff hword) hr

/-- The step of a host's 32-bit write to CMD (R28, R103). -/
theorem step_command {w : Word} (hev : s.events = .regWrite s.plat.regBase .w32 w :: rest) :
    step s = exec (decode w) { s with events := rest } := by
  rw [step, hev]
  exact hostRegWrite_cmd (s := { s with events := rest }) w (windowReg_word (off := 0) (by decide) rfl)

/-- The step of a host's 32-bit read of a register (R26, R72). -/
theorem step_read (hev : s.events = .regRead (s.plat.regBase + off) .w32 :: rest) (hoff : off < 256)
    (hword : off % 4 = 0) :
    step s = .next (observeAt (regAt off) { s with events := rest, busWord := readReg s (regAt off) }) := by
  rw [step, hev]
  exact hostRegRead_ok (s := { s with events := rest }) (windowReg_word hoff hword)

end Window

/-- The reserved offsets of the window (R26, R27). -/
theorem regAt_reserved {off : Nat}
    (h : off = 0x14 ∨ off = 0x18 ∨ off = 0x1C ∨ (0x44 ≤ off ∧ off ≤ 0xFC ∧ off % 4 = 0)) :
    regAt off = .reserved := by
  rw [regAt] <;> omega

/-! ### What each register reads as -/

/-- The number of an appended word: its high part counts in multiples of the low part's range. -/
theorem toNat_append_eq_mul_add {m n : Nat} (x : BitVec m) (y : BitVec n) :
    (x ++ y).toNat = x.toNat * 2 ^ n + y.toNat := by
  rw [BitVec.toNat_append, ← Nat.shiftLeft_add_eq_or_of_lt y.isLt, Nat.shiftLeft_eq]

theorem errInfoWord_toNat (e : ErrInfo) : (errInfoWord e).toNat = e.cls.toNat + 16 * e.sub.toNat := by
  simp only [errInfoWord, toNat_append_eq_mul_add, BitVec.ofNat_eq_ofNat, BitVec.toNat_zero]
  omega

theorem statusWord_toNat (s : State) :
    (statusWord s).toNat = (busy s).toNat + 2 * s.status.done.toNat + 4 * s.status.err.toNat +
      8 * s.status.overrun.toNat + 16 * (lifeCode s.ctx.life).toNat + 64 * s.ctx.le.toNat := by
  simp only [statusWord, toNat_append_eq_mul_add, BitVec.toNat_ofBool, BitVec.ofNat_eq_ofNat, BitVec.toNat_zero]
  omega

/-- A bit of STATUS, from its number. -/
theorem statusWord_getLsbD {s : State} {i : Nat} {b : Bool} (h : (statusWord s).toNat / 2 ^ i % 2 = b.toNat) :
    (statusWord s).getLsbD i = b :=
  Function.LeftInverse.injective Bool.ofNat_toNat ((Nat.toNat_testBit _ _).trans h)

theorem statusWord_eq_ofNat (s : State) :
    statusWord s = BitVec.ofNat 32 ((busy s).toNat + 2 * s.status.done.toNat + 4 * s.status.err.toNat +
      8 * s.status.overrun.toNat + 16 * (lifeCode s.ctx.life).toNat + 64 * s.ctx.le.toNat) := by
  rw [← statusWord_toNat, BitVec.ofNat_toNat, BitVec.setWidth_eq]

theorem errInfoWord_eq_ofNat (e : ErrInfo) : errInfoWord e = BitVec.ofNat 32 (e.cls.toNat + 16 * e.sub.toNat) := by
  rw [← errInfoWord_toNat, BitVec.ofNat_toNat, BitVec.setWidth_eq]

/-- The register that reads as CTRL.IE alone reads as a written word's bit 0 (R37). -/
theorem append_ofBool_getLsbD_zero (v : Word) : (0 : BitVec 31) ++ BitVec.ofBool (v.getLsbD 0) = v &&& 1 := by
  refine BitVec.eq_of_toNat_eq ?_
  rw [toNat_append_eq_mul_add, BitVec.toNat_ofBool, BitVec.getLsbD, Nat.toNat_testBit, BitVec.toNat_and]
  simp [Nat.and_one_is_mod]

/-- A write-1-to-clear bit is cleared by a 1 and kept by a 0 (R35). -/
theorem statusAfterWrite_eq (b : StatusBits) (v : Word) :
    statusAfterWrite b v =
      { done := if v.getLsbD 1 then false else b.done
        err := if v.getLsbD 2 then false else b.err
        overrun := if v.getLsbD 3 then false else b.overrun } := by
  have clear (bit written : Bool) : (bit && !written) = if written then false else bit := by
    cases written <;> simp
  rw [statusAfterWrite, clear, clear, clear]

/-! ### Writes to the window -/

/-- Settles O4: a CMD write names the register CMD, and the word placed as the next event is one. -/
theorem writeToCmdRunsTheDecodedWord : Obligations.WriteToCmdRunsTheDecodedWord := by
  refine ⟨fun s w rest hev => step_command hev, fun s w => ?_⟩
  have hword : BitVec.ofNat 32 (w.toNat % 2 ^ 32) = w := by
    rw [Nat.mod_eq_of_lt w.isLt, BitVec.ofNat_toNat, BitVec.setWidth_eq]
  exact step_command (by rw [State.withFetchWord, hword])

/-- Settles O32: the store to STATUS. -/
theorem statusWriteClearsTheBitsWrittenAsOne : Obligations.StatusWriteClearsTheBitsWrittenAsOne := by
  intro s v rest hev
  rw [step_store hev (by decide) (by decide) (by decide), ← statusAfterWrite_eq]
  rfl

/-- Settles O34: the store to CTRL. -/
theorem ctrlKeepsOnlyTheInterruptEnable : Obligations.CtrlKeepsOnlyTheInterruptEnable :=
  fun _ v _ hev => ⟨_, step_store hev (by decide) (by decide) (by decide), rfl, append_ofBool_getLsbD_zero v⟩

/-- The nine descriptor registers (R39 to R47). -/
def descriptorRegs : List Reg :=
  [.keyAddr, .keyLen, .ctrAddr, .ctrLen, .srcAddr, .srcLen, .dstAddr, .dstCap, .nbytes]

theorem readReg_writeReg_same {r : Reg} (h : r ∈ descriptorRegs) (s : State) (v : Word) :
    readReg (writeReg s r v) r = v := by
  fin_cases h <;> rfl

/-- A store to a descriptor register changes the descriptor registers alone (R48). -/
theorem writeReg_descriptor {r : Reg} (h : r ∈ descriptorRegs) (s : State) (v : Word) :
    writeReg s r v = { s with desc := (writeReg s r v).desc } := by
  fin_cases h <;> rfl

/-- A store to a descriptor register leaves every other register as it was (R48). -/
theorem readReg_writeReg_of_ne {r r' : Reg} (h : r ∈ descriptorRegs) (hne : r' ≠ r) (s : State) (v : Word) :
    readReg (writeReg s r v) r' = readReg s r' := by
  fin_cases h <;> cases r' <;> simp [writeReg, readReg, statusWord, busy] at hne ⊢

/-- Settles O35: the store to a descriptor register, read back and elsewhere. -/
theorem descriptorRegistersStoreWhatIsWritten : Obligations.DescriptorRegistersStoreWhatIsWritten := by
  intro off r hmem s v rest hev
  have hat : off < 256 ∧ off % 4 = 0 ∧ r = regAt off ∧ r ∈ descriptorRegs := by
    fin_cases hmem <;> decide
  obtain ⟨hoff, hword, rfl, hr⟩ := hat
  have hcmd : regAt off ≠ .cmd := fun e => absurd (e ▸ hr) (by decide)
  refine ⟨_, step_store hev hoff hword hcmd, readReg_writeReg_same hr _ v,
    fun r' hne => readReg_writeReg_of_ne hr hne _ v, ?_⟩
  rw [writeReg_descriptor hr]

/-- Settles O36: the stores and the reads that do nothing. -/
theorem reservedAndReadOnlyOffsets : Obligations.ReservedAndReadOnlyOffsets := by
  intro s off rest
  refine ⟨fun v hoff hev => ?_, fun hoff hev => ?_⟩
  · have hat : regAt off = .errInfo ∨ regAt off = .blkcnt ∨ regAt off = .reserved := by
      rcases hoff with rfl | rfl | hreserved
      · exact .inl rfl
      · exact .inr (.inl rfl)
      · exact .inr (.inr (regAt_reserved hreserved))
    rw [step_store hev (by omega) (by omega) (by rcases hat with e | e | e <;> simp [e])]
    rcases hat with e | e | e <;> rw [e] <;> rfl
  · have hat : regAt off = .cmd ∨ regAt off = .reserved := by
      rcases hoff with rfl | hreserved
      · exact .inl rfl
      · exact .inr (regAt_reserved hreserved)
    rw [step_read hev (by omega) (by omega)]
    rcases hat with e | e <;> rw [e] <;> rfl

/-- Settles O38: the window names no register for such an access. -/
theorem misfitWindowAccessIsRefused : Obligations.MisfitWindowAccessIsRefused := by
  intro s off width rest hoff hmis
  refine ⟨fun v hev => ?_, fun hev => ?_⟩ <;> rw [step, hev]
  · exact hostRegWrite_error (s := { s with events := rest }) (windowReg_misfit hoff hmis)
  · exact hostRegRead_error (s := { s with events := rest }) (windowReg_misfit hoff hmis)

/-! ### Reads of the window -/

/-- Settles O33: each field of STATUS, from the word's number. -/
theorem statusAndErrInfoLayout : Obligations.StatusAndErrInfoLayout := by
  intro s
  have hbusy := (busy s).toNat_le
  have hdone := s.status.done.toNat_le
  have herr := s.status.err.toNat_le
  have hoverrun := s.status.overrun.toNat_le
  have hle := s.ctx.le.toNat_le
  have hlife := (lifeCode s.ctx.life).isLt
  have hword := statusWord_toNat s
  have life : (statusWord s).extractLsb' 4 2 = lifeCode s.ctx.life := by
    refine BitVec.eq_of_toNat_eq ?_
    rw [BitVec.extractLsb'_toNat, Nat.shiftRight_eq_div_pow]
    omega
  have high : ∀ i, 7 ≤ i → (statusWord s).getLsbD i = false := fun i hi =>
    Nat.testBit_lt_two_pow (lt_of_lt_of_le (b := 2 ^ 7) (by omega) (Nat.pow_le_pow_right (by decide) hi))
  refine ⟨statusWord_getLsbD ?_, statusWord_getLsbD ?_, statusWord_getLsbD ?_, statusWord_getLsbD ?_, life.trans ?_,
    statusWord_getLsbD ?_, high, errInfoWord_toNat s.errInfo⟩
  case refine_5 => cases s.ctx.life <;> rfl
  all_goals omega

theorem toNat_busy (s : State) : (busy s).toNat = if s.cmd.opk = .idle then 0 else 1 := by
  by_cases h : s.cmd.opk = .idle <;> simp [busy, h]

theorem mul_toNat_eq_ite (k : Nat) (b : Bool) : k * b.toNat = if b then k else 0 := by
  cases b <;> simp

/-- Settles O37: each register's word, at its own offset, and the frame of the read. -/
theorem registerReadsHaveNoSideEffect : Obligations.RegisterReadsHaveNoSideEffect := by
  intro s off rest hoff hword hev
  refine ⟨_, step_read hev (by omega) hword, ?_, ?_⟩ <;> rw [observeAt_frame]
  dsimp only
  unfold regAt
  split
  case h_2 =>
    rw [readReg, statusWord_eq_ofNat, toNat_busy]
    simp only [mul_toNat_eq_ite]
    cases s.ctx.life <;> rfl
  case h_3 => exact errInfoWord_eq_ofNat s.errInfo
  case h_4 => cases h : s.ie <;> simp [readReg, h]
  case h_15 => simp (disch := assumption) only [readReg, if_neg, BitVec.ofNat_eq_ofNat]
  all_goals rfl

/-! ### What no register shows -/

/-- The machine with another counter and key. -/
def withSecrets (ctr : Block) (key : KeyStore) (s : State) : State :=
  { s with ctx := { s.ctx with ctr := ctr, key := key } }

/-- States that differ in the counter and the key alone (R21). -/
theorem exists_withSecrets {s t : State} (h : sameButSecrets s t) : ∃ ctr key, t = withSecrets ctr key s := by
  refine ⟨t.ctx.ctr, t.ctx.key, ?_⟩
  calc t = withSecrets t.ctx.ctr t.ctx.key (withSecrets (Vector.replicate 16 0) (Vector.replicate 32 0) t) := rfl
    _ = withSecrets t.ctx.ctr t.ctx.key (withSecrets (Vector.replicate 16 0) (Vector.replicate 32 0) s) :=
      congrArg (withSecrets t.ctx.ctr t.ctx.key) h.symm
    _ = withSecrets t.ctx.ctr t.ctx.key s := rfl

theorem readReg_withSecrets (ctr : Block) (key : KeyStore) (s : State) (r : Reg) :
    readReg (withSecrets ctr key s) r = readReg s r := by
  cases r <;> rfl

theorem observeAt_withSecrets (ctr : Block) (key : KeyStore) (r : Reg) (s : State) :
    observeAt r (withSecrets ctr key s) = withSecrets ctr key (observeAt r s) := by
  unfold observeAt observeStatus
  simp only [apply_ite (withSecrets ctr key)]
  rfl

/-- Settles O39: no read depends on the counter or the key. -/
theorem registersRevealNeitherCounterNorKey : Obligations.RegistersRevealNeitherCounterNorKey := by
  intro s t h
  obtain ⟨ctr, key, rfl⟩ := exists_withSecrets h
  refine ⟨fun r => (readReg_withSecrets ctr key s r).symm, rfl, fun addr width => ?_⟩
  cases hw : windowReg s.plat addr width with
  | error e => rw [hostRegRead_error hw, hostRegRead_error (s := withSecrets ctr key s) hw]
  | ok r =>
    have hread : hostRegRead addr width (withSecrets ctr key s) =
        .next (withSecrets ctr key (observeAt r { s with busWord := readReg s r })) := by
      rw [hostRegRead_ok (s := withSecrets ctr key s) hw, readReg_withSecrets, ← observeAt_withSecrets]
      rfl
    rw [hostRegRead_ok hw, hread]
    exact ⟨rfl, rfl⟩

/-! ### The machine right after reset -/

/-- Settles O43, register by register. -/
theorem registersReadZeroAfterReset : Obligations.RegistersReadZeroAfterReset :=
  ⟨fun r => by cases r <;> rfl, rfl, rfl, rfl⟩

/-- Settles O45: memory, the other engines' commands and the report are empty, and the context is zero. -/
theorem resetMeetsTheInvariant : Obligations.ResetMeetsTheInvariant where
  platform := by decide
  memory := by decide
  context := contextOk_zeroed (by decide)
  report := ⟨.ok, rfl⟩
  errClass := by decide
  blocks := by decide
  idle := fun _ => rfl
  load := fun pending => absurd pending (by decide)
  transform := fun pending => absurd pending (by decide)
  others := by decide
  instances := by decide

end Sys2Proof.Machine

namespace Sys2Proof.Machine

/-! ### Memory after the blocks of a TRANSFORM, whatever the overlap -/

/-- Settles O18: the run of the blocks, begun at block 0 with the counter the context holds. -/
theorem transformMemoryIsItsBlocksInOrder : Obligations.TransformMemoryIsItsBlocksInOrder := by
  intro s hinv hund hk hoff
  have hfirst : s.blkcnt.toNat = 0 := by
    have := (hinv.transform hk).blocks
    omega
  obtain ⟨t, hrun, e⟩ := run_blocks hinv hund hk (ctx := s.ctx) (by rw [hfirst, s.ctx.after_zero])
    (by rw [hoff, Nat.sub_zero])
  refine ⟨t, hrun, ?_, ?_, e.idle, by rw [e.status], by rw [e.status]⟩
  · rw [e.mem, hfirst]
  · rw [e.ctx, hfirst, Nat.zero_add, Context.after_ctr]

/-! ### One rule for each way a DMA request ends -/

section Requests

variable {s : State} {a n : Nat} {bytes : List Byte}

/-- The four ways a request ends, by the checks it meets in order (R60, R70, R72). -/
theorem dmaAsk_eq (s : State) (a n : Nat) : dmaAsk s a n =
    if memSize s.plat < a + n then .fault .dmaOutsideMemory
    else if dmaAdmits s = false then .next (false, tookAnswer s)
    else if touchesDevice s.plat a n then .refused .dmaToDevice
    else .next (true, tookAnswer s) := rfl

theorem dmaAsk_of_refused (ha : a + n ≤ memSize s.plat) (h : dmaAdmits s = false) :
    dmaAsk s a n = .next (false, tookAnswer s) := by
  rw [dmaAsk_eq, if_neg (Nat.not_lt.mpr ha), if_pos h]

theorem dmaAsk_of_admitted (ha : a + n ≤ memSize s.plat) (h : dmaAdmits s = true) :
    dmaAsk s a n = if touchesDevice s.plat a n then .refused .dmaToDevice else .next (true, tookAnswer s) := by
  rw [dmaAsk_eq, if_neg (Nat.not_lt.mpr ha), if_neg (by simp [h])]

/-- A refused read takes its answer and gives no bytes (R70). -/
theorem dmaRead_of_refused (ha : a + n ≤ memSize s.plat) (h : dmaAdmits s = false) :
    dmaRead s a n = .next (none, tookAnswer s) := by
  rw [dmaRead, dmaAsk_of_refused ha h]
  rfl

/-- A read admitted to ordinary memory gives the bytes there (R60, R72). -/
theorem dmaRead_of_admitted (ha : a + n ≤ memSize s.plat) (h : dmaAdmits s = true)
    (hd : touchesDevice s.plat a n = false) :
    dmaRead s a n = .next (some (readBytes s.mem a n), afterRead s a n) := by
  rw [dmaRead, dmaAsk_of_admitted ha h, hd]
  rfl

/-- The model refuses a read admitted to a device (R72). -/
theorem dmaRead_of_device (ha : a + n ≤ memSize s.plat) (h : dmaAdmits s = true)
    (hd : touchesDevice s.plat a n = true) : dmaRead s a n = .refused .dmaToDevice := by
  rw [dmaRead, dmaAsk_of_admitted ha h, hd]
  rfl

/-- A refused write takes its answer and stores no byte (R70). -/
theorem dmaWrite_of_refused (ha : a + bytes.length ≤ memSize s.plat) (h : dmaAdmits s = false) :
    dmaWrite s a bytes = .next (false, tookAnswer s) := by
  rw [dmaWrite, dmaAsk_of_refused ha h]
  rfl

/-- A write admitted to ordinary memory stores its bytes (R63, R72). -/
theorem dmaWrite_of_admitted (ha : a + bytes.length ≤ memSize s.plat) (h : dmaAdmits s = true)
    (hd : touchesDevice s.plat a bytes.length = false) :
    dmaWrite s a bytes = .next (true, afterWrite s a bytes) := by
  rw [dmaWrite, dmaAsk_of_admitted ha h, hd]
  rfl

/-- The model refuses a write admitted to a device (R72). -/
theorem dmaWrite_of_device (ha : a + bytes.length ≤ memSize s.plat) (h : dmaAdmits s = true)
    (hd : touchesDevice s.plat a bytes.length = true) : dmaWrite s a bytes = .refused .dmaToDevice := by
  rw [dmaWrite, dmaAsk_of_admitted ha h, hd]
  rfl

end Requests

/-- A range that overlaps one of the ranges meets them. -/
theorem meetsAny_of_overlaps {ranges : List Span} {d : Span} (hd : d ∈ ranges) {a n : Nat}
    (h : overlaps a n d.base d.len = true) : meetsAny ranges a n = true :=
  List.any_eq_true.mpr ⟨d, hd, h⟩

/-- Settles O59, by the platform's answer. -/
theorem dmaToDeviceIsRefused : Obligations.DmaToDeviceIsRefused :=
  fun _ _ _ hd => ⟨
    fun _ ha ho => ⟨fun h => dmaRead_of_device ha h (meetsAny_of_overlaps hd ho), fun h => dmaRead_of_refused ha h⟩,
    fun _ ha ho => ⟨fun h => dmaWrite_of_device ha h (meetsAny_of_overlaps hd ho), fun h => dmaWrite_of_refused ha h⟩⟩

/-! ### The races of a DMA request -/

/-- A write that meets what another engine's command reads or writes meets the command (R81). -/
theorem metByWrite_of_overlaps {o : OtherCommand} {d : Span} (hd : d ∈ o.reads ++ o.writes) {a n : Nat}
    (h : overlaps a n d.base d.len = true) : metByWrite a n o = true :=
  Bool.or_eq_true_iff.mpr
    ((List.mem_append.mp hd).imp (fun hr => meetsAny_of_overlaps hr h) fun hw => meetsAny_of_overlaps hw h)

/-- A request leaves the mark on the other command that it meets (R81). -/
theorem mem_marked {l : List OtherCommand} {o : OtherCommand} (ho : o ∈ l) {met : OtherCommand → Bool}
    (h : met o = true) : { o with raced := true } ∈ l.map fun o => { o with raced := o.raced || met o } :=
  List.mem_map.mpr ⟨o, ho, by rw [h, Bool.or_true]⟩

/-- Settles O54, for the read and for the write. -/
theorem requestsOfTwoInstancesToOneByteRace : Obligations.RequestsOfTwoInstancesToOneByteRace := by
  intro s a o d hk hdev hadmit ho
  refine ⟨fun n ha hd hov => ?_, fun bytes ha hd hov => ?_⟩
  · have hmet : metByRead a n o = true := meetsAny_of_overlaps hd hov
    refine ⟨_, dmaRead_of_admitted ha hadmit (touchesDevice_of_none hdev a n), ?_, ?_⟩
    · exact meetOthers_raced (s := tookAnswer s) hk (.inr ⟨o, ho, hmet⟩)
    · rw [afterRead_others]
      exact mem_marked ho hmet
  · have hmet : metByWrite a bytes.length o = true := metByWrite_of_overlaps hd hov
    refine ⟨_, dmaWrite_of_admitted ha hadmit (touchesDevice_of_none hdev a _), ?_, ?_⟩
    · exact meetOthers_raced (s := dmaStore (tookAnswer s) a bytes) hk (.inr ⟨o, ho, hmet⟩)
    · rw [afterWrite_others]
      exact mem_marked ho hmet

/-- Without coherence, a read of a byte that the host has not made visible may miss its write (R77). -/
theorem dmaMisses_of_dirty {s : State} (h : s.plat.coherent = false) {a n b : Nat} (hb : inRange a n b = true)
    (hd : b ∈ s.vis.hostDirty) : dmaMisses s a n = true := by
  rw [dmaMisses, h, Bool.not_false, Bool.true_and]
  exact List.any_eq_true.mpr ⟨b, hd, hb⟩

/-- Of a visibility list, what lies outside the range (R77, R78). -/
theorem mem_withoutRange {l : List Nat} {a n b : Nat} :
    b ∈ withoutRange l a n ↔ b ∈ l ∧ inRange a n b = false := by
  simp [withoutRange]

/-- After maintenance of the range DMA misses nothing in it (R77). -/
theorem dmaMisses_maintainRange (s : State) (a n : Nat) : dmaMisses (maintainRange a n s) a n = false := by
  have : (withoutRange s.vis.hostDirty a n).any (inRange a n) = false :=
    List.any_eq_false.mpr fun b hb => by simp [(mem_withoutRange.mp hb).2]
  rw [dmaMisses, maintainRange_vis, this, Bool.and_false]

/-- Settles O58: the read before the maintenance misses the byte, the one after it misses nothing. -/
theorem dmaReadOfUnflushedByteIsARace : Obligations.DmaReadOfUnflushedByteIsARace := by
  intro s a n b hk hcoh hdev ha hadmit hb hdirty
  have hmem := touchesDevice_of_none hdev a n
  refine ⟨⟨_, dmaRead_of_admitted ha hadmit hmem, ?_⟩, fun ho => ?_⟩
  · exact meetOthers_raced (s := tookAnswer s) hk (.inl (dmaMisses_of_dirty hcoh hb hdirty))
  · rw [dmaRead_of_admitted (s := maintainRange a n s) ha hadmit hmem,
      afterRead_of_seen (maintainRange a n s) a n (dmaMisses_maintainRange s a n) ho]
    rfl

/-! ### The engine's steps, for each of the platform's answers -/

/-- A read that misses nothing and meets no other command, for either answer (R70). -/
theorem dmaRead_of_apart {s : State} {a n : Nat} (ha : a + n ≤ memSize s.plat) (hdev : s.plat.devices = [])
    (hseen : dmaMisses s a n = false) (ho : ∀ o ∈ s.others, metByRead a n o = false) :
    dmaRead s a n = .next (if dmaAdmits s = false then none else some (readBytes s.mem a n), tookAnswer s) := by
  cases h : dmaAdmits s with
  | false => exact dmaRead_of_refused ha h
  | true => rw [dmaRead_of_admitted ha h (touchesDevice_of_none hdev a n), afterRead_of_seen s a n hseen ho]; rfl

/-- A write that meets no other command, for either answer (R70). -/
theorem dmaWrite_of_apart {s : State} {a : Nat} {bytes : List Byte} (ha : a + bytes.length ≤ memSize s.plat)
    (hdev : s.plat.devices = []) (ho : ∀ o ∈ s.others, metByWrite a bytes.length o = false) :
    dmaWrite s a bytes = .next (
      if dmaAdmits s = false then (false, tookAnswer s) else (true, dmaStore (tookAnswer s) a bytes)) := by
  cases h : dmaAdmits s with
  | false => exact dmaWrite_of_refused ha h
  | true => rw [dmaWrite_of_admitted ha h (touchesDevice_of_none hdev a _), afterWrite_of_apart s a bytes ho]; rfl

theorem tookAnswer_eq (s : State) : tookAnswer s = { s with dmaAnswers := s.dmaAnswers.drop 1 } := by
  rw [List.drop_one, tookAnswer]

theorem tookAnswer_tookAnswer (s : State) :
    tookAnswer (tookAnswer s) = { s with dmaAnswers := s.dmaAnswers.drop 2 } := by
  simp [tookAnswer_eq]

theorem dmaAdmits_tookAnswer (s : State) : dmaAdmits (tookAnswer s) = (s.dmaAnswers.drop 1).headD true := by
  rw [tookAnswer_eq, dmaAdmits]

/-- The load step beside commands on other bytes, for either answer to each of its reads (R75, R121). -/
theorem constructLoad_of_apart {s : State} (hdev : s.plat.devices = [])
    (hseen : s.plat.coherent = true ∨ s.vis.hostDirty = [])
    (hkey : ∀ o ∈ s.others, metByRead s.cmd.lka.toNat s.cmd.lkl o = false)
    (hctr : ∀ o ∈ s.others, metByRead s.cmd.lca.toNat 16 o = false)
    (hkr : s.cmd.lka.toNat + s.cmd.lkl ≤ memSize s.plat) (hcr : s.cmd.lca.toNat + 16 ≤ memSize s.plat) :
    constructLoad s = .next (
      if dmaAdmits s = false then complete .busRead (tookAnswer s)
      else if dmaAdmits (tookAnswer s) = false then complete .busRead (tookAnswer (tookAnswer s))
      else finishLoad (readBytes s.mem s.cmd.lka.toNat s.cmd.lkl) (readBytes s.mem s.cmd.lca.toNat 16)
        (tookAnswer (tookAnswer s))) := by
  rw [constructLoad, dmaRead_of_apart hkr hdev (dmaMisses_of_seen s _ _ hseen) hkey]
  cases dmaAdmits s with
  | false => rfl
  | true =>
    simp only [andThen_of_next, Bool.true_eq_false, if_false, tookAnswer_cmd]
    rw [dmaRead_of_apart (s := tookAnswer s) hcr hdev (dmaMisses_of_seen (tookAnswer s) _ _ hseen) hctr]
    cases dmaAdmits (tookAnswer s) <;> rfl

/-- A CONSTRUCT that has met no race loads the bytes it has read (R121). -/
theorem finishLoad_of_unraced (key ctr : List Byte) {s : State} (h : s.raced = false) :
    finishLoad key ctr s = complete .ok (loadContext key ctr s) := by
  rw [finishLoad, h]
  rfl

/-- The key store of the bytes of a range is those bytes, then zeros (R121). -/
theorem keyStoreOf_readBytes (m : Memory) (a n : Nat) :
    keyStoreOf (readBytes m a n) = Vector.ofFn fun i => if i.val < n then readByte m (a + i.val) else 0 := by
  refine congrArg Vector.ofFn (funext fun i => ?_)
  split
  · next hi => exact readBytes_getD m a n i.val hi 0
  · next hi => simp [List.getD_eq_getElem?_getD, hi]

/-- The counter of a range is its bytes (R64, R121). -/
theorem blockOf_readBytes (m : Memory) (a : Nat) :
    blockOf (readBytes m a 16) = Vector.ofFn fun i => readByte m (a + i.val) :=
  congrArg Vector.ofFn (funext fun i => readBytes_getD m a 16 i.val i.isLt 0)

/-- Settles O11, by the answers to the key read and to the counter read. -/
theorem loadStepFollowsThePlatformsAnswers : Obligations.LoadStepFollowsThePlatformsAnswers := by
  intro s hk hdev hraced hapart hseen _ hkr hcr
  have hload := constructLoad_of_apart hdev hseen (fun o ho => ((hapart o ho).1 hk).1)
    (fun o ho => ((hapart o ho).1 hk).2) hkr hcr
  rw [engineStep, hk, ← dmaAdmits_tookAnswer, ← blockOf_readBytes, ← keyStoreOf_readBytes]
  refine hload.trans (congrArg Host.Outcome.next ?_)
  rw [finishLoad_of_unraced _ _ (s := tookAnswer (tookAnswer s)) hraced, tookAnswer_tookAnswer, tookAnswer_eq]
  rfl

/-- The block step beside commands on other bytes, for either answer to its read and to its write (R75, R181). -/
theorem transformBlock_of_apart {s : State} (hlife : s.ctx.life = .active) (hoff : s.cmd.off < s.cmd.ln)
    (hdev : s.plat.devices = []) (hraced : s.raced = false)
    (hseen : s.plat.coherent = true ∨ s.vis.hostDirty = [])
    (hread : ∀ o ∈ s.others, metByRead s.cmd.lsrc.toNat s.cmd.ln o = false)
    (hwrite : ∀ o ∈ s.others, metByWrite s.cmd.ldst.toNat s.cmd.ln o = false)
    (hsr : s.cmd.lsrc.toNat + s.cmd.ln ≤ memSize s.plat) (hdr : s.cmd.ldst.toNat + s.cmd.ln ≤ memSize s.plat) :
    transformBlock s = .next (
      if dmaAdmits s = false then complete .busRead (tookAnswer s)
      else if dmaAdmits (tookAnswer s) = false then complete .busWrite (tookAnswer (tookAnswer s))
      else if s.cmd.off + blockSize s.cmd = s.cmd.ln then complete .ok (blockDone s) else blockDone s) := by
  have hsize : s.cmd.off + blockSize s.cmd ≤ s.cmd.ln := by
    rw [blockSize]
    omega
  rw [transformBlock, if_neg (not_not.mpr hlife), if_neg (by omega),
    dmaRead_of_apart (by omega) hdev (dmaMisses_of_seen s _ _ hseen)
      fun o ho => metByRead_of_within (hread o ho) (by omega) (by omega)]
  cases dmaAdmits s with
  | false => rfl
  | true =>
    have hout : blockOutput (readBytes s.mem (s.cmd.lsrc.toNat + s.cmd.off) (blockSize s.cmd)) (nextBlock s.ctx).1
        (tookAnswer s) = (blockCombined s, tookAnswer s) := by
      simp [blockOutput, hraced, blockCombined]
    have hw := dmaWrite_of_apart (s := tookAnswer s) (a := s.cmd.ldst.toNat + s.cmd.off) (bytes := blockCombined s)
      (by rw [blockCombined_length, tookAnswer_plat]; omega) hdev
      fun o ho => metByWrite_of_within (hwrite o ho) (by omega) (by rw [blockCombined_length]; omega)
    simp only [andThen_of_next, Bool.true_eq_false, if_false, blockWrite, tookAnswer_ctx, hout, tookAnswer_cmd, hw,
      readBytes_length]
    cases dmaAdmits (tookAnswer s) <;> rfl

/-- Every field that an undisturbed block changes (R181; the visibility lists: assumption 7). -/
theorem blockDone_eq (s : State) : blockDone s = { s with
    dmaAnswers := s.dmaAnswers.drop 2
    ctx := { s.ctx with ctr := advance s.ctx.ctr s.ctx.le }
    blkcnt := s.blkcnt + 1
    cmd := { s.cmd with off := s.cmd.off + blockSize s.cmd }
    mem := writeBytes s.mem (s.cmd.ldst.toNat + s.cmd.off) (blockCombined s)
    vis := { s.vis with
      hostDirty := withoutRange s.vis.hostDirty (s.cmd.ldst.toNat + s.cmd.off) (blockSize s.cmd)
      unseen := withRange s.vis.unseen (s.cmd.ldst.toNat + s.cmd.off) (blockSize s.cmd)
      stale := withoutRange s.vis.stale (s.cmd.ldst.toNat + s.cmd.off) (blockSize s.cmd) } } := by
  rw [blockDone, tookAnswer_tookAnswer, dmaStore, blockCombined_length]
  rfl

/-- Settles O16, by the answers to the read and to the write. -/
theorem blockStepFollowsThePlatformsAnswers : Obligations.BlockStepFollowsThePlatformsAnswers := by
  intro s m out hk hlife hdev hraced hapart hseen hoff hsr hdr hm hout
  have hblock := transformBlock_of_apart hlife hoff hdev hraced hseen (fun o ho => ((hapart o ho).2 hk).1)
    (fun o ho => ((hapart o ho).2 hk).2) hsr hdr
  have hm' : m = blockSize s.cmd := hm
  have hout' : out = blockCombined s := by rw [hout, hm']; rfl
  rw [engineStep, hk, ← dmaAdmits_tookAnswer, hm', hout']
  refine hblock.trans (congrArg Host.Outcome.next ?_)
  rw [tookAnswer_tookAnswer, tookAnswer_eq, blockDone_eq]
  rfl

/-! ### The memory accesses of the host and of other masters -/

section Accesses

variable {s : State} {who : Master} {a n : Nat} {bytes : List Byte} {rest : List Event}

/-- The write of another agent that races with the command in progress (R79, R81). -/
theorem step_memWrite_of_race (hev : s.events = .memWrite who a bytes :: rest)
    (ha : a + bytes.length ≤ memSize s.plat) (hr : racesWrite s a bytes.length = true) :
    step s = .next (corrupt (raceOthers who (metByWrite a bytes.length) true { s with
      events := rest, mem := writeBytes s.mem a bytes, vis := visAfterWrite who a bytes.length s })) := by
  have hr' : racesWrite { s with events := rest } a bytes.length = true := hr
  rw [step, hev]
  simp only [deliver, busMemWrite, Nat.not_lt.mpr ha, if_false, hr', if_true]
  rfl

/-- A write of another agent outside memory faults (R60). -/
theorem step_memWrite_outside (hev : s.events = .memWrite who a bytes :: rest)
    (ha : memSize s.plat < a + bytes.length) : step s = .fault .busOutsideMemory := by
  rw [step, hev]
  exact if_pos ha

/-- A read of another agent outside memory faults (R60). -/
theorem step_memRead_outside (hev : s.events = .memRead who a n :: rest) (ha : memSize s.plat < a + n) :
    step s = .fault .busOutsideMemory := by
  rw [step, hev]
  exact if_pos ha

end Accesses

/-- Settles O60, for the write and for the read. -/
theorem accessOutsideMemoryFaults : Obligations.AccessOutsideMemoryFaults :=
  fun _ _ _ _ => ⟨fun _ ha hev => step_memWrite_outside hev ha, fun _ ha hev => step_memRead_outside hev ha⟩

/-- A race marks the command in progress (R79). -/
theorem corrupt_raced {s : State} (hk : s.cmd.opk ≠ .idle) : (corrupt s).raced = true := by
  rcases corrupt_cases s with ⟨h, -⟩ | ⟨-, e⟩ | ⟨-, e⟩
  · exact absurd h hk
  · rw [e]
  · rw [e]

/-- A write to a range of the command in progress races with it (R79). -/
theorem racesWrite_of_overlaps {s : State} {a n : Nat} (hk : s.cmd.opk ≠ .idle)
    (hload : s.cmd.opk = .constructPending →
      overlaps a n s.cmd.lka.toNat s.cmd.lkl = true ∨ overlaps a n s.cmd.lca.toNat 16 = true)
    (hblock : s.cmd.opk = .transformPending →
      overlaps a n s.cmd.lsrc.toNat s.cmd.ln = true ∨ overlaps a n s.cmd.ldst.toNat s.cmd.ln = true) :
    racesWrite s a n = true := by
  unfold racesWrite
  cases h : s.cmd.opk with
  | idle => exact absurd h hk
  | constructPending => exact Bool.or_eq_true_iff.mpr (hload h)
  | transformPending => exact Bool.or_eq_true_iff.mpr (hblock h)

/-- Settles O55: the write, and what the race does after it. -/
theorem racingHostWriteMarksTheCommand : Obligations.RacingHostWriteMarksTheCommand := by
  intro s who a bytes rest hwf hev ha hload hblock hk
  refine ⟨_, step_memWrite_of_race hev ha (racesWrite_of_overlaps hk hload hblock), corrupt_raced hk,
    corrupt_ctx _, corrupt_cmd _, corrupt_status _, corrupt_errInfo _, corrupt_blkcnt _, corrupt_desc _, corrupt_ie _,
    fun b hb hout => ?_⟩
  refine Eq.trans (corrupt_mem_outside _ ?_ b ?_) (readByte_writeBytes_outside bytes s.mem hwf a b hb)
  · exact writeBytes_wf bytes s.mem a hwf
  · exact hout

/-! ### What the host sees after it has observed a completion -/

/-- A STATUS read of an idle engine observes the completion: nothing of the engine's writes is unseen after it
(R78). -/
theorem observeStatus_unseen {s : State} (hidle : s.cmd.opk = .idle) : (observeStatus s).vis.unseen = [] := by
  rw [observeStatus, if_neg (by simp [busy, hidle])]
  split <;> rfl

/-- On a coherent platform the observation leaves no further byte to be maintained (R78). -/
theorem observeStatus_stale {s : State} (hcoh : s.plat.coherent = true) :
    (observeStatus s).vis.stale = s.vis.stale := by
  rw [observeStatus, hcoh]
  split <;> rfl

/-- The state after the host's read of STATUS (R78). -/
def statusObserved (rest : List Event) (s : State) : State :=
  observeStatus { s with events := rest, busWord := readReg s .status }

theorem statusObserved_frame (rest : List Event) (s : State) : statusObserved rest s =
    { s with events := rest, busWord := readReg s .status, vis := (statusObserved rest s).vis } :=
  observeStatus_frame _

@[simp] theorem statusObserved_cmd (rest : List Event) (s : State) : (statusObserved rest s).cmd = s.cmd := by
  rw [statusObserved_frame]
@[simp] theorem statusObserved_mem (rest : List Event) (s : State) : (statusObserved rest s).mem = s.mem := by
  rw [statusObserved_frame]
@[simp] theorem statusObserved_plat (rest : List Event) (s : State) : (statusObserved rest s).plat = s.plat := by
  rw [statusObserved_frame]
@[simp] theorem statusObserved_others (rest : List Event) (s : State) :
    (statusObserved rest s).others = s.others := by
  rw [statusObserved_frame]
@[simp] theorem statusObserved_events (rest : List Event) (s : State) : (statusObserved rest s).events = rest := by
  rw [statusObserved_frame]

section Observed

variable {s : State} {a n : Nat} {rest : List Event}

theorem step_statusRead (hev : s.events = .regRead (s.plat.regBase + 0x04) .w32 :: rest) :
    step s = .next (statusObserved rest s) :=
  step_read hev (by decide) rfl

/-- The host reads memory where the engine is idle, no running command writes in the range and no byte of it is
hidden (R78). -/
theorem step_hostRead_of_visible (hidle : s.cmd.opk = .idle) (hev : s.events = .memRead .host a n :: rest)
    (ha : a + n ≤ memSize s.plat) (ho : ∀ o ∈ s.others, metByRead a n o = false) (hu : s.vis.unseen = [])
    (hs : ∀ b, inRange a n b = true → b ∉ s.vis.stale) :
    ∃ t, step s = .next t ∧ t.busBytes = readBytes s.mem a n :=
  ⟨_, step_hostRead_of_idle hidle hev ha,
    hostReadBytes_of_plain (racesRead_of_idle hidle a n) ho fun b hb => ⟨by simp [hu], hs b hb⟩⟩

/-- On a coherent platform the host reads memory once it has observed the completion, where no byte is stale (R78). -/
theorem run_hostRead_of_coherent (hidle : s.cmd.opk = .idle) (ha : a + n ≤ memSize s.plat)
    (ho : ∀ o ∈ s.others, metByRead a n o = false) (hcoh : s.plat.coherent = true)
    (hs : ∀ b, inRange a n b = true → b ∉ s.vis.stale)
    (hev : s.events = .regRead (s.plat.regBase + 0x04) .w32 :: .memRead .host a n :: rest) :
    ∃ t, Host.Core.run Sys2Proof.core 2 s = .next t ∧ t.busBytes = readBytes s.mem a n := by
  have hstale (rest : List Event) : (statusObserved rest s).vis.stale = s.vis.stale := observeStatus_stale hcoh
  obtain ⟨t, hstep, hbytes⟩ := step_hostRead_of_visible (s := statusObserved (.memRead .host a n :: rest) s)
    (by simpa using hidle) (statusObserved_events _ s) (by simpa using ha) (by simpa using ho)
    (observeStatus_unseen hidle) (by simpa [hstale] using hs)
  exact ⟨t, (run_succ_of_next 1 (step_statusRead hev)).trans (run_succ_of_next 0 hstep), by simpa using hbytes⟩

/-- On any platform the host reads memory once it has observed the completion and then maintained the range (R78). -/
theorem run_hostRead_of_maintained (hidle : s.cmd.opk = .idle) (ha : a + n ≤ memSize s.plat)
    (ho : ∀ o ∈ s.others, metByRead a n o = false)
    (hev : s.events = .regRead (s.plat.regBase + 0x04) .w32 :: .maintain a n :: .memRead .host a n :: rest) :
    ∃ t, Host.Core.run Sys2Proof.core 3 s = .next t ∧ t.busBytes = readBytes s.mem a n := by
  set u := statusObserved (.maintain a n :: .memRead .host a n :: rest) s with hu
  have hmaintain : step u = .next (maintainRange a n { u with events := .memRead .host a n :: rest }) := by
    rw [step, hu, statusObserved_events]
    rfl
  obtain ⟨t, hstep, hbytes⟩ := step_hostRead_of_visible
    (s := maintainRange a n { u with events := .memRead .host a n :: rest }) (by simpa [hu] using hidle) rfl
    (by simpa [hu] using ha) (by simpa [hu] using ho) (observeStatus_unseen hidle)
    fun b hb hmem => by simp [(mem_withoutRange.mp hmem).2] at hb
  exact ⟨t, (run_succ_of_next 2 (step_statusRead hev)).trans
    ((run_succ_of_next 1 hmaintain).trans (run_succ_of_next 0 hstep)), by simpa [hu] using hbytes⟩

end Observed

/-- Settles O57: a DMA write takes its range out of the stale bytes, and the observation leaves nothing unseen. -/
theorem observedCompletionMakesOutputVisible : Obligations.ObservedCompletionMakesOutputVisible := by
  intro s a n rest hidle ha ho
  refine ⟨?_, run_hostRead_of_coherent hidle ha ho, run_hostRead_of_maintained hidle ha ho⟩
  rintro r bytes hwf rfl rfl hcoh hev
  obtain ⟨t, hrun, hbytes⟩ := run_hostRead_of_coherent hidle ha ho hcoh
    (fun b hb hmem => by simp [(mem_withoutRange.mp hmem).2] at hb) hev
  exact ⟨t, hrun, hbytes.trans (readBytes_writeBytes hwf a bytes)⟩

/-! ### Reset -/

/-- After a reset every register reads 0, whatever the state before (R300). -/
theorem readReg_resetEngine (s : State) (r : Reg) : readReg (resetEngine s) r = 0 := by
  have hreset : readReg (resetEngine s) r = readReg State.reset r := by cases r <;> rfl
  exact hreset.trans (registersReadZeroAfterReset.1 r)

/-- Settles O42: the next state is the one that reset leaves. -/
theorem resetEventSetsEveryEngineField : Obligations.ResetEventSetsEveryEngineField := by
  intro s rest hev
  exact ⟨resetEngine { s with events := rest }, by rw [step, hev]; rfl, rfl, rfl, rfl, rfl, rfl, rfl, rfl,
    readReg_resetEngine _ _, readReg_resetEngine _ _, readReg_resetEngine _ _, rfl, rfl, rfl, rfl, rfl, rfl⟩

/-! ### What decides the progress of the engine -/

/-- Two outcomes alike: both a next value, and these stand in the relation, or the same fault or refusal. -/
inductive Alike {α β : Type} (R : α → β → Prop) :
    Host.Outcome α Fault Refusal → Host.Outcome β Fault Refusal → Prop where
  | next {a : α} {b : β} (h : R a b) : Alike R (.next a) (.next b)
  | fault (f : Fault) : Alike R (.fault f) (.fault f)
  | refused (r : Refusal) : Alike R (.refused r) (.refused r)

/-- Sequences of alike operations are alike. -/
theorem Alike.andThen {α β γ δ : Type} {R : α → β → Prop} {Q : γ → δ → Prop}
    {o : Host.Outcome α Fault Refusal} {o' : Host.Outcome β Fault Refusal}
    {k : α → Host.Outcome γ Fault Refusal} {k' : β → Host.Outcome δ Fault Refusal} (h : Alike R o o')
    (hk : ∀ a b, R a b → Alike Q (k a) (k' b)) : Alike Q (andThen o k) (andThen o' k') := by
  cases h with
  | next h => exact hk _ _ h
  | fault f => exact .fault f
  | refused r => exact .refused r

/-- Outcomes stay alike for a weaker relation. -/
theorem Alike.mono {α β : Type} {R Q : α → β → Prop} {o : Host.Outcome α Fault Refusal}
    {o' : Host.Outcome β Fault Refusal} (h : Alike R o o') (hq : ∀ a b, R a b → Q a b) : Alike Q o o' := by
  cases h with
  | next h => exact .next (hq _ _ h)
  | fault f => exact .fault f
  | refused r => exact .refused r

/-- The two states agree on all that decides the engine's progress and its report. Memory, the visibility lists, the
race marks and the other engines' commands are no part of that (R79, R190). -/
structure SameControl (s t : State) : Prop where
  plat : t.plat = s.plat
  ctx : t.ctx = s.ctx
  status : t.status = s.status
  errInfo : t.errInfo = s.errInfo
  blkcnt : t.blkcnt = s.blkcnt
  cmd : t.cmd = s.cmd
  answers : t.dmaAnswers = s.dmaAnswers

/-- Two replies to a read of `n` bytes alike: both a refusal, or `n` bytes each. -/
inductive ReadAlike (n : Nat) : Option (List Byte) × State → Option (List Byte) × State → Prop where
  | refused {u v : State} (h : SameControl u v) : ReadAlike n (none, u) (none, v)
  | admitted {u v : State} {inp inp' : List Byte} (h : SameControl u v) (hlen : inp.length = n)
    (hlen' : inp'.length = n) : ReadAlike n (some inp, u) (some inp', v)

/-- The two states agree on the engine's progress, its report and the shape of its context. -/
structure SameProgress (s t : State) : Prop where
  cmd : s.cmd = t.cmd
  blkcnt : s.blkcnt = t.blkcnt
  status : s.status = t.status
  errInfo : s.errInfo = t.errInfo
  answers : s.dmaAnswers = t.dmaAnswers
  life : s.ctx.life = t.ctx.life
  klen : s.ctx.klen = t.ctx.klen
  le : s.ctx.le = t.ctx.le

@[simp] theorem finishLoad_klen (key ctr : List Byte) (s : State) : (finishLoad key ctr s).ctx.klen = s.cmd.lkl := by
  unfold finishLoad; split <;> rfl
@[simp] theorem finishLoad_le (key ctr : List Byte) (s : State) : (finishLoad key ctr s).ctx.le = s.cmd.lle := by
  unfold finishLoad; split <;> rfl

namespace SameControl

variable {s t : State}

theorem tookAnswer (h : SameControl s t) : SameControl (tookAnswer s) (tookAnswer t) :=
  ⟨h.plat, h.ctx, h.status, h.errInfo, h.blkcnt, h.cmd, congrArg List.tail h.answers⟩

theorem complete (h : SameControl s t) (c : Completion) : SameControl (complete c s) (complete c t) :=
  ⟨h.plat, h.ctx, by simp [h.status], rfl, h.blkcnt, by simp [h.cmd], h.answers⟩

theorem meetOthers (h : SameControl s t) (missed missed' : Bool) (met met' : OtherCommand → Bool) :
    SameControl (meetOthers missed met s) (meetOthers missed' met' t) := by
  constructor <;> simp [h.plat, h.ctx, h.status, h.errInfo, h.blkcnt, h.cmd, h.answers]

theorem dmaStore (h : SameControl s t) (a : Nat) (out out' : List Byte) :
    SameControl (dmaStore s a out) (dmaStore t a out') :=
  ⟨h.plat, h.ctx, h.status, h.errInfo, h.blkcnt, h.cmd, h.answers⟩

theorem finishBlock (h : SameControl s t) (ctr : Block) (m : Nat) :
    SameControl (finishBlock ctr m s) (finishBlock ctr m t) := by
  have hcommit : SameControl (commitBlock ctr m s) (commitBlock ctr m t) :=
    ⟨h.plat, by simp [h.ctx], h.status, h.errInfo, by simp [h.blkcnt], by simp [h.cmd], h.answers⟩
  unfold Machine.finishBlock
  rw [h.cmd]
  split
  · exact hcommit.complete .ok
  · exact hcommit

theorem dmaAsk (h : SameControl s t) (a n : Nat) :
    Alike (fun r r' => r'.1 = r.1 ∧ SameControl r.2 r'.2) (dmaAsk s a n) (dmaAsk t a n) := by
  have hadmits : dmaAdmits t = dmaAdmits s := congrArg (List.headD · true) h.answers
  rw [dmaAsk_eq, dmaAsk_eq, h.plat, hadmits]
  split
  · exact .fault _
  · split
    · exact .next ⟨rfl, h.tookAnswer⟩
    · split
      · exact .refused _
      · exact .next ⟨rfl, h.tookAnswer⟩

/-- Reads of one range end alike (R70). -/
theorem dmaRead (h : SameControl s t) (a n : Nat) : Alike (ReadAlike n) (dmaRead s a n) (dmaRead t a n) := by
  refine (h.dmaAsk a n).andThen fun r r' ⟨hr, hs⟩ => ?_
  rw [hr]
  split
  · exact .next (.refused hs)
  · exact .next (.admitted (hs.meetOthers _ _ _ _) (readBytes_length _ _ _) (readBytes_length _ _ _))

/-- Writes of as many bytes at one address end alike (R70). -/
theorem dmaWrite (h : SameControl s t) (a : Nat) {out out' : List Byte} (hlen : out'.length = out.length) :
    Alike (fun r r' => r'.1 = r.1 ∧ SameControl r.2 r'.2) (dmaWrite s a out) (dmaWrite t a out') := by
  unfold Machine.dmaWrite
  rw [hlen]
  refine (h.dmaAsk a out.length).andThen fun r r' ⟨hr, hs⟩ => ?_
  rw [hr]
  split
  · exact .next ⟨rfl, hs⟩
  · exact .next ⟨rfl, (hs.dmaStore a out out').meetOthers _ _ _ _⟩

theorem blockOutput (h : SameControl s t) (inp inp' : List Byte) (ks : Block) :
    SameControl (blockOutput inp ks s).2 (blockOutput inp' ks t).2 := by
  rw [blockOutput_state inp, blockOutput_state inp']
  exact ⟨h.plat, h.ctx, h.status, h.errInfo, h.blkcnt, h.cmd, h.answers⟩

/-- The write half of the block step ends alike for inputs of one length (R181). -/
theorem blockWrite (h : SameControl s t) {n : Nat} {inp inp' : List Byte} (hlen : inp.length = n)
    (hlen' : inp'.length = n) (hn : n ≤ 16) : Alike SameControl (blockWrite inp s) (blockWrite inp' t) := by
  have hout := h.blockOutput inp inp' (nextBlock s.ctx).1
  have houtLen : (Machine.blockOutput inp' (nextBlock s.ctx).1 t).1.length =
      (Machine.blockOutput inp (nextBlock s.ctx).1 s).1.length := by
    rw [blockOutput_length _ _ _ (by omega), blockOutput_length _ _ _ (by omega), hlen, hlen']
  unfold Machine.blockWrite
  dsimp only
  rw [h.ctx, hout.cmd, hlen, hlen']
  refine (hout.dmaWrite _ houtLen).andThen fun w w' ⟨hw, hs⟩ => ?_
  rw [hw]
  split
  · exact .next (hs.complete .busWrite)
  · exact .next (hs.finishBlock _ _)

/-- The block step ends alike, with the same context (R79, R190). -/
theorem transformBlock (h : SameControl s t) : Alike SameControl (transformBlock s) (transformBlock t) := by
  unfold Machine.transformBlock
  rw [h.ctx, h.cmd]
  split
  · exact .fault _
  · split
    · exact .fault _
    · refine (h.dmaRead _ _).andThen fun r r' hr => ?_
      cases hr with
      | refused hs => exact .next (hs.complete .busRead)
      | admitted hs hlen hlen' => exact hs.blockWrite hlen hlen' (blockSize_le _)

theorem progress (h : SameControl s t) : SameProgress s t :=
  ⟨h.cmd.symm, h.blkcnt.symm, h.status.symm, h.errInfo.symm, h.answers.symm, by rw [h.ctx], by rw [h.ctx],
    by rw [h.ctx]⟩

/-- Whatever bytes are loaded, the length of the key and the byte order are the latched ones (R121). -/
theorem finishLoad (h : SameControl s t) (key key' ctr ctr' : List Byte) :
    SameProgress (finishLoad key ctr s) (finishLoad key' ctr' t) where
  cmd := by rw [finishLoad_report key, finishLoad_report key']; simp [h.cmd]
  blkcnt := by rw [finishLoad_report key, finishLoad_report key']; simp [h.blkcnt]
  status := by rw [finishLoad_report key, finishLoad_report key']; simp [h.status]
  errInfo := by rw [finishLoad_report key, finishLoad_report key']; simp
  answers := by rw [finishLoad_report key, finishLoad_report key']; simp [h.answers]
  life := by simp
  klen := by simp [h.cmd]
  le := by simp [h.cmd]

/-- The load step ends alike (R79, R190). -/
theorem constructLoad (h : SameControl s t) : Alike SameProgress (constructLoad s) (constructLoad t) := by
  unfold Machine.constructLoad
  rw [h.cmd]
  refine (h.dmaRead _ _).andThen fun k k' hk => ?_
  cases hk with
  | refused hs => exact .next (hs.complete .busRead).progress
  | admitted hs _ _ =>
    dsimp only
    rw [hs.cmd]
    refine (hs.dmaRead _ _).andThen fun c c' hc => ?_
    cases hc with
    | refused hs => exact .next (hs.complete .busRead).progress
    | admitted hs _ _ => exact .next (hs.finishLoad _ _ _ _)

/-- The engine's turn ends alike, and a block step with the same context (R79, R190). -/
theorem engineStep (h : SameControl s t) :
    Alike (fun u v => SameProgress u v ∧ (s.cmd.opk = .transformPending → u.ctx = v.ctx)) (engineStep s)
      (engineStep t) := by
  unfold Machine.engineStep
  rw [h.cmd]
  cases hk : s.cmd.opk with
  | idle => exact .next ⟨h.progress, nofun⟩
  | constructPending => exact h.constructLoad.mono fun _ _ hp => ⟨hp, nofun⟩
  | transformPending => exact h.transformBlock.mono fun _ _ hs => ⟨hs.progress, fun _ => hs.ctx.symm⟩

end SameControl

/-- Settles O53: memory, the race mark and the free bytes are no part of `SameControl`. -/
theorem controlFlowIsIndependentOfData : Obligations.ControlFlowIsIndependentOfData := by
  intro s m f r
  have h : SameControl s { s with mem := m, fresh := f, raced := r } := ⟨rfl, rfl, rfl, rfl, rfl, rfl, rfl⟩
  have hturn := h.engineStep
  generalize engineStep s = o, engineStep { s with mem := m, fresh := f, raced := r } = o' at hturn ⊢
  cases hturn with
  | next hp =>
    obtain ⟨⟨cmd, blkcnt, status, errInfo, answers, life, klen, le⟩, hctx⟩ := hp
    exact ⟨cmd, blkcnt, status, errInfo, answers, life, klen, le, hctx⟩
  | fault => rfl
  | refused => rfl

end Sys2Proof.Machine

namespace Sys2Proof

/-! ### Which instruction a word decodes to -/

theorem decode_of_opField_one {w : Word} (h : opField w = 1) : decode w = decodeC w := by
  rw [decode, if_pos h]

theorem decode_of_opField_two {w : Word} (h : opField w = 2) : decode w = decodeT w := by
  rw [decode, if_neg (by rw [h]; decide), if_pos h]

theorem decode_of_opField_three {w : Word} (h : opField w = 3) : decode w = .release (w.extractLsb' 4 28) := by
  rw [decode, if_neg (by rw [h]; decide), if_neg (by rw [h]; decide), if_pos h]

theorem decode_of_reservedOpcode {w : Word} (h : reservedOpcode (opField w) = true) :
    decode w = .reservedOp (opField w) (w.extractLsb' 4 28) := by
  obtain ⟨one, two, three⟩ := Laws.RoundTrip.reservedOpcode_ne _ h
  rw [decode, if_neg one, if_neg two, if_neg three]

/-- Every OP names a command or is reserved (R98, R99). -/
theorem opcode_cases : ∀ op : BitVec 4, op = 1 ∨ op = 2 ∨ op = 3 ∨ reservedOpcode op = true := by decide

theorem reservedOpcode_iff {op : BitVec 4} : reservedOpcode op = true ↔ op = 0 ∨ 4 ≤ op.toNat := by
  simp [reservedOpcode]

theorem decode_encodable (w : Word) : (decode w).encodable = true := by
  rcases opcode_cases (opField w) with h | h | h | h
  · rw [decode_of_opField_one h]; rfl
  · rw [decode_of_opField_two h]; rfl
  · rw [decode_of_opField_three h]; rfl
  · rw [decode_of_reservedOpcode h]; exact h

/-! ### The word put together again from its fields -/

/-- A field and the bit below it are one field. -/
theorem extractLsb'_append_ofBool_getLsbD {n : Nat} (w : BitVec n) (i len : Nat) :
    w.extractLsb' (i + 1) len ++ BitVec.ofBool (w.getLsbD i) = w.extractLsb' i (len + 1) := by
  have bit : BitVec.ofBool (w.getLsbD i) = w.extractLsb' i 1 := by
    rw [BitVec.getLsbD_eq_extractLsb']
    generalize w.extractLsb' i 1 = b
    revert b
    decide
  rw [bit, BitVec.extractLsb'_append_extractLsb'_eq_extractLsb' rfl]

/-- A word is the bits above OP and OP (R90). -/
theorem extractLsb'_append_opField (w : Word) : w.extractLsb' 4 28 ++ opField w = w := by
  rw [opField, BitVec.extractLsb'_append_extractLsb'_eq_extractLsb' (show 4 = 0 + 4 from rfl),
    BitVec.extractLsb'_eq_self]

theorem encode_decodeC {w : Word} (h : opField w = 1) : encode (decodeC w) = w := by
  rw [decodeC, encode, extractLsb'_append_ofBool_getLsbD, extractLsb'_append_ofBool_getLsbD,
    extractLsb'_append_ofBool_getLsbD, ← h]
  exact extractLsb'_append_opField w

theorem encode_decodeT {w : Word} (h : opField w = 2) : encode (decodeT w) = w := by
  rw [decodeT, encode, extractLsb'_append_ofBool_getLsbD, extractLsb'_append_ofBool_getLsbD,
    extractLsb'_append_ofBool_getLsbD, extractLsb'_append_ofBool_getLsbD, ← h]
  exact extractLsb'_append_opField w

/-- Every word is the word of the instruction it decodes to, by its OP (R90 to R93, R98, R99). -/
theorem encode_decode (w : Word) : encode (decode w) = w := by
  rcases opcode_cases (opField w) with h | h | h | h
  · rw [decode_of_opField_one h, encode_decodeC h]
  · rw [decode_of_opField_two h, encode_decodeT h]
  · rw [decode_of_opField_three h, encode, ← h, extractLsb'_append_opField]
  · rw [decode_of_reservedOpcode h, encode, extractLsb'_append_opField]

/-- Every encodable instruction is read back from its word (R91 to R93, R98, R99). -/
theorem decode_encode : ∀ i : Instr, Laws.RoundTrip.Statement i
  | .construct le kp cp rsv => Laws.RoundTrip.construct le kp cp rsv
  | .transform sp dp np vec rsv => Laws.RoundTrip.transform sp dp np vec rsv
  | .release rsv => Laws.RoundTrip.release rsv
  | .reservedOp op rest => Laws.RoundTrip.reservedOp op rest

/-- Settles O2: the round trip of each constructor, and the fields of a word put together by its OP. -/
theorem decodeAndEncodeAreInverse : Obligations.DecodeAndEncodeAreInverse :=
  ⟨decode_encode, fun w => ⟨decode_encodable w, encode_decode w⟩⟩

/-- Settles O1: sixteen words, each decoded. -/
theorem spelledWordsDecodeAsTheSpecSays : Obligations.SpelledWordsDecodeAsTheSpecSays := by
  unfold Obligations.SpelledWordsDecodeAsTheSpecSays
  decide

/-! ### The match and mask columns -/

/-- A mask of ones over the high and the low field, compared with a match that is 0 above the low field, asks for
both fields and for nothing of the bits between (R98). -/
theorem and_mask_eq_match_iff {h m l : Nat} (hi : BitVec h) (mid : BitVec m) (lo op : BitVec l) :
    (hi ++ mid ++ lo) &&& (BitVec.allOnes h ++ 0#m ++ BitVec.allOnes l) = 0#h ++ 0#m ++ op ↔ lo = op ∧ hi = 0#h := by
  rw [BitVec.and_append, BitVec.and_append, BitVec.and_allOnes, BitVec.and_allOnes, BitVec.and_zero]
  refine ⟨fun e => ?_, fun ⟨hlo, hhi⟩ => by rw [hlo, hhi]⟩
  have hlo := congrArg (BitVec.extractLsb' 0 l) e
  have hhi := congrArg (fun w => BitVec.extractLsb' m h (BitVec.extractLsb' l (h + m) w)) e
  simp only [BitVec.extractLsb'_append_eq_left, BitVec.extractLsb'_append_eq_right] at hlo hhi
  exact ⟨hlo, hhi⟩

theorem matches_construct_iff_fields (w : Word) :
    w &&& 0xFFFFFF8F = 0x00000001 ↔ opField w = 1 ∧ w.extractLsb' 7 25 = 0 := by
  have fields : w.extractLsb' 7 25 ++ w.extractLsb' 4 3 ++ opField w = w := by
    rw [BitVec.extractLsb'_append_extractLsb'_eq_extractLsb' (show 7 = 4 + 3 from rfl), extractLsb'_append_opField]
  have columns := and_mask_eq_match_iff (w.extractLsb' 7 25) (w.extractLsb' 4 3) (opField w) 1
  rwa [fields] at columns

theorem matches_transform_iff_fields (w : Word) :
    w &&& 0xFFFFFF0F = 0x00000002 ↔ opField w = 2 ∧ w.extractLsb' 8 24 = 0 := by
  have fields : w.extractLsb' 8 24 ++ w.extractLsb' 4 4 ++ opField w = w := by
    rw [BitVec.extractLsb'_append_extractLsb'_eq_extractLsb' (show 8 = 4 + 4 from rfl), extractLsb'_append_opField]
  have columns := and_mask_eq_match_iff (w.extractLsb' 8 24) (w.extractLsb' 4 4) (opField w) 2
  rwa [fields] at columns

/-- The row of CONSTRUCT (R91, R98): a word that decodes to it is the word of that instruction. -/
theorem matches_construct_iff (w : Word) :
    w &&& 0xFFFFFF8F = 0x00000001 ↔ ∃ le kp cp, decode w = .construct le kp cp 0 := by
  constructor
  · intro h
    obtain ⟨hop, hrsv⟩ := (matches_construct_iff_fields w).mp h
    exact ⟨_, _, _, by rw [decode_of_opField_one hop, decodeC, hrsv]⟩
  · rintro ⟨le, kp, cp, h⟩
    rw [← encode_decode w, h]
    clear h
    revert le kp cp
    decide

/-- The row of TRANSFORM (R92, R98). -/
theorem matches_transform_iff (w : Word) :
    w &&& 0xFFFFFF0F = 0x00000002 ↔ ∃ sp dp np vec, decode w = .transform sp dp np vec 0 := by
  constructor
  · intro h
    obtain ⟨hop, hrsv⟩ := (matches_transform_iff_fields w).mp h
    exact ⟨_, _, _, _, by rw [decode_of_opField_two hop, decodeT, hrsv]⟩
  · rintro ⟨sp, dp, np, vec, h⟩
    rw [← encode_decode w, h]
    clear h
    revert sp dp np vec
    decide

/-- The row of RELEASE (R93, R98): its mask keeps every bit. -/
theorem matches_release_iff (w : Word) : w &&& 0xFFFFFFFF = 0x00000003 ↔ decode w = .release 0 := by
  rw [show (0xFFFFFFFF : Word) = BitVec.allOnes 32 from rfl, BitVec.and_allOnes]
  constructor
  · rintro rfl
    decide
  · intro h
    rw [← encode_decode w, h]
    decide

/-- A word that spells a row of the map matches CONSTRUCT's, TRANSFORM's or RELEASE's, or has a reserved OP (R98). -/
theorem wellFormed_decode {w : Word} (h : (decode w).wellFormed = true) :
    w &&& 0xFFFFFF8F = 0x00000001 ∨ w &&& 0xFFFFFF0F = 0x00000002 ∨ w &&& 0xFFFFFFFF = 0x00000003 ∨
      ∃ op rest, decode w = .reservedOp op rest := by
  rw [matches_construct_iff, matches_transform_iff, matches_release_iff]
  cases hd : decode w with
  | construct le kp cp rsv =>
    obtain rfl : rsv = 0 := by simpa [hd, Instr.wellFormed] using h
    exact .inl ⟨le, kp, cp, rfl⟩
  | transform sp dp np vec rsv =>
    obtain rfl : rsv = 0 := by simpa [hd, Instr.wellFormed] using h
    exact .inr (.inl ⟨sp, dp, np, vec, rfl⟩)
  | release rsv =>
    obtain rfl : rsv = 0 := by simpa [hd, Instr.wellFormed] using h
    exact .inr (.inr (.inl rfl))
  | reservedOp op rest => exact .inr (.inr (.inr ⟨op, rest, rfl⟩))

end Sys2Proof

namespace Sys2Proof.Machine

/-! ### Words that an engine drops or completes at once -/

/-- Settles O5: each command word is submitted, and a busy engine drops what is submitted. -/
theorem busyEngineDropsEveryWord : Obligations.BusyEngineDropsEveryWord
  | .construct .., _, h => congrArg Host.Outcome.next (submit_busy h _)
  | .transform .., _, h => congrArg Host.Outcome.next (submit_busy h _)
  | .release .., _, h => congrArg Host.Outcome.next (submit_busy h _)
  | .reservedOp .., _, h => congrArg Host.Outcome.next (submit_busy h _)

/-- A command that an idle engine completes at acceptance changes the report alone (R103, R261, R269). -/
theorem complete_beginCommand {s : State} (idle : s.cmd.opk = .idle) (c : Completion) :
    complete c (beginCommand s) = reportedAtOnce s c.code.cls c.code.sub := by
  simp [complete, beginCommand, reportedAtOnce, ← idle]

/-- A reserved OP completes at once with RESERVED_OPCODE (R99). -/
theorem exec_reservedOp {s : State} (idle : s.cmd.opk = .idle) (op : BitVec 4) (rest : BitVec 28) :
    exec (.reservedOp op rest) s = .next (reportedAtOnce s 5 1) := by
  rw [exec, execReservedOp, submit_idle idle, complete_beginCommand idle]
  rfl

/-- A nonzero reserved bit completes at once with RESERVED_BITS, before the command's own checks (R100). -/
theorem exec_reservedBits {s : State} (idle : s.cmd.opk = .idle) {i : Instr} (henc : i.encodable = true)
    (hrsv : i.wellFormed = false) : exec i s = .next (reportedAtOnce s 5 2) := by
  have report : complete .reservedBits (beginCommand s) = reportedAtOnce s 5 2 := complete_beginCommand idle _
  cases i with
  | construct le kp cp rsv =>
    rw [exec, execConstruct, submit_idle idle, if_pos (by simpa [Instr.wellFormed] using hrsv), report]
  | transform sp dp np vec rsv =>
    rw [exec, execTransform, submit_idle idle, if_pos (by simpa [Instr.wellFormed] using hrsv), report]
  | release rsv =>
    rw [exec, execRelease, submit_idle idle, if_pos (by simpa [Instr.wellFormed] using hrsv), report]
  | reservedOp op rest => exact absurd (henc.symm.trans hrsv) (by decide)

/-- Settles O6: the word is that of the reserved instruction, which is read back from it. -/
theorem reservedOpcodeCompletesAtOnce : Obligations.ReservedOpcodeCompletesAtOnce := by
  intro op rest s hop idle
  have hdec : decode (rest ++ op) = .reservedOp op rest :=
    decode_encode (.reservedOp op rest) (reservedOpcode_iff.mpr hop)
  rw [hdec]
  exact ⟨exec_reservedOp idle op rest, exec_reservedOp idle op rest⟩

/-- Settles O7: by OP, the decoded instruction with its reserved bits. -/
theorem reservedBitsCompleteAtOnce : Obligations.ReservedBitsCompleteAtOnce := by
  intro w s idle
  refine ⟨fun hop hrsv => ?_, fun hop hrsv => ?_, fun hop hrsv => ?_, fun hop => ?_⟩
  · rw [decode_of_opField_one hop]
    exact exec_reservedBits idle rfl (beq_eq_false_iff_ne.mpr hrsv)
  · rw [decode_of_opField_two hop]
    exact exec_reservedBits idle rfl (beq_eq_false_iff_ne.mpr hrsv)
  · rw [decode_of_opField_three hop]
    exact exec_reservedBits idle rfl (beq_eq_false_iff_ne.mpr hrsv)
  · rw [decode_of_reservedOpcode (reservedOpcode_iff.mpr hop)]
    exact exec_reservedOp idle _ _

/-- Settles O3: each row by the fields of the word, the rows apart because `decode` is a function, and the other
words by their reserved bits or their reserved OP. -/
theorem opcodeMapRowsMatchAndAreDisjoint : Obligations.OpcodeMapRowsMatchAndAreDisjoint := by
  intro w
  refine ⟨matches_construct_iff w, matches_transform_iff w, matches_release_iff w, ?_, ?_, ?_, ?_⟩
  · rw [matches_construct_iff, matches_transform_iff]
    rintro ⟨⟨_, _, _, hc⟩, _, _, _, _, ht⟩
    cases hc.symm.trans ht
  · rw [matches_construct_iff, matches_release_iff]
    rintro ⟨⟨_, _, _, hc⟩, hr⟩
    cases hc.symm.trans hr
  · rw [matches_transform_iff, matches_release_iff]
    rintro ⟨⟨_, _, _, _, ht⟩, hr⟩
    cases ht.symm.trans hr
  · intro hc ht hr s idle
    cases hwf : (decode w).wellFormed with
    | false => exact ⟨_, exec_reservedBits idle (decode_encodable w) hwf, rfl⟩
    | true =>
      rcases wellFormed_decode hwf with h | h | h | ⟨op, rest, h⟩
      · exact absurd h hc
      · exact absurd h ht
      · exact absurd h hr
      · rw [h]
        exact ⟨_, exec_reservedOp idle op rest, rfl⟩

/-! ### RELEASE -/

/-- RELEASE changes at most the context, and that of an ACTIVE one only (R240, R241). -/
theorem zeroizeContext_eq (s : State) :
    zeroizeContext s = { s with ctx := if s.ctx.life = .active then Context.zeroed .disposed else s.ctx } := by
  unfold zeroizeContext
  split <;> rfl

/-- The report does not look at the context, nor RELEASE at the report. -/
theorem complete_zeroizeContext (c : Completion) (s : State) :
    complete c (zeroizeContext s) = zeroizeContext (complete c s) := by
  rw [zeroizeContext_eq, zeroizeContext_eq]
  rfl

/-- RELEASE of an idle engine reports success and zeroes an ACTIVE context (R240, R243). -/
theorem exec_release {s : State} (idle : s.cmd.opk = .idle) :
    exec (.release 0) s = .next (zeroizeContext (reportedAtOnce s 0 0)) := by
  rw [exec, execRelease, submit_idle idle, if_neg (not_not.mpr rfl), complete_zeroizeContext,
    complete_beginCommand idle]
  rfl

/-- Settles O24: the success that RELEASE reports, with the context zeroed where it is ACTIVE. -/
theorem releaseZeroizesAndSucceeds : Obligations.ReleaseZeroizesAndSucceeds := by
  refine ⟨by decide, fun s idle => ?_⟩
  rw [exec_release idle, zeroizeContext_eq]
  rfl

end Sys2Proof.Machine

namespace Sys2Proof.Machine

/-! ### CONSTRUCT: its acceptance -/

theorem keyLengthOk_iff {n : Nat} : keyLengthOk n = true ↔ n = 16 ∨ n = 24 ∨ n = 32 := by
  simp [keyLengthOk, or_assoc]

theorem keyLengthOk_eq_false_iff {n : Nat} : keyLengthOk n = false ↔ ¬(n = 16 ∨ n = 24 ∨ n = 32) := by
  rw [← keyLengthOk_iff, Bool.not_eq_true]

/-- The checks of R120 look at nothing that acceptance clears (R103). -/
theorem constructError_beginCommand (kp cp : Bool) (s : State) :
    constructError kp cp (beginCommand s) = constructError kp cp s := rfl

/-- CONSTRUCT on an idle engine reports the first check of R120 that fails, and else is latched (R103, R120). -/
theorem exec_construct {s : State} (idle : s.cmd.opk = .idle) (le kp cp : Bool) :
    exec (.construct le kp cp 0) s = .next
      ((constructError kp cp s).elim (latchConstruct le (beginCommand s)) fun e =>
        reportedAtOnce s e.code.cls e.code.sub) := by
  rw [exec, execConstruct, submit_idle idle, if_neg (not_not.mpr rfl), constructAccept,
    constructError_beginCommand]
  cases constructError kp cp s with
  | none => rfl
  | some e => exact congrArg Host.Outcome.next (complete_beginCommand idle e)

/-- Settles O9: the fields of the word, then one case for each check of R120 and one for the pass. -/
theorem constructAcceptanceChecksInOrder : Obligations.ConstructAcceptanceChecksInOrder := by
  intro w s hw idle
  obtain ⟨hop, hrsv⟩ := (matches_construct_iff_fields w).mp hw
  have hdec : decode w = .construct (w.getLsbD 4) (w.getLsbD 5) (w.getLsbD 6) 0 := by
    rw [decode_of_opField_one hop, decodeC, hrsv]
  refine ⟨hdec, ?_⟩
  rw [hdec, exec_construct idle, constructError, show 2 ^ s.plat.addrW = memSize s.plat from rfl]
  simp only [keyLengthOk_eq_false_iff]
  split_ifs <;> rfl

/-- A CONSTRUCT accepted on an undisturbed engine is undisturbed. -/
theorem Undisturbed.latchConstruct {s : State} (h : Undisturbed s) (le : Bool) :
    Undisturbed (latchConstruct le (beginCommand s)) :=
  ⟨h.noEvents, h.admitted, h.noDevices, rfl, h.seen, h.alone⟩

/-- An undisturbed load step loads the bytes of both ranges and completes (R121). -/
theorem Undisturbed.loadStep {s : State} (h : Undisturbed s) (hk : s.cmd.opk = .constructPending)
    (hkr : s.cmd.lka.toNat + s.cmd.lkl ≤ memSize s.plat) (hcr : s.cmd.lca.toNat + 16 ≤ memSize s.plat) :
    Machine.engineStep s = .next (Machine.complete .ok (loadContext (readBytes s.mem s.cmd.lka.toNat s.cmd.lkl)
      (readBytes s.mem s.cmd.lca.toNat 16) (Machine.tookAnswer (Machine.tookAnswer s)))) := by
  have hload := constructLoad_of_apart h.noDevices h.seen (by simp [h.alone]) (by simp [h.alone]) hkr hcr
  rw [if_neg (ne_false_of_eq_true h.dmaAdmits), if_neg (ne_false_of_eq_true h.tookAnswer.dmaAdmits),
    finishLoad_of_unraced _ _ h.tookAnswer.tookAnswer.notRaced] at hload
  rw [Machine.engineStep, hk]
  exact hload

/-- Settles O10: the acceptance whose checks all pass, then the load step with both reads admitted. -/
theorem constructMakesAnActiveContext : Obligations.ConstructMakesAnActiveContext := by
  intro le s hs idle hlife hkl hcl hkr hcr
  have hpass : constructError true true s = none :=
    constructError_none.mpr ⟨hlife, rfl, keyLengthOk_iff.mpr hkl, rfl, hcl, hkr, hcr⟩
  have hexec := exec_construct idle le true true
  rw [hpass] at hexec
  have ht := hs.latchConstruct le
  refine ⟨_, _, hexec, rfl, (step_of_no_events ht.noEvents).trans (ht.loadStep rfl hkr hcr), ?_,
    rfl, rfl, rfl, rfl, rfl, rfl, rfl⟩
  rw [← keyStoreOf_readBytes, ← blockOf_readBytes]
  rfl

/-! ### CONSTRUCT: what a failure leaves -/

/-- A data race stores no byte unless a TRANSFORM is pending (R79). -/
theorem corrupt_mem_of_not_transform {s : State} (h : s.cmd.opk ≠ .transformPending) : (corrupt s).mem = s.mem := by
  rcases corrupt_cases s with ⟨-, e⟩ | ⟨-, e⟩ | ⟨hk, -⟩
  · rw [e]
  · rw [e]
  · exact absurd hk h

/-- A DMA read stores no byte unless it races with a pending TRANSFORM (R79). -/
theorem afterRead_mem_of_not_transform {s : State} (h : s.cmd.opk ≠ .transformPending) (a n : Nat) :
    (afterRead s a n).mem = s.mem := by
  rcases afterRead_cases s a n with e | e
  · rw [e, tookAnswer_mem]
  · rw [e, corrupt_mem_of_not_transform (s := markOthers _ (tookAnswer s)) h, markOthers_mem, tookAnswer_mem]

theorem finishLoad_err (key ctr : List Byte) (s : State) : (finishLoad key ctr s).status.err = false := by
  rw [finishLoad_report]
  rfl

/-- A load step that ends in an error has had one of its reads refused, and changes neither the context, memory
nor BLKCNT (R121, R122). -/
theorem constructLoad_of_err {s t : State} (hk : s.cmd.opk = .constructPending) (h : constructLoad s = .next t)
    (herr : t.status.err = true) : t.ctx = s.ctx ∧ t.mem = s.mem ∧ t.blkcnt = s.blkcnt := by
  rcases constructLoad_next h with rfl | rfl | rfl
  · exact ⟨rfl, rfl, rfl⟩
  · exact ⟨afterRead_ctx _ _ _, afterRead_mem_of_not_transform (by rw [hk]; decide) _ _, afterRead_blkcnt _ _ _⟩
  · exact absurd herr (by simp [finishLoad_err])

/-- A CONSTRUCT that an idle engine ends in an error at acceptance has changed nothing but the report (R122). -/
theorem exec_construct_of_err {le kp cp : Bool} {rsv : BitVec 25} {s t : State} (idle : s.cmd.opk = .idle)
    (h : exec (.construct le kp cp rsv) s = .next t) (herr : t.status.err = true) :
    ∃ c : Completion, t = reportedAtOnce s c.code.cls c.code.sub := by
  rcases exec_next h with ⟨busy, -⟩ | ⟨-, ⟨c, rfl⟩ | ⟨_, _, _, -, -, rfl⟩ | ⟨_, _, _, _, hi, -⟩ | ⟨hi, -⟩⟩
  · exact absurd idle busy
  · exact ⟨c, complete_beginCommand idle c⟩
  · simp at herr
  · cases hi
  · cases hi

/-- Settles O12: at acceptance an error is a report alone, and at the load step a refused read. -/
theorem failedConstructKeepsTheContext : Obligations.FailedConstructKeepsTheContext := by
  refine ⟨fun le kp cp rsv s t idle h herr => ?_, fun s t hinv hk h herr => ?_⟩
  · obtain ⟨c, rfl⟩ := exec_construct_of_err idle h herr
    exact ⟨rfl, rfl, rfl, rfl, rfl, rfl⟩
  · obtain ⟨-, desc, ie⟩ := engineStep_settingsKept h
    rw [engineStep, hk] at h
    obtain ⟨ctx, mem, blkcnt⟩ := constructLoad_of_err hk h herr
    exact ⟨ctx, mem, desc, ie, blkcnt.trans (hinv.load hk).noBlocks⟩

end Sys2Proof.Machine

namespace Sys2Proof.Machine

/-! ### The counter after any number of advances -/

/-- `ctr_bytes` undoes `ctr_int` (R140). -/
theorem ctrBytes_ctrInt (v : Block) (le : Bool) : ctrBytes (ctrInt v le) le = v := by
  have hmod := Nat.mod_eq_of_lt (ctrInt_lt v le)
  have hbytes := eq_ctrBytes_of_ctrInt hmod.symm
  rw [hmod] at hbytes
  exact hbytes.symm

theorem ctrInt_advance_iterate (v : Block) (le : Bool) (k : Nat) :
    ctrInt ((fun b => advance b le)^[k] v) le = (ctrInt v le + k) % 2 ^ 128 := by
  induction k with
  | zero => rw [Function.iterate_zero_apply, Nat.add_zero, Nat.mod_eq_of_lt (ctrInt_lt v le)]
  | succ k ih => rw [Function.iterate_succ_apply', ctrInt_advance, ih, Nat.mod_add_mod, Nat.add_assoc]

/-- Advances return to the counter they start from exactly when their number is a multiple of `2^128` (R145). -/
theorem advance_iterate_eq_self_iff (v : Block) (le : Bool) (k : Nat) :
    (fun b => advance b le)^[k] v = v ↔ 2 ^ 128 ∣ k := by
  have hlt := ctrInt_lt v le
  have hk := ctrInt_advance_iterate v le k
  constructor
  · intro h
    rw [h] at hk
    omega
  · intro h
    refine ctrInt_inj (le := le) ?_
    omega

/-- Settles O27: the counter's number rises by one modulo `2^128`, by induction on the number of advances. -/
theorem advanceReturnsAfterAllValues : Obligations.AdvanceReturnsAfterAllValues := by
  refine fun v le => ⟨fun k => eq_ctrBytes_of_ctrInt (ctrInt_advance_iterate v le k),
    (advance_iterate_eq_self_iff v le _).mpr (dvd_refl _), fun k hpos hlt h => ?_⟩
  exact Nat.not_dvd_of_pos_of_lt hpos hlt ((advance_iterate_eq_self_iff v le k).mp h)

/-- Settles O26: a counter is known by its number, and the carry loop adds one to it. -/
theorem advanceIncrementsModulo : Obligations.AdvanceIncrementsModulo :=
  fun v le => eq_ctrBytes_of_ctrInt (ctrInt_advance v le)

/-- Settles O28: a counter is the digits of its number, and a number below `2^128` fits in 16 of them. -/
theorem counterNumberAndBytesAreInverse : Obligations.CounterNumberAndBytesAreInverse :=
  fun le => ⟨fun v => ⟨ctrInt_lt v le, ctrBytes_ctrInt v le⟩,
    fun n hn => (ctrInt_ctrBytes n le).trans (Nat.mod_eq_of_lt hn)⟩

/-! ### Which bytes an advance changes -/

theorem advance_false (v : Block) : advance v false = advanceBE v := rfl
theorem advance_true (v : Block) : advance v true = advanceLE v := rfl

/-- The carry goes on past a byte exactly when that byte is `ff` (R141, R142). -/
theorem advanceAlong_cons (i : Fin 16) (is : List (Fin 16)) (v : Block) :
    advanceAlong (i :: is) v = if v[i] = 0xFF then advanceAlong is (v.set i 0) else v.set i (v[i] + 1) := by
  have hwrap : v[i] + 1 = 0 ↔ v[i] = 0xFF := by bv_omega
  by_cases h : v[i] = 0xFF
  · rw [advanceAlong, set_same, if_neg (not_not.mpr (hwrap.mpr h)), if_pos h, hwrap.mpr h]
  · rw [advanceAlong, set_same, if_pos (mt hwrap.mp h), if_neg h]

/-- The carry loop adds one to a byte if every byte before it in the loop's order is `ff`, and keeps it otherwise. -/
theorem advanceAlong_getElem (is js : List (Fin 16)) (j : Fin 16) (v : Block) (h : (is ++ j :: js).Nodup) :
    (advanceAlong (is ++ j :: js) v)[j] = if ∀ i ∈ is, v[i] = 0xFF then v[j] + 1 else v[j] := by
  induction is generalizing v with
  | nil =>
    rw [if_pos (by simp), List.nil_append, advanceAlong_cons]
    split
    · next hff => rw [(advanceAlong_value js _ h.of_cons).2 j (List.nodup_cons.mp h).1, set_same, hff]; rfl
    · exact set_same _ _ _
  | cons i is ih =>
    obtain ⟨hi, hrest⟩ := List.nodup_cons.mp h
    have kept : ∀ b, ∀ m ∈ is ++ j :: js, (v.set i b)[m] = v[m] :=
      fun b m hm => set_other v i m b fun e => hi (e ▸ hm)
    have hj : j ∈ is ++ j :: js := by simp
    rw [List.cons_append, advanceAlong_cons]
    by_cases hff : v[i] = 0xFF
    · have hcond : (∀ m ∈ is, (v.set i 0)[m] = 0xFF) ↔ ∀ m ∈ i :: is, v[m] = 0xFF := by
        rw [List.forall_mem_cons, and_iff_right hff]
        exact forall₂_congr fun m hm => by rw [kept 0 m (List.mem_append_left _ hm)]
      rw [if_pos hff, ih _ hrest, kept 0 j hj]
      simp only [hcond]
    · rw [if_neg hff, kept _ j hj, if_neg fun hall => hff (hall i (by simp))]

theorem significance_sorted (le : Bool) :
    (significance le).Pairwise fun i j : Fin 16 => byteWeight le i < byteWeight le j := by
  cases le <;> decide

/-- ADVANCE adds one to the bytes below which all are `ff`, and keeps the others (R141, R142). -/
theorem advance_getElem (v : Block) (le : Bool) (j : Fin 16) :
    (advance v le)[j] =
      if ∀ i : Fin 16, byteWeight le i < byteWeight le j → v[i] = 0xFF then v[j] + 1 else v[j] := by
  obtain ⟨is, js, e⟩ := List.append_of_mem (mem_significance le j)
  have hsorted := significance_sorted le
  rw [e, List.pairwise_append, List.pairwise_cons] at hsorted
  obtain ⟨-, ⟨above, -⟩, below⟩ := hsorted
  have lower : ∀ i, i ∈ is ↔ byteWeight le i < byteWeight le j := fun i => by
    refine ⟨fun hi => below i hi j (by simp), fun hlt => ?_⟩
    have hi : i ∈ is ++ j :: js := e ▸ mem_significance le i
    rcases List.mem_append.mp hi with hi | hi
    · exact hi
    · rcases List.mem_cons.mp hi with rfl | hi
      · exact absurd hlt (lt_irrefl _)
      · exact absurd hlt (above i hi).not_gt
  rw [advance_eq_along, e, advanceAlong_getElem is js j v (e ▸ significance_nodup le)]
  simp only [lower]

/-- The counter `ff^16` wraps to `00^16` (R143). -/
theorem advance_allOnes (le : Bool) : advance (Vector.replicate 16 0xFF) le = Vector.replicate 16 0 := by
  refine Vector.ext fun i hi => ?_
  have hbyte := advance_getElem (Vector.replicate 16 0xFF) le ⟨i, hi⟩
  rw [if_pos (fun m _ => by simp)] at hbyte
  simpa using hbyte

/-- The least significant byte changes in every advance (R141, R142). -/
theorem advance_getElem_of_least (v : Block) (le : Bool) (j : Fin 16) (h : byteWeight le j = 0) :
    (advance v le)[j] = v[j] + 1 := by
  rw [advance_getElem, if_pos fun i hi => by omega]

/-- The least significant byte of one order is the most significant of the other (R140). -/
theorem byteWeight_not_lt : ∀ (le : Bool) (i j : Fin 16), byteWeight le j = 0 → i ≠ j →
    byteWeight (!le) i < byteWeight (!le) j := by decide

/-- If the byte orders advance to one counter, every byte but the least significant of one order is `ff`: only then
does the other order's carry reach that byte (R147). -/
theorem eq_ones_of_advance_eq {v : Block} {le : Bool} (h : advance v le = advance v !le) (j : Fin 16)
    (hj : byteWeight le j = 0) (i : Fin 16) (hij : i ≠ j) : v[i] = 0xFF := by
  have hne : v[j] + 1 ≠ v[j] := by bv_omega
  have hleast : (advance v le)[j] = v[j] + 1 := advance_getElem_of_least v le j hj
  rw [h, advance_getElem] at hleast
  split at hleast
  · next hlower => exact hlower i (byteWeight_not_lt le i j hj hij)
  · exact absurd hleast.symm hne

/-- R147: the byte orders give one second counter only for `ff^16`. -/
theorem advanceBE_eq_advanceLE_iff (v : Block) :
    advanceBE v = advanceLE v ↔ v = Vector.replicate 16 0xFF := by
  rw [← advance_false, ← advance_true]
  constructor
  · intro h
    have hbytes : ∀ i : Fin 16, v[i] = 0xFF := fun i => by
      by_cases hi : i = 0
      · exact eq_ones_of_advance_eq (le := false) h 15 rfl i (by rw [hi]; decide)
      · exact eq_ones_of_advance_eq (le := true) h.symm 0 rfl i hi
    exact Vector.ext fun i hi => (hbytes ⟨i, hi⟩).trans (Vector.getElem_replicate hi).symm
  · rintro rfl
    rw [advance_allOnes, advance_allOnes]

/-- Settles O29: the second counters by the bytes an advance changes, and the third ones because `00^16` is not
`ff^16`. -/
theorem byteOrdersAgreeOnlyAtTheWrap : Obligations.ByteOrdersAgreeOnlyAtTheWrap :=
  ⟨advanceBE_eq_advanceLE_iff,
    by rw [← advance_false, advance_allOnes],
    by rw [← advance_true, advance_allOnes],
    mt (advanceBE_eq_advanceLE_iff _).mp (by decide)⟩

end Sys2Proof.Machine

namespace Sys2Proof.Machine

/-! ### A TRANSFORM over identical or disjoint ranges -/

/-- All blocks of a TRANSFORM of `n` bytes, over identical or disjoint ranges: the `n` output bytes are the input XOR
the keystream, and every other byte is as it was (R188, R189). -/
theorem readByte_memAfterBlocks_blockCount (ctx : Context) {src dst n : Nat}
    (hr : src = dst ∨ src + n ≤ dst ∨ dst + n ≤ src) {m : Memory} (hw : Memory.wf m = true) (b : Nat) :
    readByte (memAfterBlocks ctx src dst n (blockCount n) 0 m) b =
      if dst ≤ b ∧ b < dst + n then readByte m (src + (b - dst)) ^^^ keystreamByte ctx (b - dst)
      else readByte m b := by
  have hall : min n (16 * (0 + blockCount n)) = n := by
    rw [blockCount]
    omega
  rw [readByte_memAfterBlocks ctx hr _ _ hw, hall, Nat.mul_zero, Nat.add_zero]

/-- Settles O17: the run of the blocks ends with `memAfterBlocks` in memory, read here byte by byte. -/
theorem transformRunsToInputXorKeystream : Obligations.TransformRunsToInputXorKeystream := by
  intro np vec s n hinv hund hidle hactive hpos hcount hsrc hdst hsr hdr hranges
  have ready : TransformReady np s n :=
    ⟨hinv, hund, hidle, hactive, hpos, (byteCount_eq np s.desc).trans hcount, hsrc, hdst, hsr, hdr⟩
  obtain ⟨u, hrun, e⟩ := ready.runs vec
  have hr := hranges.imp_left (congrArg BitVec.toNat)
  have hmem (b : Nat) : readByte u.mem b =
      if s.desc.dstAddr.toNat ≤ b ∧ b < s.desc.dstAddr.toNat + n then
        readByte s.mem (s.desc.srcAddr.toNat + (b - s.desc.dstAddr.toNat)) ^^^
          keystreamByte s.ctx (b - s.desc.dstAddr.toNat)
      else readByte s.mem b := by
    rw [e.mem]
    exact readByte_memAfterBlocks_blockCount s.ctx hr hinv.memory.1 b
  refine ⟨_, u, ready.exec vec, rfl, hrun, fun p hp => ?_, fun a ha => ?_, ?_, ?_, e.status, e.errInfo, e.idle,
    e.settings.desc, e.settings.ie⟩
  · rw [hmem, if_pos (by omega), Nat.add_sub_cancel_left]
  · rw [hmem, if_neg (by omega)]
  · exact e.ctx.trans (congrArg s.ctx.after (Nat.zero_add _))
  · exact e.blkcnt.trans (Nat.zero_add _)

/-! ### The counters of the keystream blocks -/

/-- `k` advances of the counter are the counter of block `k` (R145, R161). -/
theorem Context.after_eq_advance_iterate (c : Context) (k : Nat) :
    { c with ctr := (fun b => advance b c.le)^[k] c.ctr } = c.after k := by
  rw [Context.after, eq_ctrBytes_of_ctrInt (ctrInt_advance_iterate c.ctr c.le k)]

/-- The counters of two blocks are equal exactly when the blocks' numbers are equal modulo `2^128` (R165). -/
theorem Context.after_ctr_eq_iff (c : Context) (j k : Nat) :
    (c.after j).ctr = (c.after k).ctr ↔ j % 2 ^ 128 = k % 2 ^ 128 := by
  rw [Context.after_ctr, Context.after_ctr]
  constructor
  · intro h
    have hnumber := congrArg (ctrInt · c.le) h
    simp only [ctrInt_ctrBytes, Nat.mod_mod] at hnumber
    omega
  · intro h
    rw [Nat.add_mod, h, ← Nat.add_mod]

/-- The keystream returns after `2^128` blocks (R165). -/
theorem keystreamBlock_add_period (c : Context) (k : Nat) : keystreamBlock c (k + 2 ^ 128) = keystreamBlock c k := by
  rw [keystreamBlock, keystreamBlock, ← Nat.add_assoc, Nat.add_mod_right]

/-- Settles O30: the counter of block `k` is the initial one plus `k`, and counters are known by their numbers. -/
theorem keystreamBlocksUseSuccessiveCounters : Obligations.KeystreamBlocksUseSuccessiveCounters := by
  refine fun c => ⟨fun k => ?_, fun j k hjk hkj h => ?_, keystreamBlock_add_period c⟩
  · rw [c.after_eq_advance_iterate, nextBlock_after, keystreamBlock, keyBytes]
  · rw [← c.after_ctr, ← c.after_ctr, c.after_ctr_eq_iff] at h
    omega

end Sys2Proof.Machine

namespace Sys2Proof.Machine

/-! ### The vector-path hint -/

/-- The machine with another vector-path hint latched. -/
def withHint (v : Bool) (s : State) : State := { s with cmd := { s.cmd with lvec := v } }

/-- States that differ in the hint alone (R185). -/
theorem exists_withHint {s t : State} (h : sameButVec s t) : ∃ v, t = withHint v s :=
  ⟨t.cmd.lvec, (congrArg (withHint t.cmd.lvec) h).symm⟩

theorem sameButVec_of_eq {v : Bool} {s t : State} (h : t = withHint v s) : sameButVec s t := by
  rw [h]
  rfl

theorem corrupt_withHint (v : Bool) (s : State) : corrupt (withHint v s) = withHint v (corrupt s) := by
  unfold corrupt withHint
  cases s.cmd.opk <;> rfl

theorem meetOthers_withHint (v missed : Bool) (met : OtherCommand → Bool) (s : State) :
    meetOthers missed met (withHint v s) = withHint v (meetOthers missed met s) := by
  unfold meetOthers
  rw [apply_ite (withHint v), ← corrupt_withHint]
  rfl

theorem blockOutput_withHint (v : Bool) (inp : List Byte) (ks : Block) (s : State) :
    blockOutput inp ks (withHint v s) = ((blockOutput inp ks s).1, withHint v (blockOutput inp ks s).2) := by
  unfold blockOutput withHint
  split <;> rfl

theorem finishBlock_withHint (v : Bool) (ctr : Block) (m : Nat) (s : State) :
    finishBlock ctr m (withHint v s) = withHint v (finishBlock ctr m s) := by
  unfold finishBlock withHint
  split <;> rfl

theorem finishLoad_withHint (v : Bool) (key ctr : List Byte) (s : State) :
    finishLoad key ctr (withHint v s) = withHint v (finishLoad key ctr s) := by
  unfold finishLoad withHint
  split <;> rfl

theorem writeReg_withHint (v : Bool) (s : State) (r : Reg) (w : Word) :
    writeReg (withHint v s) r w = withHint v (writeReg s r w) := by
  cases r <;> rfl

theorem readReg_withHint (v : Bool) (s : State) (r : Reg) : readReg (withHint v s) r = readReg s r := by
  cases r <;> rfl

theorem observeAt_withHint (v : Bool) (r : Reg) (s : State) :
    observeAt r (withHint v s) = withHint v (observeAt r s) := by
  unfold observeAt observeStatus
  simp only [apply_ite (withHint v)]
  rfl

theorem beginOther_withHint (v : Bool) (id : Nat) (reads writes : List Span) (s : State) :
    beginOther id reads writes (withHint v s) = withHint v (beginOther id reads writes s) := by
  unfold beginOther
  simp only [apply_ite (withHint v)]
  rfl

theorem freeRanges_withHint (v : Bool) (l : List Span) (s : State) :
    freeRanges l (withHint v s) = withHint v (freeRanges l s) := by
  induction l generalizing s with
  | nil => rfl
  | cons d rest ih =>
    rw [freeRanges, freeRanges, ← ih]
    rfl

theorem endOther_withHint (v : Bool) (id : Nat) (s : State) :
    endOther id (withHint v s) = withHint v (endOther id s) := by
  rw [endOther, endOther, ← freeRanges_withHint]
  rfl

theorem sameButVec_corrupt_if (v b : Bool) (s : State) :
    sameButVec (if b then corrupt s else s) (if b then corrupt (withHint v s) else withHint v s) := by
  cases b
  · rfl
  · exact sameButVec_of_eq (corrupt_withHint v s)

section Hint

variable (v : Bool) (s : State)

theorem dmaAsk_withHint (a n : Nat) :
    Alike (fun r r' => r' = (r.1, withHint v r.2)) (dmaAsk s a n) (dmaAsk (withHint v s) a n) := by
  unfold dmaAsk dmaAdmits withHint
  split_ifs
  · exact .fault _
  · exact .next rfl
  · exact .refused _
  · exact .next rfl

theorem dmaRead_withHint (a n : Nat) :
    Alike (fun r r' => r' = (r.1, withHint v r.2)) (dmaRead s a n) (dmaRead (withHint v s) a n) := by
  refine (dmaAsk_withHint v s a n).andThen fun r _ hr => ?_
  subst hr
  dsimp only
  split
  · exact .next rfl
  · exact .next (congrArg (Prod.mk _) (meetOthers_withHint v _ _ r.2))

theorem dmaWrite_withHint (a : Nat) (bytes : List Byte) :
    Alike (fun r r' => r' = (r.1, withHint v r.2)) (dmaWrite s a bytes) (dmaWrite (withHint v s) a bytes) := by
  refine (dmaAsk_withHint v s a bytes.length).andThen fun r _ hr => ?_
  subst hr
  dsimp only
  split
  · exact .next rfl
  · exact .next (congrArg (Prod.mk _) (meetOthers_withHint v _ _ (dmaStore r.2 a bytes)))

/-- The load step reads no hint (R121). -/
theorem constructLoad_withHint :
    Alike (fun u w => w = withHint v u) (constructLoad s) (constructLoad (withHint v s)) := by
  refine (dmaRead_withHint v s _ _).andThen fun r _ hr => ?_
  subst hr
  dsimp only
  cases r.1 with
  | none => exact .next rfl
  | some key =>
    refine (dmaRead_withHint v r.2 _ _).andThen fun c _ hc => ?_
    subst hc
    dsimp only
    cases c.1 with
    | none => exact .next rfl
    | some ctr => exact .next (finishLoad_withHint v key ctr c.2)

theorem blockWrite_withHint (inp : List Byte) :
    Alike (fun u w => w = withHint v u) (blockWrite inp s) (blockWrite inp (withHint v s)) := by
  unfold blockWrite
  dsimp only
  rw [show (withHint v s).ctx = s.ctx from rfl, blockOutput_withHint]
  refine (dmaWrite_withHint v _ _ _).andThen fun w _ hw => ?_
  subst hw
  dsimp only
  split
  · exact .next rfl
  · exact .next (finishBlock_withHint v _ _ w.2)

/-- The block step reads no hint: there is one path (R181, R185). -/
theorem transformBlock_withHint :
    Alike (fun u w => w = withHint v u) (transformBlock s) (transformBlock (withHint v s)) := by
  unfold transformBlock
  rw [show (withHint v s).ctx = s.ctx from rfl, show (withHint v s).cmd.ln = s.cmd.ln from rfl,
    show (withHint v s).cmd.off = s.cmd.off from rfl]
  split
  · exact .fault _
  · split
    · exact .fault _
    · refine (dmaRead_withHint v s _ _).andThen fun r _ hr => ?_
      subst hr
      dsimp only
      cases r.1 with
      | none => exact .next rfl
      | some inp => exact blockWrite_withHint v r.2 inp

theorem engineStep_withHint :
    Alike (fun u w => w = withHint v u) (engineStep s) (engineStep (withHint v s)) := by
  unfold engineStep
  rw [show (withHint v s).cmd.opk = s.cmd.opk from rfl]
  cases s.cmd.opk with
  | idle => exact .next rfl
  | constructPending => exact constructLoad_withHint v s
  | transformPending => exact transformBlock_withHint v s

/-- No check of a TRANSFORM reads a hint, and its acceptance latches a new one at most (R180, R185). -/
theorem transformAccept_withHint (sp dp np vec vec' : Bool) :
    sameButVec (transformAccept sp dp np vec s) (transformAccept sp dp np vec' (withHint v s)) := by
  unfold transformAccept
  rw [show transformError sp dp np (withHint v s) = transformError sp dp np s from rfl,
    show (withHint v s).desc = s.desc from rfl]
  cases transformError sp dp np s with
  | some e => rfl
  | none =>
    dsimp only
    split <;> rfl

/-- Acceptances that leave the same state but for the hint do so at the CMD write too, whether the engine is idle or
busy (R103, R104). -/
theorem submit_withHint {f g : State → State} (h : ∀ t, sameButVec (f t) (g (withHint v t))) :
    sameButVec (submit s f) (submit (withHint v s) g) := by
  unfold submit
  rw [show busy (withHint v s) = busy s from rfl]
  split
  · rfl
  · exact h (beginCommand s)

end Hint

/-- A TRANSFORM word has one effect with either hint, from states that agree but for the hint (R185). -/
theorem execTransform_withHint (v : Bool) (sp dp np vec vec' : Bool) (rsv : BitVec 24) (s : State) :
    ∃ t u, execTransform sp dp np vec rsv s = .next t ∧
      execTransform sp dp np vec' rsv (withHint v s) = .next u ∧ sameButVec t u := by
  refine ⟨_, _, rfl, rfl, submit_withHint v s fun t => ?_⟩
  split
  · rfl
  · exact transformAccept_withHint v t sp dp np vec vec'

/-- A command word has one effect from states that agree but for the hint (R185). -/
theorem exec_withHint (v : Bool) (i : Instr) (s : State) : Alike sameButVec (exec i s) (exec i (withHint v s)) := by
  cases i with
  | construct le kp cp rsv =>
    refine .next (submit_withHint v s fun t => ?_)
    split
    · rfl
    · unfold constructAccept
      rw [show constructError kp cp (withHint v t) = constructError kp cp t from rfl]
      cases constructError kp cp t <;> rfl
  | transform sp dp np vec rsv =>
    obtain ⟨t, u, ht, hu, h⟩ := execTransform_withHint v sp dp np vec vec rsv s
    rw [exec, exec, ht, hu]
    exact .next h
  | release rsv =>
    refine .next (submit_withHint v s fun t => ?_)
    rw [zeroizeContext_eq, zeroizeContext_eq]
    split <;> rfl
  | reservedOp op rest => exact .next (submit_withHint v s fun t => rfl)

theorem hostRegWrite_withHint (v : Bool) (addr : Nat) (width : AccessWidth) (w : Word) (s : State) :
    Alike sameButVec (hostRegWrite addr width w s) (hostRegWrite addr width w (withHint v s)) := by
  cases hr : windowReg s.plat addr width with
  | error p =>
    rw [hostRegWrite_error hr, hostRegWrite_error (s := withHint v s) hr]
    exact .refused p
  | ok r =>
    by_cases hcmd : r = .cmd
    · subst hcmd
      rw [hostRegWrite_cmd w hr, hostRegWrite_cmd (s := withHint v s) w hr]
      exact exec_withHint v (decode w) s
    · rw [hostRegWrite_store w hr hcmd, hostRegWrite_store (s := withHint v s) w hr hcmd]
      exact .next (sameButVec_of_eq (writeReg_withHint v s r w))

theorem hostRegRead_withHint (v : Bool) (addr : Nat) (width : AccessWidth) (s : State) :
    Alike sameButVec (hostRegRead addr width s) (hostRegRead addr width (withHint v s)) := by
  cases hr : windowReg s.plat addr width with
  | error p =>
    rw [hostRegRead_error hr, hostRegRead_error (s := withHint v s) hr]
    exact .refused p
  | ok r =>
    rw [hostRegRead_ok hr, hostRegRead_ok (s := withHint v s) hr, readReg_withHint]
    exact .next (sameButVec_of_eq (observeAt_withHint v r { s with busWord := readReg s r }))

theorem busMemWrite_withHint (v : Bool) (who : Master) (a : Nat) (bytes : List Byte) (s : State) :
    Alike sameButVec (busMemWrite who a bytes s) (busMemWrite who a bytes (withHint v s)) := by
  unfold busMemWrite
  rw [show (withHint v s).plat = s.plat from rfl]
  split
  · exact .fault _
  · exact .next (sameButVec_corrupt_if v _ _)

theorem busMemRead_withHint (v : Bool) (who : Master) (a n : Nat) (s : State) :
    Alike sameButVec (busMemRead who a n s) (busMemRead who a n (withHint v s)) := by
  unfold busMemRead
  rw [show (withHint v s).plat = s.plat from rfl]
  split
  · exact .fault _
  · cases who with
    | host => exact .next (sameButVec_corrupt_if v _ _)
    | other id => exact .next (sameButVec_corrupt_if v _ _)

/-- An event of any agent has one effect from states that agree but for the hint (R185). -/
theorem deliver_withHint (v : Bool) (s : State) : ∀ e : Event,
    Alike sameButVec (deliver e s) (deliver e (withHint v s))
  | .regWrite addr width w => hostRegWrite_withHint v addr width w s
  | .regRead addr width => hostRegRead_withHint v addr width s
  | .memWrite who a bytes => busMemWrite_withHint v who a bytes s
  | .memRead who a n => busMemRead_withHint v who a n s
  | .maintain _ _ => .next rfl
  | .otherBegins id reads writes => .next (sameButVec_of_eq (beginOther_withHint v id reads writes s))
  | .otherEnds id => .next (sameButVec_of_eq (endOther_withHint v id s))
  | .engineTurn => (engineStep_withHint v s).mono fun _ _ => sameButVec_of_eq
  | .reset => .next rfl

theorem step_withHint (v : Bool) (s : State) : Alike sameButVec (step s) (step (withHint v s)) := by
  unfold step
  rw [show (withHint v s).events = s.events from rfl]
  cases s.events with
  | nil => exact (engineStep_withHint v s).mono fun _ _ => sameButVec_of_eq
  | cons e rest => exact deliver_withHint v { s with events := rest } e

/-- Settles O23: states that agree but for the hint are `s` and `withHint v s`, and every agent's step takes these to
alike outcomes. -/
theorem vectorHintIsUnobservable : Obligations.VectorHintIsUnobservable := by
  refine ⟨fun s t h => ?_, fun sp dp np rsv s => ?_⟩
  · obtain ⟨v, rfl⟩ := exists_withHint h
    have hstep := step_withHint v s
    generalize step s = o, step (withHint v s) = o' at hstep ⊢
    cases hstep with
    | next h => exact h
    | fault => rfl
    | refused => rfl
  · exact execTransform_withHint s.cmd.lvec sp dp np false true rsv s

/-! ### TRANSFORM: its acceptance -/

/-- The checks of R180 look at nothing that acceptance clears (R103). -/
theorem transformError_beginCommand (sp dp np : Bool) (s : State) :
    transformError sp dp np (beginCommand s) = transformError sp dp np s := rfl

/-- TRANSFORM on an idle engine reports the first check of R180 that fails, or success for no bytes (R187), and else
is latched (R103, R180). -/
theorem exec_transform {s : State} (idle : s.cmd.opk = .idle) (sp dp np vec : Bool) :
    exec (.transform sp dp np vec 0) s = .next
      ((transformError sp dp np s).elim
        (if byteCount np s.desc = 0 then reportedAtOnce s 0 0
          else latchTransform vec (byteCount np s.desc).toNat (beginCommand s))
        fun e => reportedAtOnce s e.code.cls e.code.sub) := by
  have empty : complete .ok (beginCommand s) = reportedAtOnce s 0 0 := complete_beginCommand idle .ok
  rw [exec, execTransform, submit_idle idle, if_neg (not_not.mpr rfl), transformAccept, transformError_beginCommand,
    beginCommand_desc, empty]
  cases transformError sp dp np s with
  | none => rfl
  | some e => exact congrArg Host.Outcome.next (complete_beginCommand idle e)

/-- The first failed check decides what is made of a chain of checks. -/
theorem elim_ite_some {α β : Type} (c : Prop) [Decidable c] (e : α) (o : Option α) (pass : β) (report : α → β) :
    (if c then some e else o).elim pass report = if c then report e else o.elim pass report := by
  split <;> rfl

/-- Settles O13: the fields of the word, then the chain of checks of `transformError` as a chain of reports. -/
theorem transformAcceptanceChecksInOrder : Obligations.TransformAcceptanceChecksInOrder := by
  intro w s n hw idle hn
  obtain ⟨hop, hrsv⟩ := (matches_transform_iff_fields w).mp hw
  have hdec : decode w = .transform (w.getLsbD 4) (w.getLsbD 5) (w.getLsbD 6) (w.getLsbD 7) 0 := by
    rw [decode_of_opField_two hop, decodeT, hrsv]
  rw [← byteCount_eq] at hn
  refine ⟨hdec, ?_⟩
  rw [hdec, exec_transform idle, transformError, ← hn, show 2 ^ s.plat.addrW = memSize s.plat from rfl]
  simp only [elim_ite_some, Option.elim_none]
  rfl

/-- Settles O14: a count of 0 is in bounds, so every check passes. -/
theorem emptyTransformCompletesAtAcceptance : Obligations.EmptyTransformCompletesAtAcceptance := by
  intro np vec s idle hlife hn hsrc hdst
  rw [← byteCount_eq] at hn
  have hpass : transformError true true np s = none :=
    transformError_none.mpr ⟨hlife, rfl, rfl, by omega, by omega, by omega, hsrc, hdst⟩
  rw [exec_transform idle, hpass, Option.elim_none, if_pos hn]

/-! ### XOR_COMBINE -/

theorem xorCombine_length {inp : List Byte} (ks : Block) (h : inp.length ≤ 16) :
    (xorCombine inp ks).length = inp.length := by
  simp [xorCombine, h]

theorem xorCombine_getElem {inp : List Byte} (ks : Block) {i : Nat} (h : i < (xorCombine inp ks).length)
    (hi : i < inp.length) (hks : i < ks.toList.length) : (xorCombine inp ks)[i] = inp[i] ^^^ ks.toList[i] :=
  List.getElem_zipWith

/-- Settles O31: byte by byte, with `(x ^^^ k) ^^^ k = x` for the inverse. -/
theorem xorCombineIsBytewiseAndUndoesItself : Obligations.XorCombineIsBytewiseAndUndoesItself := by
  intro inp ks h
  have hlen := xorCombine_length ks h
  have hks : ks.toList.length = 16 := Vector.length_toList
  refine ⟨hlen, fun i hi => ?_, ?_⟩
  · rw [List.getD_eq_getElem _ _ (by omega), List.getD_eq_getElem _ _ hi, List.getD_eq_getElem _ _ (by omega),
      xorCombine_getElem ks _ hi]
  · refine List.ext_getElem ((xorCombine_length ks (by omega)).trans hlen) fun i _ hi => ?_
    rw [xorCombine_getElem ks _ (by omega) (by omega), xorCombine_getElem ks _ hi (by omega), BitVec.xor_assoc,
      BitVec.xor_self, BitVec.xor_zero]

/-! ### What the engine's turn stores -/

@[simp] theorem finishLoad_mem (key ctr : List Byte) (s : State) : (finishLoad key ctr s).mem = s.mem := by
  rw [finishLoad_report, complete_mem]
@[simp] theorem finishBlock_mem (ctr : Block) (m : Nat) (s : State) : (finishBlock ctr m s).mem = s.mem := by
  unfold finishBlock; split <;> rfl

/-- A load step stores no byte, whatever it meets (R121). -/
theorem constructLoad_mem {s t : State} (hk : s.cmd.opk = .constructPending) (h : constructLoad s = .next t) :
    t.mem = s.mem := by
  have hread (u : State) (hu : u.cmd = s.cmd) (a n : Nat) : (afterRead u a n).mem = u.mem :=
    afterRead_mem_of_not_transform (by rw [hu, hk]; decide) a n
  rcases constructLoad_next h with rfl | rfl | rfl
  · rfl
  · exact hread s rfl _ _
  · rw [finishLoad_mem, hread _ (afterRead_cmd _ _ _), hread s rfl]

/-- A block step stores no byte outside the output range, whatever it meets (R188). -/
theorem transformBlock_mem_outside {s t : State} (hw : Memory.wf s.mem = true) (h : transformBlock s = .next t)
    {a : Nat} (ha : inRange s.cmd.ldst.toNat s.cmd.ln a = false) : readByte t.mem a = readByte s.mem a := by
  obtain ⟨-, hleft, hend⟩ := transformBlock_next h
  have hblock : inRange (s.cmd.ldst.toNat + s.cmd.off) (blockBytesOut s).length a = false := by
    rw [blockBytesOut_length, blockSize]
    simp only [inRange, Bool.and_eq_false_iff, decide_eq_false_iff_not] at ha ⊢
    omega
  have hread : readByte (beforeWrite s).mem a = readByte s.mem a := by
    rw [beforeWrite_mem]
    exact meetOthers_mem_outside _ _ (tookAnswer s) hw a fun _ => ha
  have hwf : Memory.wf (beforeWrite s).mem = true := by
    rw [beforeWrite_mem]
    exact afterRead_mem_wf _ _ _ hw
  rcases hend with rfl | rfl | rfl
  · rfl
  · exact hread
  · rw [finishBlock_mem, afterWrite, meetOthers_mem_outside]
    · exact (readByte_writeBytes_outside _ _ hwf _ _ hblock).trans hread
    · exact writeBytes_wf _ _ _ hwf
    · rw [dmaStore_cmd, tookAnswer_cmd, beforeWrite_cmd]
      exact fun _ => ha

/-- Settles O19, by the kind of command in progress. -/
theorem engineWritesOnlyTheOutputRange : Obligations.EngineWritesOnlyTheOutputRange := by
  intro s t hinv h a ha
  rcases engineStep_next h with ⟨-, rfl⟩ | ⟨hk, h⟩ | ⟨hk, h⟩
  · rfl
  · rw [constructLoad_mem hk h]
  · refine transformBlock_mem_outside hinv.memory.1 h ?_
    simpa [inRange, or_iff_not_imp_left] using ha hk

end Sys2Proof.Machine

namespace Sys2Proof.Machine

/-! ### RELEASE: what follows it -/

/-- The second zeroing finds no ACTIVE context (R241). -/
@[simp] theorem zeroizeContext_idem (s : State) : zeroizeContext (zeroizeContext s) = zeroizeContext s := by
  by_cases active : s.ctx.life = .active
  · simp [zeroizeContext_eq, active, Context.zeroed]
  · simp [zeroizeContext_eq, active]

theorem reportedAtOnce_zeroizeContext (s : State) (cls sub : BitVec 4) :
    reportedAtOnce (zeroizeContext s) cls sub = zeroizeContext (reportedAtOnce s cls sub) := by
  rw [zeroizeContext_eq, zeroizeContext_eq]
  rfl

@[simp] theorem zeroizeContext_cmd (s : State) : (zeroizeContext s).cmd = s.cmd := by rw [zeroizeContext_eq]
@[simp] theorem zeroizeContext_status (s : State) : (zeroizeContext s).status = s.status := by
  rw [zeroizeContext_eq]

theorem zeroizeContext_life {s : State} (active : s.ctx.life = .active) :
    (zeroizeContext s).ctx.life = .disposed := by
  rw [zeroizeContext_eq, if_pos active]
  rfl

/-- RELEASED is the first check of R180, whatever the operands are (R242). -/
theorem exec_transform_disposed {s : State} (idle : s.cmd.opk = .idle) (disposed : s.ctx.life = .disposed)
    (sp dp np vec : Bool) : exec (.transform sp dp np vec 0) s = .next (reportedAtOnce s 2 1) := by
  rw [exec_transform idle, transformError, if_pos disposed]
  rfl

/-- Settles O25: the second RELEASE zeroes and reports what the first one zeroed and reported. -/
theorem releaseTwiceIsReleaseOnce : Obligations.ReleaseTwiceIsReleaseOnce := by
  intro s idle
  let t := zeroizeContext (reportedAtOnce s 0 0)
  have idle_t : t.cmd.opk = .idle := (congrArg Command.opk (zeroizeContext_cmd _)).trans idle
  refine ⟨t, exec_release idle, ?_, ?_, fun active sp dp np vec => ?_⟩
  · have again : zeroizeContext (reportedAtOnce t 0 0) = t := by
      rw [reportedAtOnce_zeroizeContext, zeroizeContext_idem]
      rfl
    rw [exec_release idle_t, again]
  · have done : t.status.done = true := congrArg StatusBits.done (zeroizeContext_status _)
    rw [irq, done, Bool.and_true]
  · exact exec_transform_disposed idle_t (zeroizeContext_life active) sp dp np vec

end Sys2Proof.Machine

namespace Sys2Proof.Machine

/-! ### The steps a command in progress has left -/

/-- The machine after one more of the engine's steps: its command has completed, or has a step fewer left (R260,
R312). -/
def CompletedOrCloser (s t : State) : Prop :=
  (t.cmd.opk = .idle ∧ t.status.done = true) ∨ (t.cmd.opk ≠ .idle ∧ stepsLeft s = stepsLeft t + 1)

theorem completedOrCloser_complete (s t : State) (c : Completion) : CompletedOrCloser s (complete c t) :=
  .inl ⟨rfl, rfl⟩

theorem stepsLeft_of_transform {s : State} (hk : s.cmd.opk = .transformPending) :
    stepsLeft s = blockCount (s.cmd.ln - s.cmd.off) := by
  simp [stepsLeft, hk]

/-- Under the invariant a command in progress has a step left: TRANSFORM has a byte to go (R49). -/
theorem MachineInv.stepsLeft_pos {s : State} (h : MachineInv s) (busy : s.cmd.opk ≠ .idle) : 0 < stepsLeft s := by
  cases hk : s.cmd.opk with
  | idle => exact absurd hk busy
  | constructPending => simp [stepsLeft, hk]
  | transformPending =>
    have left := (h.transform hk).left
    rw [stepsLeft_of_transform hk, blockCount]
    omega

/-- The load step completes its command, whatever the platform answers (R121, R122). -/
theorem constructLoad_completedOrCloser {s t : State} (h : constructLoad s = .next t) : CompletedOrCloser s t := by
  rcases constructLoad_next h with rfl | rfl | rfl
  · exact completedOrCloser_complete _ _ _
  · exact completedOrCloser_complete _ _ _
  · rw [finishLoad_report]
    exact completedOrCloser_complete _ _ _

/-- A committed block is the last one, or 16 bytes fewer are left (R181). -/
theorem finishBlock_completedOrCloser {s u : State} (hk : s.cmd.opk = .transformPending) (hcmd : u.cmd = s.cmd)
    (left : s.cmd.off < s.cmd.ln) (ctr : Block) :
    CompletedOrCloser s (finishBlock ctr (blockSize s.cmd) u) := by
  unfold finishBlock
  split
  · exact completedOrCloser_complete _ _ _
  · next hlast =>
    have hk' : (commitBlock ctr (blockSize s.cmd) u).cmd.opk = .transformPending := by
      rw [commitBlock_cmd, hcmd, hk]
    refine .inr ⟨by rw [hk']; decide, ?_⟩
    rw [stepsLeft_of_transform hk, stepsLeft_of_transform hk', commitBlock_cmd, hcmd]
    simp only [hcmd, blockCount, blockSize, Config.blockBytes] at hlast ⊢
    omega

/-- The block step completes its command or commits a block, whatever the platform answers (R181, R270). -/
theorem transformBlock_completedOrCloser {s t : State} (hk : s.cmd.opk = .transformPending)
    (h : transformBlock s = .next t) : CompletedOrCloser s t := by
  obtain ⟨-, left, rfl | rfl | rfl⟩ := transformBlock_next h
  · exact completedOrCloser_complete _ _ _
  · exact completedOrCloser_complete _ _ _
  · exact finishBlock_completedOrCloser hk (by simp) left _

theorem engineStep_completedOrCloser {s t : State} (busy : s.cmd.opk ≠ .idle) (h : engineStep s = .next t) :
    CompletedOrCloser s t := by
  rcases engineStep_next h with ⟨idle, -⟩ | ⟨-, h⟩ | ⟨hk, h⟩
  · exact absurd idle busy
  · exact constructLoad_completedOrCloser h
  · exact transformBlock_completedOrCloser hk h

/-- A command with `n` steps left completes within them, by induction on `n`: no step stops under the invariant, and
the next state is the completion or has a step fewer left (R260, R312, R313). -/
theorem MachineInv.run_completes {n : Nat} {s : State} (h : MachineInv s) (busy : s.cmd.opk ≠ .idle)
    (quiet : s.events = []) (noDevices : s.plat.devices = []) (hn : stepsLeft s = n) :
    ∃ k t, 0 < k ∧ k ≤ n ∧ Host.Core.run Sys2Proof.core k s = .next t ∧ t.cmd.opk = .idle ∧
      t.status.done = true := by
  induction n generalizing s with
  | zero => exact absurd hn (h.stepsLeft_pos busy).ne'
  | succ n ih =>
    obtain ⟨-, -, hnext, -⟩ := engineNeverStopsUnderTheInvariant s h
    obtain ⟨t, ht⟩ := hnext noDevices
    have hstep : Machine.step s = .next t := (step_of_no_events quiet).trans ht
    rcases engineStep_completedOrCloser busy ht with ⟨idle, done⟩ | ⟨busy', closer⟩
    · exact ⟨1, t, Nat.one_pos, Nat.le_add_left 1 n, run_succ_of_next 0 hstep, idle, done⟩
    · obtain ⟨k, u, -, hle, hrun, idle, done⟩ := ih (h.step hstep) busy'
        ((engineStep_turnKept ht).events.trans quiet)
        ((congrArg Platform.devices (engineStep_settingsKept ht).plat).trans noDevices) (by omega)
      exact ⟨k + 1, u, k.succ_pos, Nat.succ_le_succ hle, (run_succ_of_next k hstep).trans hrun, idle, done⟩

/-- Settles O52: the run through the steps that are left. -/
theorem everyAcceptedCommandCompletes : Obligations.EveryAcceptedCommandCompletes :=
  fun _ h busy quiet noDevices => h.run_completes busy quiet noDevices rfl

/-! ### The interrupt line -/

theorem irq_of_not_done {s : State} (h : s.status.done = false) : irq s = false := by
  rw [irq, h, Bool.and_false]

theorem irq_of_not_enabled {s : State} (h : s.ie = false) : irq s = false := by
  rw [irq, h, Bool.false_and]

/-- A command word that leaves an idle engine BUSY has cleared DONE (R103, R275). -/
theorem exec_done_of_pending {i : Instr} {s t : State} (idle : s.cmd.opk = .idle) (h : exec i s = .next t)
    (pending : t.cmd.opk ≠ .idle) : t.status.done = false := by
  rcases exec_next h with ⟨busy, -⟩ | ⟨-, ⟨_, rfl⟩ | ⟨_, _, _, -, -, rfl⟩ | ⟨_, _, _, _, -, -, -, rfl⟩ | ⟨-, -, rfl⟩⟩
  · exact absurd idle busy
  · exact absurd rfl pending
  · rfl
  · rfl
  · exact absurd rfl pending

/-- Settles O41: each way to clear the line clears DONE or IE. -/
theorem interruptFollowsEnableAndDone : Obligations.InterruptFollowsEnableAndDone := by
  refine fun s => ⟨rfl, rfl, ?status, ?ctrl, ?pending, ?reset⟩
  case status =>
    intro v rest t hev hv h
    rw [step_store hev (by decide) (by decide) (by decide)] at h
    cases h
    exact irq_of_not_done (by simp [regAt, writeReg, statusAfterWrite_eq, hv])
  case ctrl =>
    intro v rest t hev hv h
    rw [step_store hev (by decide) (by decide) (by decide)] at h
    cases h
    exact ⟨irq_of_not_enabled hv, rfl⟩
  case pending => exact fun i t idle h pending => irq_of_not_done (exec_done_of_pending idle h pending)
  case reset =>
    intro rest t hev h
    rw [step, hev] at h
    cases h
    rfl

/-! ### TRANSFORM without a context, outcome codes and the idle engine -/

/-- NO_CONTEXT comes before every check of the operands (R264). -/
theorem exec_transform_noContext {s : State} (idle : s.cmd.opk = .idle) (noContext : s.ctx.life = .none)
    (sp dp np vec : Bool) : exec (.transform sp dp np vec 0) s = .next (reportedAtOnce s 2 2) := by
  rw [exec_transform idle, transformError, if_neg (by simp [noContext]), if_pos noContext]
  rfl

/-- Settles O15: the first two checks of R180, and the ERRINFO word of each report. -/
theorem transformWithoutContextFails : Obligations.TransformWithoutContextFails :=
  fun sp dp np vec _ idle =>
    ⟨fun disposed => exec_transform_disposed idle disposed sp dp np vec,
      fun noContext => exec_transform_noContext idle noContext sp dp np vec,
      (by decide : errInfoWord Completion.released.code = 0x12),
      (by decide : errInfoWord Completion.noContext.code = 0x22)⟩

/-- Settles O40: the words of the twenty codes, computed. -/
theorem errInfoValuesOfTheNamedOutcomes : Obligations.ErrInfoValuesOfTheNamedOutcomes := by
  unfold Obligations.ErrInfoValuesOfTheNamedOutcomes
  decide

theorem engineStep_of_idle {s : State} (idle : s.cmd.opk = .idle) : engineStep s = .next s := by
  rw [engineStep, idle]

/-- Settles O44: an idle engine's turn, which an eventless step takes. -/
theorem idleEngineWaits : Obligations.IdleEngineWaits :=
  fun _ idle => ⟨engineStep_of_idle idle, fun quiet => (step_of_no_events quiet).trans (engineStep_of_idle idle)⟩

end Sys2Proof.Machine
